-- ==== Sys2Proof/Word.lean ====
section
/-!
DEFINITION. The word types of the Huffman tree synthesizer (HTS): every value of the block is an
unsigned integer of a stated width (spec 00_scope.md R7, R10).
-/

namespace Sys2Proof

/-- A byte: a symbol, an input byte, a bitstream byte or an output byte (R7 `NSYMS`, R91 `sym`). -/
abbrev Byte := BitVec 8

/-- A saturated weight or a 32-bit immediate (R7 `WEIGHT_W`, R91 `imm`). -/
abbrev Half := BitVec 32

/-- A count, a node weight, a code pattern, a command word or a read word (R7 `FREQ_W`,
`NODEW_W`, `CODE_W`, `CMD_W`, `RDATA_W`, `CNT_W`). -/
abbrev Word := BitVec 64

/-- The index of an arena entry, 0..510, or `NIL` (R7 `IDX_W`, 10_state.md R24, R25). -/
abbrev NodeIx := BitVec 10

/-- A code length, 0..64 (R7 `LEN_W`). -/
abbrev CodeLen := BitVec 7

/-- A read-port address (R7 `RADDR_W`). -/
abbrev ReadAddr := BitVec 12

end Sys2Proof
end

