-- ==== Sys2Proof/Config.lean ====
section
/-!
DEFINITION. The implementation parameters of HTS. Spec 00_scope.md R7: every parameter has a fixed
value and the model takes none as an argument. There is no free value: spec
93_implementation_defined.md, "Nothing in the block is modelled as `any value` or `stuck`".
-/

namespace Sys2Proof.Config

/-- `NIL`, the null node index (R7, R25). -/
abbrev nil : NodeIx := 0x3FF#10

/-- `WMAX`, the saturation ceiling 2^32 - 1 (R7, R121). -/
abbrev wmax : Half := 0xFFFFFFFF#32

/-- `MAXLEN`, the longest code the table can hold (R7, R163). -/
abbrev maxLen : Nat := 64

/-- `NSYMS`, the alphabet size (R7). -/
abbrev nsyms : Nat := 256

/-- `ARENA`, the number of arena entries (R7, R24). -/
abbrev arena : Nat := 511

/-- The constant `ID`, read at address 0x000 (R35). -/
abbrev ident : Word := 0x0000000001324648#64

/-- The exact word of `RST`, the one word a faulted block executes (R206, R252). -/
abbrev rstWord : Word := 0x0100000000000000#64

end Sys2Proof.Config
end

