-- ==== Sys2Proof/Syntax.lean ====
section
/-!
DEFINITION. The commands of HTS-CMD v1 (the block's instructions) with their operands, the four
formats and the four fields of a command word (spec 30_encoding.md R91 to R94).
-/

namespace Sys2Proof

/-- One constructor per row of the opcode map (R94). Operands have exactly the widths of the
fields that carry them, "so every value of the field is a legal symbol or data byte and no range
check exists" (R93). -/
inductive Instr where
  /-- `NOP`: nothing (R205). -/
  | nop
  /-- `RST`: return all state to reset values (R206). -/
  | rst
  /-- `FCLR`: clear the histogram (R122). -/
  | fclr
  /-- `FACC b`: count one input byte (R123). -/
  | facc (b : Byte)
  /-- `WSAT`: weights from the saturated histogram (R124). -/
  | wsat
  /-- `WLD s, w`: load one weight (R125). -/
  | wld (s : Byte) (w : Half)
  /-- `TBUILD`: build the tree from the weights (R141). -/
  | tbuild
  /-- `CGEN`: generate the code table from the tree (R160). -/
  | cgen
  /-- `PENC b`: append the code of byte `b` to the bitstream (R170). -/
  | penc (b : Byte)
  /-- `PFLUSH`: zero-pad and emit the partial byte (R171). -/
  | pflush
  /-- `ULENL n`: declared count, low half, clearing the high half (R186). -/
  | ulenl (n : Half)
  /-- `ULENH n`: declared count, high half (R187). -/
  | ulenh (n : Half)
  /-- `UBYTE b`: walk the tree over the 8 bits of `b` (R188). -/
  | ubyte (b : Byte)
  /-- `UEND`: end of the bitstream (R189). -/
  | uend
deriving DecidableEq, Repr

/-- The four formats (R92): which operand fields carry an operand. -/
inductive Format where
  /-- no operand -/
  | n
  /-- a byte in `sym` -/
  | b
  /-- an immediate in `imm` -/
  | i
  /-- a symbol in `sym` and an immediate in `imm` -/
  | si
deriving DecidableEq, Repr

/-- The fields of a command word (R91). -/
structure Fields where
  /-- bits 63:56, the opcode -/
  op : Byte
  /-- bits 55:48, a byte operand -/
  sym : Byte
  /-- bits 47:32, reserved, 0 in every command -/
  rsv : BitVec 16
  /-- bits 31:0, a 32-bit immediate -/
  imm : Half
deriving DecidableEq, Repr

/-- Why a word is illegal (R95, R97): the three kinds of illegal word, the third split by field. -/
inductive Illegal where
  /-- `op` is not one of the fourteen values of R94 -/
  | unassignedOp
  /-- `rsv` is not 0 -/
  | rsvNonzero
  /-- `sym` is not 0 in a format that does not use it -/
  | symNonzero
  /-- `imm` is not 0 in a format that does not use it -/
  | immNonzero
deriving DecidableEq, Repr

end Sys2Proof
end

