-- ==== Sys2Proof/WellFormed.lean ====
section
/-!
DEFINITION. When the fields of a command word are well formed for a format: a field that carries no
operand is 0 (spec 30_encoding.md R92, R95). An `Instr` needs no check of its own: its operands have
the widths of their fields (R93). The checks are made in the order of R95.
-/

namespace Sys2Proof

/-- Formats that carry an operand in `sym` (R92). -/
def Format.usesSym : Format → Bool
  | .n => false
  | .b => true
  | .i => false
  | .si => true

/-- Formats that carry an operand in `imm` (R92). -/
def Format.usesImm : Format → Bool
  | .n => false
  | .b => false
  | .i => true
  | .si => true

/-- The checks of R95 after the opcode: the first that fails, or none. -/
def Fields.problem (f : Fields) (k : Format) : Option Illegal :=
  if f.rsv ≠ 0#16 then some .rsvNonzero
  else if k.usesSym = false ∧ f.sym ≠ 0#8 then some .symNonzero
  else if k.usesImm = false ∧ f.imm ≠ 0#32 then some .immNonzero
  else none

/-- The fields are those of a command of format `k` (R92). -/
def Fields.wellFormed (f : Fields) (k : Format) : Bool := (f.problem k).isNone

end Sys2Proof
end

