-- ==== Sys2Proof/Decode.lean ====
section
/-!
DEFINITION. The decoder and the encoder of command words (spec 30_encoding.md R90 to R97). Decoding
is total, reads no state, and rejects by name; every word is either one of the fourteen commands or
illegal (R97).
-/

namespace Sys2Proof

/-- Cut a command word into its fields (R91). -/
def fieldsOfWord (w : Word) : Fields :=
  { op := w.extractLsb' 56 8, sym := w.extractLsb' 48 8, rsv := w.extractLsb' 32 16,
    imm := w.extractLsb' 0 32 }

/-- Put the fields together: `op` in bits 63:56 down to `imm` in bits 31:0 (R91). -/
def wordOfFields (f : Fields) : Word := f.op ++ (f.sym ++ (f.rsv ++ f.imm))

/-- The opcode of a command (R94). -/
def opcode : Instr → Byte
  | .nop => 0x00#8
  | .rst => 0x01#8
  | .fclr => 0x10#8
  | .facc _ => 0x11#8
  | .wsat => 0x12#8
  | .wld _ _ => 0x13#8
  | .tbuild => 0x20#8
  | .cgen => 0x21#8
  | .penc _ => 0x30#8
  | .pflush => 0x31#8
  | .ulenl _ => 0x40#8
  | .ulenh _ => 0x41#8
  | .ubyte _ => 0x42#8
  | .uend => 0x43#8

/-- The format of a command (R92, R94). -/
def formatOf : Instr → Format
  | .nop => .n
  | .rst => .n
  | .fclr => .n
  | .facc _ => .b
  | .wsat => .n
  | .wld _ _ => .si
  | .tbuild => .n
  | .cgen => .n
  | .penc _ => .b
  | .pflush => .n
  | .ulenl _ => .i
  | .ulenh _ => .i
  | .ubyte _ => .b
  | .uend => .n

/-- The fields of a command: its operands where its format carries them, 0 elsewhere (R92). -/
def fieldsOf (c : Instr) : Fields :=
  match c with
  | .facc b => { op := opcode c, sym := b, rsv := 0#16, imm := 0#32 }
  | .wld s w => { op := opcode c, sym := s, rsv := 0#16, imm := w }
  | .penc b => { op := opcode c, sym := b, rsv := 0#16, imm := 0#32 }
  | .ulenl n => { op := opcode c, sym := 0#8, rsv := 0#16, imm := n }
  | .ulenh n => { op := opcode c, sym := 0#8, rsv := 0#16, imm := n }
  | .ubyte b => { op := opcode c, sym := b, rsv := 0#16, imm := 0#32 }
  | .nop | .rst | .fclr | .wsat | .tbuild | .cgen | .pflush | .uend =>
    { op := opcode c, sym := 0#8, rsv := 0#16, imm := 0#32 }

/-- The word of a command (R91 to R94). -/
def encode (c : Instr) : Word := wordOfFields (fieldsOf c)

/-- The command that an opcode selects, its operands taken from the fields as they stand (R93,
R94); none for an unassigned opcode. -/
def commandOf (f : Fields) : Option Instr :=
  if f.op = 0x00#8 then some .nop
  else if f.op = 0x01#8 then some .rst
  else if f.op = 0x10#8 then some .fclr
  else if f.op = 0x11#8 then some (.facc f.sym)
  else if f.op = 0x12#8 then some .wsat
  else if f.op = 0x13#8 then some (.wld f.sym f.imm)
  else if f.op = 0x20#8 then some .tbuild
  else if f.op = 0x21#8 then some .cgen
  else if f.op = 0x30#8 then some (.penc f.sym)
  else if f.op = 0x31#8 then some .pflush
  else if f.op = 0x40#8 then some (.ulenl f.imm)
  else if f.op = 0x41#8 then some (.ulenh f.imm)
  else if f.op = 0x42#8 then some (.ubyte f.sym)
  else if f.op = 0x43#8 then some .uend
  else none

/-- `Decode(word)` (R95): the checks in the order of R95, then the command with its operands. -/
def decode (w : Word) : Except Illegal Instr :=
  let f := fieldsOfWord w
  match commandOf f with
  | none => .error .unassignedOp
  | some c =>
    match f.problem (formatOf c) with
    | some why => .error why
    | none => .ok c

/-- The mask of a format (R96). -/
def maskOf : Format → Word
  | .n => 0xFFFFFFFFFFFFFFFF#64
  | .b => 0xFF00FFFFFFFFFFFF#64
  | .i => 0xFFFFFFFF00000000#64
  | .si => 0xFF00FFFF00000000#64

/-- The match of a command: its opcode shifted left by 56 (R96). -/
def matchOf (c : Instr) : Word := (opcode c).setWidth 64 <<< 56

/-- The command word whose bits are `w`, of which the opcode table gives the low `nbits`; the bits
above are 0. A command is one 64-bit word, presented whole (R90, R61). -/
def tableWord (nbits w : Nat) : Word := BitVec.ofNat 64 (w % 2 ^ nbits)

/-- The command the decoder reads from a word numbered as `spec/opcode_table.json` numbers it. -/
def decodeTableWord (nbits w : Nat) : Option Instr :=
  match decode (tableWord nbits w) with
  | .ok c => some c
  | .error _ => none

end Sys2Proof
end

