-- ==== Sys2Proof/Machine/State.lean ====
section
/-!
DEFINITION. The state of one HTS instance (spec 10_state.md R20, "the complete architectural
state"), its values after reset (70_reset_and_hazards.md R280), and the ways a step can stop.
-/

namespace Sys2Proof.Machine

/-- A symbol-indexed file: 256 entries, one for each byte value (R20, R37). -/
abbrev SymFile (α : Type) := Vector α 256

/-- An entry of the node arena (R24). -/
structure Node where
  /-- leaf: the symbol's weight; placeholder: 0; internal node: the sum of its children's weights -/
  weight : Word
  /-- the child reached by bit 0, or NIL -/
  left : NodeIx
  /-- the child reached by bit 1, or NIL -/
  right : NodeIx
  /-- leaf: the byte value it stands for; 0 elsewhere -/
  sym : Byte
  /-- leaf (real symbol or placeholder) -/
  leaf : Bool
  /-- the placeholder leaf of the one-symbol tree -/
  ph : Bool
deriving DecidableEq, Repr

/-- An unused arena entry, which is also its reset value (R24). -/
def Node.fresh : Node :=
  { weight := 0#64, left := Config.nil, right := Config.nil, sym := 0#8, leaf := false, ph := false }

/-- The arena: 511 entries, indices 0..510 (R24). -/
abbrev Arena := Vector Node 511

/-- What the host can put before the block: a command word on the command port (R61), or the
hardware reset input (R280). DESIGN CHOICE: log entry 1. -/
inductive Input where
  /-- a 64-bit word on the command port -/
  | command (w : Word)
  /-- the hardware reset input -/
  | hardReset
deriving DecidableEq, Repr

/-- The architectural state (R20), and `port`, the inputs the host has yet to have accepted. -/
structure State where
  /-- `FREQ`: occurrences of each byte value (R21) -/
  freq : SymFile Word
  /-- `W`: saturated weight of each byte value (R22) -/
  w : SymFile Half
  /-- `CODE_BITS`: code pattern of each byte value, right-aligned (R23) -/
  codeBits : SymFile Word
  /-- `CODE_LEN`: code length of each byte value (R23) -/
  codeLen : SymFile CodeLen
  /-- `NODE`: the tree node arena (R24) -/
  node : Arena
  /-- `ROOT`: index of the tree root, or NIL (R27) -/
  root : NodeIx
  /-- `NSYM`: number of symbols with nonzero weight at the last `TBUILD` (R27) -/
  nsym : BitVec 9
  /-- `NNODE`: number of arena entries in use (R27) -/
  nnode : BitVec 10
  /-- `NACC`: bytes accumulated since the histogram was last cleared (R28) -/
  nacc : Word
  /-- `ACC`: the packer's accumulator (R29) -/
  acc : Byte
  /-- `NBITS`: number of valid bits in `ACC` (R29) -/
  nbits : BitVec 3
  /-- `OUT`: every byte emitted since reset, in order (R30) -/
  out : List Byte
  /-- `OUTCNT`: length of `OUT` modulo 2^64 (R30) -/
  outcnt : Word
  /-- `REMAIN`: symbols the unpacker still has to emit (R31) -/
  remain : Word
  /-- `CUR`: the unpacker's position in the tree, or NIL (R31) -/
  cur : NodeIx
  /-- `TV`: tree valid (R32) -/
  tv : Bool
  /-- `CV`: code table valid (R32) -/
  cv : Bool
  /-- `ERR`: fault code, 0 for none (R33) -/
  err : BitVec 4
  /-- `ERRINFO`: the command word that faulted (R33) -/
  errinfo : Word
  /-- the host's inputs not yet accepted, oldest first (R61, R280); the model's own field.
  DESIGN CHOICE: log entry 1 -/
  port : List Input
deriving DecidableEq, Repr

/-- The state after reset, every element at the value of R20's "reset" column (R280). The host has
presented nothing yet (log entry 1). -/
def State.reset : State :=
  { freq := Vector.replicate 256 0#64
    w := Vector.replicate 256 0#32
    codeBits := Vector.replicate 256 0#64
    codeLen := Vector.replicate 256 0#7
    node := Vector.replicate 511 Node.fresh
    root := Config.nil
    nsym := 0#9
    nnode := 0#10
    nacc := 0#64
    acc := 0#8
    nbits := 0#3
    out := []
    outcnt := 0#64
    remain := 0#64
    cur := Config.nil
    tv := false
    cv := false
    err := 0#4
    errinfo := 0#64
    port := [] }

/-- The block's own faults, the nonzero values of `ERR` (R246). Raising one gives a NEXT state. -/
inductive FaultName where
  /-- symbols are missing at the end of the bitstream; raised by `UEND` -/
  | truncatedStream
  /-- a null child, an empty tree or the placeholder; raised by `UBYTE` -/
  | corruptStream
  /-- a real leaf deeper than 64; raised by `CGEN` -/
  | codeTooLong
  /-- the word decodes to `Illegal`; raised by any word -/
  | illegalCommand
  /-- a validity flag is 0; raised by `CGEN`, `PENC`, `UBYTE` -/
  | sequenceError
  /-- the byte has no code; raised by `PENC` -/
  | noCode
deriving DecidableEq, Repr

/-- Why the model stops where the spec gives no effect. The block itself never stops: each of these
needs a state that breaks an invariant of R40, which no run from reset reaches. -/
inductive Fault where
  /-- `CGEN` or `UBYTE` reads `NODE[i]` for an `i` of 511..1023; R24 gives the arena entries
  0..510 only. Safe: the model stops. DESIGN CHOICE: log entry 3. -/
  | noSuchNode
  /-- the recursion of `CGEN` (R160) follows a path of more than 511 entries, so the arena holds a
  cycle and the recursion has no end. Safe: the model stops. DESIGN CHOICE: log entry 4. -/
  | arenaCycle
  /-- `PENC` finds a code length above 64, and `CODE_BITS` has bits 63..0 only (R23). Safe: the
  model stops. DESIGN CHOICE: log entry 5. -/
  | noSuchCodeBit
deriving DecidableEq, Repr

/-- No command of HTS is refused: the type has the one constructor the host asks for. -/
inductive Refusal where
  /-- raised by `exec` for a command without a meaning yet; none is left. Safe. -/
  | notModelled (mnemonic : String)
deriving DecidableEq, Repr

end Sys2Proof.Machine
end

