-- ==== Sys2Proof/Machine/Operands.lean ====
section
/-!
DEFINITION. Operand forms: how an operand becomes a value or a bit string (spec 30_encoding.md R93,
40_frequency.md R121, 20_memory.md R67). All values are unsigned (R10).
-/

namespace Sys2Proof.Machine

/-- `zext_64` of a 32-bit value (R10, R93). -/
def zextHalf (n : Half) : Word := n.setWidth 64

/-- `{ hi, lo[31:0] }`: bits 63:32 replaced, bits 31:0 kept (R93, R187). -/
def withHighHalf (hi : Half) (lo : Word) : Word := hi ++ lo.setWidth 32

/-- `sat32(x)`, the one saturation function (R121). -/
def sat32 (x : Word) : Half := if x ≤ Config.wmax.setWidth 64 then x.setWidth 32 else Config.wmax

/-- The low `n` bits of a value, most significant of them first: bit `n-1` down to bit 0 (R67, R100). -/
def bitsDown {k : Nat} (v : BitVec k) : Nat → List Bool
  | 0 => []
  | n + 1 => v.getLsbD n :: bitsDown v n

/-- The bits of a byte in stream order: bit 7 first (R67). -/
def byteBits (b : Byte) : List Bool := bitsDown b 8

/-- A bit as the low bit of a byte. -/
def bitByte (x : Bool) : Byte := if x then 1#8 else 0#8

/-- A bit as the low bit of a pattern. -/
def bitWord (x : Bool) : Word := if x then 1#64 else 0#64

/-- The value of a bit string, first bit most significant, in 64 bits: what shift-left-and-or
appending gives (R23, R160). -/
def patternOf (bits : List Bool) : Word := bits.foldl (fun p x => (p <<< 1) ||| bitWord x) 0#64

end Sys2Proof.Machine
end

