-- ==== Sys2Proof/Machine/Ops.lean ====
section
/-!
DEFINITION. The named operations that the commands share: reading and writing the symbol files and
the arena, emitting a byte, taking a fault and the only way out of it, and the preamble every
command goes through (spec 00_scope.md R11, 10_state.md R30, 60_exceptions.md R250 to R255).
-/

namespace Sys2Proof.Machine

/-- Why a command does not complete: it raises a fault of the block, or the model stops. -/
inductive Stop where
  /-- `raise <Fault>` (R11) -/
  | raise (f : FaultName)
  /-- the model's own stop -/
  | stuck (f : Fault)
deriving DecidableEq, Repr

/-- `FILE[s]` (R11). -/
def readSym {α : Type} (f : SymFile α) (s : Byte) : α := f[s.toNat]'s.isLt

/-- `FILE[s] <- v` (R11). -/
def writeSym {α : Type} (f : SymFile α) (s : Byte) (v : α) : SymFile α := f.set s.toNat v s.isLt

/-- All 256 entries of a file from those of another. -/
def mapSym {α β : Type} (g : α → β) (f : SymFile α) : SymFile β :=
  ⟨⟨f.toList.map g⟩, by simp⟩

/-- All 256 entries equal. -/
def fillSym {α : Type} (v : α) : SymFile α := Vector.replicate 256 v

/-- `NODE[i]` (R11); there is an entry for 0..510 only (R24). -/
def nodeAt (a : Arena) (i : NodeIx) : Except Stop Node :=
  if h : i.toNat < 511 then .ok (a[i.toNat]'h) else .error (.stuck .noSuchNode)

/-- The child that a bit selects: 0 left, 1 right (R24). -/
def childOf (n : Node) (x : Bool) : NodeIx := if x then n.right else n.left

/-- `Emit(b)`: append to `OUT`, count modulo 2^64 (R30). -/
def emit (b : Byte) (s : State) : State :=
  { s with out := s.out ++ [b], outcnt := s.outcnt + 1#64 }

/-- `Emit` of each byte of a list, in order (R188). -/
def emitAll : List Byte → State → State
  | [], s => s
  | b :: bs, s => emitAll bs (emit b s)

/-- The value `ERR` takes for a fault (R246). -/
def faultCode : FaultName → BitVec 4
  | .truncatedStream => 1#4
  | .corruptStream => 2#4
  | .codeTooLong => 3#4
  | .illegalCommand => 4#4
  | .sequenceError => 5#4
  | .noCode => 6#4

/-- Taking a fault, the block's only exception: `ERR` gets the code, `ERRINFO` the faulting word,
all else stays as before the command; there is no handler, vector or mode (R250, R251). -/
def raiseFault (f : FaultName) (word : Word) (s : State) : State :=
  { s with err := faultCode f, errinfo := word }

/-- Reset, the only way out of the faulted state: every element of R20 to its reset value
(R206, R255, R280). The host's pending inputs are not the block's and stay. -/
def resetBlock (s : State) : State := { State.reset with port := s.port }

/-- How a command ends: all its assignments together, or a fault with none of them (R250). -/
def finish (c : Instr) (s : State) : Except Stop State → Host.Outcome State Fault Refusal
  | .ok t => .next t
  | .error (.raise f) => .next (raiseFault f (encode c) s)
  | .error (.stuck f) => .fault f

/-- The preamble of every command but `RST`: ignored while `ERR` is not 0 (R252, R253 item 1). -/
def command (c : Instr) (s : State) (body : Except Stop State) : Host.Outcome State Fault Refusal :=
  if s.err = 0#4 then finish c s body else .next s

/-- Executing a word that decodes to `Illegal`: `IllegalCommand`, unless the block is faulted and
ignores the word (R247, R252, R253 item 2). -/
def illegalWord (word : Word) (s : State) : State :=
  if s.err = 0#4 then raiseFault .illegalCommand word s else s

end Sys2Proof.Machine
end

