-- ==== Sys2Proof/Machine/Flags.lean ====
section
/-!
DEFINITION. The flags: the validity flags `TV` and `CV`, who clears and requires them, and the
`STATUS` word (spec 10_state.md R32, R34, 60_exceptions.md R248).
-/

namespace Sys2Proof.Machine

/-- A write to `W` makes the tree and the codes stale (R32, R124, R125). -/
def clearValid (s : State) : State := { s with tv := false, cv := false }

/-- `SequenceError` when the tree is not valid (R248). -/
def requireTree (s : State) (body : Except Stop State) : Except Stop State :=
  if s.tv then body else .error (.raise .sequenceError)

/-- `SequenceError` when the code table is not valid (R248). -/
def requireCodes (s : State) (body : Except Stop State) : Except Stop State :=
  if s.cv then body else .error (.raise .sequenceError)

/-- `TE`, "tree empty" (R34 bit 5). -/
def treeEmpty (s : State) : Bool := s.tv && s.nsym == 0#9

/-- `PP`, "pack pending" (R34 bit 7). -/
def packPending (s : State) : Bool := s.nbits != 0#3

/-- `UD`, "unpack done" (R34 bit 8). -/
def unpackDone (s : State) : Bool := s.remain == 0#64

/-- `STATUS` (R34): bits 3:0 `ERR`, 4 `TV`, 5 `TE`, 6 `CV`, 7 `PP`, 8 `UD`, 63:9 zero. -/
def statusWord (s : State) : Word :=
  0#55 ++ (BitVec.ofBool (unpackDone s) ++ (BitVec.ofBool (packPending s) ++
    (BitVec.ofBool s.cv ++ (BitVec.ofBool (treeEmpty s) ++ (BitVec.ofBool s.tv ++ s.err)))))

end Sys2Proof.Machine
end

