-- ==== Sys2Proof/Machine/CodeTable.lean ====
section
/-!
DEFINITION. The code-table generator command `CGEN` (spec 42_codetable.md R160 to R164).
-/

namespace Sys2Proof.Machine

/-- The local tables `bits` and `len` of `CGEN` (R160). -/
structure CodeTable where
  /-- the pattern of each symbol -/
  bits : SymFile Word
  /-- the length of each symbol's code -/
  len : SymFile CodeLen
deriving DecidableEq, Repr

/-- The table with no code for any symbol (R160). -/
def emptyCodes : CodeTable := { bits := fillSym 0#64, len := fillSym 0#7 }

/-- Record a symbol's pattern and length (R160). -/
def setCode (t : CodeTable) (s : Byte) (p : Word) (d : Nat) : CodeTable :=
  { bits := writeSym t.bits s p, len := writeSym t.len s (BitVec.ofNat 7 d) }

/-- `visit(i, p, d)` (R160): the placeholder writes nothing (R162), a real leaf deeper than 64 raises
`CodeTooLong` (R163), a left edge appends 0 and a right edge 1. A path of distinct arena entries
has at most 511 of them, so `fuel` 511 runs out only on a cycle. -/
def visit (a : Arena) : Nat → NodeIx → Word → Nat → CodeTable → Except Stop CodeTable
  | 0, _, _, _, _ => .error (.stuck .arenaCycle)
  | fuel + 1, i, p, d, t =>
    match nodeAt a i with
    | .error e => .error e
    | .ok n =>
      if n.leaf then
        if n.ph then .ok t
        else if d > Config.maxLen then .error (.raise .codeTooLong)
        else .ok (setCode t n.sym p d)
      else
        match visit a fuel n.left (p <<< 1) (d + 1) t with
        | .error e => .error e
        | .ok t' => visit a fuel n.right ((p <<< 1) ||| 1#64) (d + 1) t'

/-- The code table of a tree; the empty tree has none of the codes (R160). -/
def codesOf (a : Arena) (root : NodeIx) : Except Stop CodeTable :=
  if root = Config.nil then .ok emptyCodes else visit a Config.arena root 0#64 0 emptyCodes

/-- Put a code table into the state, with `CV` 1 (R160). -/
def installCodes (t : CodeTable) (s : State) : State :=
  { s with codeBits := t.bits, codeLen := t.len, cv := true }

/-- `CGEN` (R160). -/
def execCgen (s : State) : Host.Outcome State Fault Refusal :=
  command .cgen s
    (requireTree s
      (match codesOf s.node s.root with
        | .error e => .error e
        | .ok t => .ok (installCodes t s)))

end Sys2Proof.Machine
end

