-- ==== Sys2Proof/Machine/Control.lean ====
section
/-!
DEFINITION. The control commands `NOP` and `RST` (spec 45_control.md R205, R206).
-/

namespace Sys2Proof.Machine

/-- `NOP` (R205). -/
def execNop (s : State) : Host.Outcome State Fault Refusal := command .nop s (.ok s)

/-- `RST` (R206): executed whether or not the block is faulted (R252). -/
def execRst (s : State) : Host.Outcome State Fault Refusal := .next (resetBlock s)

end Sys2Proof.Machine
end

