-- ==== Sys2Proof/Machine/Frequency.lean ====
section
/-!
DEFINITION. The frequency accumulator and weight commands `FCLR`, `FACC`, `WSAT`, `WLD`
(spec 40_frequency.md R120 to R125).
-/

namespace Sys2Proof.Machine

/-- `FCLR` (R122); `TV` and `CV` stay, since `W` does. -/
def execFclr (s : State) : Host.Outcome State Fault Refusal :=
  command .fclr s (.ok { s with freq := fillSym 0#64, nacc := 0#64 })

/-- `FACC b` (R123); both counts wrap modulo 2^64 (R120). -/
def execFacc (b : Byte) (s : State) : Host.Outcome State Fault Refusal :=
  command (.facc b) s
    (.ok { s with freq := writeSym s.freq b (readSym s.freq b + 1#64), nacc := s.nacc + 1#64 })

/-- `WSAT` (R124). -/
def execWsat (s : State) : Host.Outcome State Fault Refusal :=
  command .wsat s (.ok (clearValid { s with w := mapSym sat32 s.freq }))

/-- `WLD s, w` (R125). -/
def execWld (sym : Byte) (w : Half) (s : State) : Host.Outcome State Fault Refusal :=
  command (.wld sym w) s (.ok (clearValid { s with w := writeSym s.w sym w }))

end Sys2Proof.Machine
end

