-- ==== Sys2Proof/Machine/Packer.lean ====
section
/-!
DEFINITION. The bit-packer commands `PENC` and `PFLUSH` (spec 43_bitpacker.md R170 to R172).
-/

namespace Sys2Proof.Machine

/-- `AppendBit(x)` (R172): the bit enters `ACC` at the low end; the eighth bit emits the byte. -/
def appendBit (x : Bool) (s : State) : State :=
  let a := (s.acc <<< 1) ||| bitByte x
  if s.nbits.toNat + 1 = 8 then emit a { s with acc := 0#8, nbits := 0#3 }
  else { s with acc := a, nbits := s.nbits + 1#3 }

/-- `AppendBit` of each bit of a list, in order (R170). -/
def appendBits : List Bool → State → State
  | [], s => s
  | x :: xs, s => appendBits xs (appendBit x s)

/-- The bits of a byte's code: bit L-1 of the pattern first (R170, R100). -/
def codeOf (s : State) (b : Byte) : List Bool := bitsDown (readSym s.codeBits b) (readSym s.codeLen b).toNat

/-- What `PENC` does once the code table is valid (R170). -/
def encodeByte (b : Byte) (s : State) : Except Stop State :=
  if readSym s.codeLen b = 0#7 then .error (.raise .noCode)
  else if (readSym s.codeLen b).toNat > Config.maxLen then .error (.stuck .noSuchCodeBit)
  else .ok (appendBits (codeOf s b) s)

/-- `PENC b` (R170). -/
def execPenc (b : Byte) (s : State) : Host.Outcome State Fault Refusal :=
  command (.penc b) s (requireCodes s (encodeByte b s))

/-- What `PFLUSH` does (R171). -/
def flushPacker (s : State) : State :=
  if s.nbits = 0#3 then s
  else emit (s.acc <<< (8 - s.nbits.toNat)) { s with acc := 0#8, nbits := 0#3 }

/-- `PFLUSH` (R171). -/
def execPflush (s : State) : Host.Outcome State Fault Refusal :=
  command .pflush s (.ok (flushPacker s))

end Sys2Proof.Machine
end

