-- ==== Sys2Proof/Machine/Tree.lean ====
section
/-!
DEFINITION. The tree synthesizer command `TBUILD` (spec 41_tree.md R140 to R149). The pending set of
R143 is a list; its organisation is not architectural, the order of removal of R144 is (R38).
-/

namespace Sys2Proof.Machine

/-- A member of the pending set: a node's index and that node's weight. -/
structure Pending where
  /-- the node's weight -/
  weight : Word
  /-- the node's arena index -/
  ix : NodeIx
deriving DecidableEq, Repr

/-- `less(i, j)`: by weight, then by index, both unsigned (R144). -/
def less (a b : Pending) : Bool :=
  decide (a.weight < b.weight) || (decide (a.weight = b.weight) && decide (a.ix < b.ix))

/-- The element of the pending set least under `less`, and the set without it (R143). -/
def removeLeast : List Pending → Option (Pending × List Pending)
  | [] => none
  | x :: xs =>
    match removeLeast xs with
    | none => some (x, [])
    | some (m, rest) => if less m x then some (m, x :: rest) else some (x, xs)

/-- An arena index as the 10 bits a node holds (R24). -/
def ixOf (n : Nat) : NodeIx := BitVec.ofNat 10 n

/-- The leaf of a symbol with weight `w` (R142). -/
def leafNode (s : Byte) (w : Half) : Node :=
  { weight := zextHalf w, left := Config.nil, right := Config.nil, sym := s, leaf := true, ph := false }

/-- The placeholder of the one-symbol tree (R146). -/
def placeholderNode : Node :=
  { weight := 0#64, left := Config.nil, right := Config.nil, sym := 0#8, leaf := true, ph := true }

/-- The node that joins two pending nodes: the first removed is the left child (R145). -/
def joinNode (a b : Pending) : Node :=
  { weight := a.weight + b.weight, left := a.ix, right := b.ix, sym := 0#8, leaf := false, ph := false }

/-- The byte values in ascending order (R142). -/
def allSyms : List Byte := (List.range Config.nsyms).map (BitVec.ofNat 8)

/-- One leaf per symbol with nonzero weight, in ascending order of symbol (R142). -/
def leavesOf (w : SymFile Half) : List Node :=
  allSyms.filterMap fun s =>
    if readSym w s = 0#32 then none else some (leafNode s (readSym w s))

/-- The pending set of the nodes that stand in the arena from index `n` on (R141). -/
def pendingFrom : Nat → List Node → List Pending
  | _, [] => []
  | n, d :: ds => { weight := d.weight, ix := ixOf n } :: pendingFrom (n + 1) ds

/-- The merge loop (R143): while more than one node is pending, remove the least two and add the
node that joins them at the next free index `n`. Answers the nodes created, in order, and what is
left pending. Each round lowers the number pending by one, so `fuel` = the number pending is enough. -/
def mergeLoop : Nat → List Pending → Nat → List Node × List Pending
  | 0, p, _ => ([], p)
  | fuel + 1, p, n =>
    match removeLeast p with
    | none => ([], p)
    | some (a, p1) =>
      match removeLeast p1 with
      | none => ([], p)
      | some (b, p2) =>
        let d := joinNode a b
        let r := mergeLoop fuel (p2 ++ [{ weight := d.weight, ix := ixOf n }]) (n + 1)
        (d :: r.1, r.2)

/-- The arena that holds the given nodes from index 0 on, every other entry unused (R24, R141). -/
def arenaOf (nodes : List Node) : Arena :=
  ⟨⟨(nodes ++ List.replicate Config.arena Node.fresh).take Config.arena⟩, by simp⟩

/-- What `TBUILD` writes into the arena and its three registers (R27). -/
structure Tree where
  /-- `NODE` -/
  node : Arena
  /-- `ROOT` -/
  root : NodeIx
  /-- `NSYM` -/
  nsym : BitVec 9
  /-- `NNODE` -/
  nnode : BitVec 10
deriving DecidableEq, Repr

/-- The tree of a list of nodes, with its root. -/
def treeOf (nodes : List Node) (root : NodeIx) (nsym : Nat) : Tree :=
  { node := arenaOf nodes, root := root, nsym := BitVec.ofNat 9 nsym,
    nnode := BitVec.ofNat 10 nodes.length }

/-- The one element of the pending set after the merge loop (R141). -/
def rootOf : List Pending → NodeIx
  | [a] => a.ix
  | _ => Config.nil

/-- The tree of the given leaves: R147 for none, R146 for one, the merge loop for more (R143). -/
def treeOfLeaves (leaves : List Node) : Tree :=
  match leaves with
  | [] => treeOf [] Config.nil 0
  | [l] =>
    let top := joinNode { weight := l.weight, ix := ixOf 0 } { weight := 0#64, ix := ixOf 1 }
    treeOf [l, placeholderNode, top] (ixOf 2) 1
  | _ =>
    let r := mergeLoop leaves.length (pendingFrom 0 leaves) leaves.length
    treeOf (leaves ++ r.1) (rootOf r.2) leaves.length

/-- The tree `TBUILD` builds, a function of `W` alone (R141, R144, R149). -/
def buildTree (w : SymFile Half) : Tree := treeOfLeaves (leavesOf w)

/-- Put a tree into the state, with the unpacker's cursor on its root, `TV` 1 and `CV` 0 (R141). -/
def installTree (t : Tree) (s : State) : State :=
  { s with node := t.node, root := t.root, nsym := t.nsym, nnode := t.nnode, cur := t.root,
           tv := true, cv := false }

/-- `TBUILD` (R141). -/
def execTbuild (s : State) : Host.Outcome State Fault Refusal :=
  command .tbuild s (.ok (installTree (buildTree s.w) s))

end Sys2Proof.Machine
end

