-- ==== Sys2Proof/Machine/Unpacker.lean ====
section
/-!
DEFINITION. The bit-unpacker commands `ULENL`, `ULENH`, `UBYTE`, `UEND` (spec 44_unpacker.md R185 to
R191).
-/

namespace Sys2Proof.Machine

/-- Declare the count and put the walk at the root (R186, R187). -/
def declareCount (n : Word) (s : State) : State := { s with remain := n, cur := s.root }

/-- `ULENL n` (R186). -/
def execUlenl (n : Half) (s : State) : Host.Outcome State Fault Refusal :=
  command (.ulenl n) s (.ok (declareCount (zextHalf n) s))

/-- `ULENH n` (R187). -/
def execUlenh (n : Half) (s : State) : Host.Outcome State Fault Refusal :=
  command (.ulenh n) s (.ok (declareCount (withHighHalf n s.remain) s))

/-- The locals of `UBYTE` (R188). -/
structure Walk where
  /-- the node the walk stands on -/
  cur : NodeIx
  /-- the symbols still to be emitted -/
  rem : Word
  /-- the symbols completed by this command, in order -/
  emitted : List Byte
deriving DecidableEq, Repr

/-- The walk reaches node `c`, which is `m` (R188): a real leaf completes a symbol, the placeholder is
no symbol (R190 b), an internal node is where the next bit starts. -/
def arrive (root c : NodeIx) (m : Node) (k : Walk) : Except Stop Walk :=
  if m.leaf then
    if m.ph then .error (.raise .corruptStream)
    else .ok { cur := root, rem := k.rem - 1#64, emitted := k.emitted ++ [m.sym] }
  else .ok { k with cur := c }

/-- One bit of the walk (R188): the checks within one bit are empty tree, null child, placeholder
(R190, R253 item 4). -/
def walkBit (a : Arena) (root : NodeIx) (x : Bool) (k : Walk) : Except Stop Walk :=
  if k.cur = Config.nil then .error (.raise .corruptStream)
  else
    match nodeAt a k.cur with
    | .error e => .error e
    | .ok n =>
      if childOf n x = Config.nil then .error (.raise .corruptStream)
      else
        match nodeAt a (childOf n x) with
        | .error e => .error e
        | .ok m => arrive root (childOf n x) m k

/-- The walk over a list of bits; it stops as soon as no symbol is owed (R188, R191). -/
def walkBits (a : Arena) (root : NodeIx) : List Bool → Walk → Except Stop Walk
  | [], k => .ok k
  | x :: xs, k =>
    if k.rem = 0#64 then .ok k
    else
      match walkBit a root x k with
      | .error e => .error e
      | .ok k' => walkBits a root xs k'

/-- What `UBYTE` does once the tree is valid (R188). -/
def decodeByte (b : Byte) (s : State) : Except Stop State :=
  match walkBits s.node s.root (byteBits b) { cur := s.cur, rem := s.remain, emitted := [] } with
  | .error e => .error e
  | .ok k => .ok (emitAll k.emitted { s with cur := k.cur, remain := k.rem })

/-- `UBYTE b` (R188). -/
def execUbyte (b : Byte) (s : State) : Host.Outcome State Fault Refusal :=
  command (.ubyte b) s (requireTree s (decodeByte b s))

/-- `UEND` (R189). -/
def execUend (s : State) : Host.Outcome State Fault Refusal :=
  command .uend s (if s.remain = 0#64 then .ok s else .error (.raise .truncatedStream))

end Sys2Proof.Machine
end

