-- ==== Sys2Proof/Machine/Dispatch.lean ====
section
/-!
DEFINITION. One arm per command (spec 30_encoding.md R94), each a call of its meaning.
-/

namespace Sys2Proof.Machine

def exec (i : Instr) (s : State) : Host.Outcome State Fault Refusal :=
  match i with
  | .nop => Sys2Proof.Machine.execNop s
  | .rst => Sys2Proof.Machine.execRst s
  | .fclr => Sys2Proof.Machine.execFclr s
  | .facc b => Sys2Proof.Machine.execFacc b s
  | .wsat => Sys2Proof.Machine.execWsat s
  | .wld sym w => Sys2Proof.Machine.execWld sym w s
  | .tbuild => Sys2Proof.Machine.execTbuild s
  | .cgen => Sys2Proof.Machine.execCgen s
  | .penc b => Sys2Proof.Machine.execPenc b s
  | .pflush => Sys2Proof.Machine.execPflush s
  | .ulenl n => Sys2Proof.Machine.execUlenl n s
  | .ulenh n => Sys2Proof.Machine.execUlenh n s
  | .ubyte b => Sys2Proof.Machine.execUbyte b s
  | .uend => Sys2Proof.Machine.execUend s

end Sys2Proof.Machine
end

