-- ==== Sys2Proof/Machine/Port.lean ====
section
/-!
DEFINITION. The command port and the hardware reset input (spec 20_memory.md R61,
70_reset_and_hazards.md R280). The block fetches nothing (10_state.md R36): the host's inputs stand
in `State.port` in the order the host presents them. DESIGN CHOICE: log entry 1.
-/

namespace Sys2Proof.Machine

/-- Accept the next input, if the host has presented one: words are accepted in order, one at a
time, none dropped or repeated (R61). -/
def takeInput (s : State) : Option (Input × State) :=
  match s.port with
  | [] => none
  | x :: xs => some (x, { s with port := xs })

/-- Present an input to be accepted next. -/
def presentFirst (x : Input) (s : State) : State := { s with port := x :: s.port }

/-- Present command words to be accepted after what is already presented, in order. -/
def presentLast (ws : List Word) (s : State) : State :=
  { s with port := s.port ++ ws.map Input.command }

end Sys2Proof.Machine
end

