-- ==== Sys2Proof/Machine/Step.lean ====
section
/-!
DEFINITION. One step: the block accepts the next input and runs it to completion (spec 20_memory.md
R61, R70, R72; 60_exceptions.md R253); with no input it "does nothing and keeps its state" (R262).
-/

namespace Sys2Proof.Machine

/-- One step (R61, R70). -/
def step (s : State) : Host.Outcome State Fault Refusal :=
  match takeInput s with
  | none => .next s
  | some (.hardReset, t) => .next (resetBlock t)
  | some (.command word, t) =>
    match decode word with
    | .ok c => exec c t
    | .error _ => .next (illegalWord word t)

/-- The state with a command word presented to be accepted by the very next step; `nbits` and `w`
number the word's bits as `spec/opcode_table.json` does. -/
def State.withFetchWord (s : State) (nbits w : Nat) : State :=
  presentFirst (.command (tableWord nbits w)) s

end Sys2Proof.Machine
end

