-- ==== Sys2Proof/Machine/ReadPort.lean ====
section
/-!
DEFINITION. The read port: `RegRead(a)`, a side-effect-free view of the state between two commands
(spec 20_memory.md R62 to R65, 10_state.md R34, R35). It never faults, whatever `ERR` is (R65).
-/

namespace Sys2Proof.Machine

/-- The link word `NODE_L[i]` (R64): bits 9:0 left, 19:10 right, 27:20 sym, 28 leaf, 29 ph. -/
def linkWord (n : Node) : Word :=
  0#34 ++ (BitVec.ofBool n.ph ++ (BitVec.ofBool n.leaf ++ (n.sym ++ (n.right ++ n.left))))

/-- The word `PACK` (R63, address 0x007): bits 7:0 `ACC`, bits 10:8 `NBITS`. -/
def packWord (s : State) : Word := 0#53 ++ (s.nbits ++ s.acc)

/-- The registers 0x000 to 0x00A; 0 at 0x00B to 0x0FF (R63). -/
def regReadLow (a : Nat) (s : State) : Word :=
  match a with
  | 0x000 => Config.ident
  | 0x001 => statusWord s
  | 0x002 => s.errinfo
  | 0x003 => s.nacc
  | 0x004 => s.nsym.setWidth 64
  | 0x005 => s.nnode.setWidth 64
  | 0x006 => s.root.setWidth 64
  | 0x007 => packWord s
  | 0x008 => s.outcnt
  | 0x009 => s.remain
  | 0x00A => s.cur.setWidth 64
  | _ => 0#64

/-- The arena view at offset `i`: 0 where there is no entry (R63: 0x9FF, 0xBFF reserved). -/
def arenaRead (a : Arena) (view : Node → Word) (i : Nat) : Word :=
  if h : i < 511 then view (a[i]'h) else 0#64

/-- `RegRead(a)` (R62, R63); a reserved address reads 0 (R65). -/
def regRead (a : ReadAddr) (s : State) : Word :=
  let n := a.toNat
  let x : Byte := a.setWidth 8
  if n < 0x100 then regReadLow n s
  else if n < 0x200 then readSym s.freq x
  else if n < 0x300 then (readSym s.w x).setWidth 64
  else if n < 0x400 then readSym s.codeBits x
  else if n < 0x500 then (readSym s.codeLen x).setWidth 64
  else if n < 0x800 then 0#64
  else if n < 0xA00 then arenaRead s.node Node.weight (n - 0x800)
  else if n < 0xC00 then arenaRead s.node linkWord (n - 0xA00)
  else 0#64

end Sys2Proof.Machine
end

