-- ==== Sys2Proof/Machine/HostSequences.lean ====
section
/-!
DEFINITION. The host's side of the contract: the pseudo-instructions `ULEN`, `H.COMPRESS` and
`H.DECOMPRESS` and the HF2 container (spec 30_encoding.md R99, 46_host_sequences.md R215 to R228).
All of it lies outside the block (00_scope.md R5): nothing here is used by `step`.
-/

namespace Sys2Proof.Machine

/-- The errors of the host sequences (R223, R258), none of which `ERR` ever holds but the two stream
errors, and two of the model's own: a block fault that the sequence cannot meet (R222), and a step
that the model stops. -/
inductive HostError where
  /-- the buffer is shorter than the fixed part (R218) -/
  | truncatedHeader
  /-- the tag is not 'H','F','2' (R218) -/
  | badMagic
  /-- the method id is not 1 (R218) -/
  | unsupportedMethod
  /-- the block's fault 1 (R221) -/
  | truncatedStream
  /-- the block's fault 2 (R221) -/
  | corruptStream
  /-- the container is not strictly smaller than the input (R224) -/
  | notReducible
  /-- another fault code of the block (R220 "internal error", R222) -/
  | internalError (code : BitVec 4)
  /-- the model stopped -/
  | blockStopped
deriving DecidableEq, Repr

/-- The steps that run every input already presented (R61). -/
def runPort : Nat → State → Host.Outcome State Fault Refusal
  | 0, s => .next s
  | n + 1, s =>
    match step s with
    | .next t => runPort n t
    | .fault f => .fault f
    | .refused r => .refused r

/-- Issue commands in order and run each to completion (R61, R72). -/
def issue (cs : List Instr) (s : State) : Host.Outcome State Fault Refusal :=
  let t := presentLast (cs.map encode) s
  runPort t.port.length t

/-- `ULEN n` (R99): `ULENL n[31:0]` then `ULENH n[63:32]`. -/
def ulen (n : Word) : List Instr := [.ulenl (n.setWidth 32), .ulenh (n.extractLsb' 32 32)]

/-- The commands of `H.COMPRESS` (R220). -/
def compressCommands (input : List Byte) : List Instr :=
  [.rst] ++ input.map Instr.facc ++ [.wsat, .tbuild, .cgen] ++ input.map Instr.penc ++ [.pflush]

/-- The commands of `H.DECOMPRESS` (R221). -/
def decompressCommands (length : Word) (weights : SymFile Half) (stream : List Byte) : List Instr :=
  [.rst] ++ ((List.range Config.nsyms).map fun s =>
      Instr.wld (BitVec.ofNat 8 s) (readSym weights (BitVec.ofNat 8 s)))
    ++ [.tbuild] ++ ulen length ++ stream.map Instr.ubyte ++ [.uend]

/-- `n` bytes of a value, least significant first (R216). -/
def littleEndian {k : Nat} (v : BitVec k) (n : Nat) : List Byte :=
  (List.range n).map fun i => v.extractLsb' (8 * i) 8

/-- The number that bytes hold, least significant first (R216). -/
def ofLittleEndian : List Byte → Nat
  | [] => 0
  | b :: bs => b.toNat + 256 * ofLittleEndian bs

/-- The tag and the method id (R216). -/
def containerHead : List Byte := [0x48#8, 0x46#8, 0x32#8, 0x01#8]

/-- The length of the container's fixed part (R215, R216). -/
def fixedLength : Nat := 1036

/-- Serialize (R217): tag, method id, `NACC`, the 256 weights, the packed bitstream. -/
def serialize (s : State) : List Byte :=
  containerHead ++ littleEndian s.nacc 8
    ++ (s.w.toList.flatMap fun w => littleEndian w 4) ++ s.out

/-- What the parse of a container yields (R218, R221). -/
structure Container where
  /-- the original length L -/
  length : Word
  /-- the 256 counts -/
  weights : SymFile Half
  /-- the packed bitstream -/
  stream : List Byte
deriving DecidableEq, Repr

/-- The 32-bit count of a symbol in a container (R216). -/
def countAt (c : List Byte) (s : Nat) : Half :=
  BitVec.ofNat 32 (ofLittleEndian ((c.drop (12 + 4 * s)).take 4))

/-- Parse (R218): length, then tag, then method id (90_conflicts.md C3, decision D34). -/
def parse (c : List Byte) : Except HostError Container :=
  if c.length < fixedLength then .error .truncatedHeader
  else if c.take 3 ≠ containerHead.take 3 then .error .badMagic
  else if (c.drop 3).take 1 ≠ containerHead.drop 3 then .error .unsupportedMethod
  else .ok
    { length := BitVec.ofNat 64 (ofLittleEndian ((c.drop 4).take 8))
      weights := ⟨⟨(List.range Config.nsyms).map (countAt c)⟩, by simp⟩
      stream := c.drop fixedLength }

/-- The fault code the host reads at address 0x001, bits 3:0 (R220, R221, R254). -/
def readErr (s : State) : BitVec 4 := (regRead 0x001#12 s).setWidth 4

/-- How a call ends for the host: what it returns or raises, and the block it leaves. -/
structure CallEnd where
  /-- the bytes returned, or the error reported -/
  result : Except HostError (List Byte)
  /-- the block after the call -/
  block : State
deriving DecidableEq, Repr

/-- After a fault: issue `RST`, report the error, retry nothing (R228). The bytes of `OUT` are discarded
with it (R227). -/
def resetAndReport (e : HostError) (s : State) : CallEnd :=
  match issue [.rst] s with
  | .next t => { result := .error e, block := t }
  | _ => { result := .error .blockStopped, block := s }

/-- One call on an instance in state `s`: issue the commands, read the fault code, and on a fault reset
and report it, else take the result from the block (R220, R221, R227, R228). -/
def runCall (cs : List Instr) (report : BitVec 4 → HostError)
    (value : State → Except HostError (List Byte)) (s : State) : CallEnd :=
  match issue cs s with
  | .next t =>
    if readErr t = 0#4 then { result := value t, block := t }
    else resetAndReport (report (readErr t)) t
  | _ => { result := .error .blockStopped, block := s }

/-- The container of a finished compression, unless AutoSafe rejects it (R220, R224). -/
def containerOf (input : List Byte) (rejectIfNotSmaller : Bool) (s : State) : Except HostError (List Byte) :=
  if rejectIfNotSmaller = true ∧ (serialize s).length ≥ input.length then .error .notReducible
  else .ok (serialize s)

/-- The error a decompression reports for a fault code (R221, R222). -/
def streamError (code : BitVec 4) : HostError :=
  if code = 1#4 then .truncatedStream
  else if code = 2#4 then .corruptStream
  else .internalError code

/-- `H.COMPRESS B, autosafe` on an instance in state `s` (R220); `rejectIfNotSmaller` is `autosafe`
= true (R219, R224). -/
def compress (input : List Byte) (rejectIfNotSmaller : Bool) (s : State) : CallEnd :=
  runCall (compressCommands input) .internalError (containerOf input rejectIfNotSmaller) s

/-- `H.DECOMPRESS C` on an instance in state `s` (R221). A parse error and a declared length of 0 issue
no command. -/
def decompress (c : List Byte) (s : State) : CallEnd :=
  match parse c with
  | .error e => { result := .error e, block := s }
  | .ok k =>
    if k.length = 0#64 then { result := .ok [], block := s }
    else runCall (decompressCommands k.length k.weights k.stream) streamError (fun t => .ok t.out) s

end Sys2Proof.Machine
end

