-- ==== Sys2Proof/Safety.lean ====
section
/-!
DEFINITION. The terms in which the statements speak of the machine: what holds between commands
(spec 10_state.md R40), paths in the tree (R23, 30_encoding.md R101), the pending nodes of the merge
(41_tree.md R143, R144) and the bits the packer has been given (20_memory.md R67).
-/

namespace Sys2Proof.Machine

/-! ## The invariants between commands (R40) -/

/-- R40 item 1: `ACC` < 2^`NBITS`; `NBITS` ≤ 7 holds by its width. -/
abbrev PackerFits (s : State) : Prop := s.acc.toNat < 2 ^ s.nbits.toNat

/-- R40 item 2: `CV` = 1 implies `TV` = 1. -/
abbrev FlagsAgree (s : State) : Prop := s.cv = true → s.tv = true

/-- R40 item 3 and R27: `NNODE` and `ROOT` follow from `NSYM`, which is at most 256. -/
abbrev CountsAgree (s : State) : Prop :=
  s.nsym.toNat ≤ 256 ∧
  (s.nsym.toNat = 0 → s.nnode.toNat = 0 ∧ s.root = Config.nil) ∧
  (s.nsym.toNat = 1 → s.nnode.toNat = 3 ∧ s.root.toNat = 2) ∧
  (2 ≤ s.nsym.toNat →
    s.nnode.toNat = 2 * s.nsym.toNat - 1 ∧ s.root.toNat = s.nnode.toNat - 1)

/-- R40 item 4: an internal node's children come before it; a leaf has none. -/
abbrev ChildrenComeFirst (s : State) : Prop :=
  ∀ i : Fin 511, i.val < s.nnode.toNat →
    (s.node[i.val].leaf = false →
      s.node[i.val].left.toNat < i.val ∧ s.node[i.val].right.toNat < i.val) ∧
    (s.node[i.val].leaf = true →
      s.node[i.val].left = Config.nil ∧ s.node[i.val].right = Config.nil)

/-- R40 item 4: "the root is never a leaf". -/
abbrev RootIsInternal (s : State) : Prop :=
  s.nsym.toNat ≠ 0 →
    ∃ i : Fin 511, s.root.toNat = i.val ∧ i.val < s.nnode.toNat ∧ s.node[i.val].leaf = false

/-- R24: an entry with index ≥ `NNODE` holds the reset value. -/
abbrev UnusedAreFresh (s : State) : Prop :=
  ∀ i : Fin 511, s.nnode.toNat ≤ i.val → s.node[i.val] = Node.fresh

/-- R40 item 5: every node weighs less than 2^40. -/
abbrev WeightsFit (s : State) : Prop :=
  ∀ i : Fin 511, s.node[i.val].weight.toNat < 2 ^ 40

/-- R32: `TV` = 1 says that the arena and its registers are the result of a `TBUILD` on `W`. -/
abbrev TreeIsOfWeights (s : State) : Prop :=
  s.tv = true →
    ({ node := s.node, root := s.root, nsym := s.nsym, nnode := s.nnode } : Tree) = buildTree s.w

/-- R40 item 7: the cursor is on the root or on an internal node of the tree. -/
abbrev CursorOnTree (s : State) : Prop :=
  s.tv = true →
    s.cur = s.root ∨
    ∃ i : Fin 511, s.cur.toNat = i.val ∧ i.val < s.nnode.toNat ∧ s.node[i.val].leaf = false

/-- R32: `CV` = 1 says that the code table is the result of a `CGEN` on the current tree. -/
abbrev CodesAreOfTree (s : State) : Prop :=
  s.cv = true → codesOf s.node s.root = .ok { bits := s.codeBits, len := s.codeLen }

/-- R23: a code length is at most 64 and the pattern's bits from the length up are 0. -/
abbrev CodesFit (s : State) : Prop :=
  ∀ b : Byte, (readSym s.codeLen b).toNat ≤ 64 ∧
    (readSym s.codeBits b).toNat < 2 ^ (readSym s.codeLen b).toNat

/-- R40 item 9: no fault, no faulting word. -/
abbrev ErrInfoAgrees (s : State) : Prop := s.err = 0#4 → s.errinfo = 0#64

/-- R246: codes 7 to 15 are never written. -/
abbrev ErrIsAssigned (s : State) : Prop := s.err.toNat ≤ 6

/-- R40 item 10: `OUTCNT` = |`OUT`| mod 2^64. -/
abbrev OutIsCounted (s : State) : Prop := s.outcnt = BitVec.ofNat 64 s.out.length

/-- The registers of the packer, the output and the fault: items 1, 9, 10 of R40, and R246. -/
structure PortsInv (s : State) : Prop where
  /-- item 1 -/
  packer : PackerFits s
  /-- item 9 -/
  errinfo : ErrInfoAgrees s
  /-- R246 -/
  err : ErrIsAssigned s
  /-- item 10 -/
  out : OutIsCounted s

/-- The tree: items 3, 4, 5, 7 of R40, R24 and R32. -/
structure TreeInv (s : State) : Prop where
  /-- item 3 -/
  counts : CountsAgree s
  /-- item 4 -/
  children : ChildrenComeFirst s
  /-- item 4 -/
  root : RootIsInternal s
  /-- R24 -/
  unused : UnusedAreFresh s
  /-- item 5 -/
  weights : WeightsFit s
  /-- R32 -/
  ofWeights : TreeIsOfWeights s
  /-- item 7 -/
  cursor : CursorOnTree s

/-- The code table: item 2 of R40, R23 and R32. -/
structure CodeInv (s : State) : Prop where
  /-- item 2 -/
  flags : FlagsAgree s
  /-- R32 -/
  ofTree : CodesAreOfTree s
  /-- R23 -/
  fit : CodesFit s

/-- What holds between commands. -/
structure Inv (s : State) : Prop where
  /-- the packer, the output and the fault registers -/
  ports : PortsInv s
  /-- the tree -/
  tree : TreeInv s
  /-- the code table -/
  codes : CodeInv s

/-! ## Paths in the tree -/

/-- `Path a i bits j`: from node `i` the bits lead to node `j`, 0 to the left child and 1 to the
right, through internal nodes (R23, R101). -/
inductive Path (a : Arena) : NodeIx → List Bool → NodeIx → Prop where
  /-- no bit, no move -/
  | here (i : NodeIx) : Path a i [] i
  /-- one edge and then the rest -/
  | edge {i j : NodeIx} {n : Node} {x : Bool} {bits : List Bool} (at_ : nodeAt a i = .ok n)
      (internal : n.leaf = false) (rest : Path a (childOf n x) bits j) :
      Path a i (x :: bits) j

/-- Node `i` is the real leaf of symbol `b`: a leaf and not the placeholder (R24). -/
def RealLeaf (a : Arena) (i : NodeIx) (b : Byte) : Prop :=
  ∃ n, nodeAt a i = .ok n ∧ n.leaf = true ∧ n.ph = false ∧ n.sym = b

/-- `bits` is the path from the root to the real leaf of symbol `b`, the code of `b` (R23). -/
def CodePath (a : Arena) (root : NodeIx) (bits : List Bool) (b : Byte) : Prop :=
  ∃ i, Path a root bits i ∧ RealLeaf a i b

/-! ## The merge -/

/-- `less(i, j)` on arena indices (R144). -/
def NodeLess (a : Arena) (i j : Fin 511) : Prop :=
  a[i.val].weight < a[j.val].weight ∨ (a[i.val].weight = a[j.val].weight ∧ i < j)

/-- Node `j` is pending when node `n` is about to be created over `k` leaves: it exists and no
internal node created before `n` has it as a child (R143). -/
def PendingAt (a : Arena) (k n : Nat) (j : Fin 511) : Prop :=
  j.val < n ∧ ∀ m : Fin 511, k ≤ m.val → m.val < n →
    a[m.val].left.toNat ≠ j.val ∧ a[m.val].right.toNat ≠ j.val

/-- How many symbols below `b` have a nonzero weight: the arena index of the leaf of `b` (R142). -/
def rankOf (w : SymFile Half) (b : Byte) : Nat :=
  (List.range b.toNat).countP fun k => readSym w (BitVec.ofNat 8 k) ≠ 0#32

/-- How many symbols have a nonzero weight (R27). -/
def presentCount (w : SymFile Half) : Nat := w.toList.countP (· ≠ 0#32)

/-! ## The bitstream -/

/-- The bits given to the packer so far: those of the bytes emitted, then the `NBITS` pending ones,
each most significant first (R29, R67). -/
def streamBits (s : State) : List Bool := s.out.flatMap byteBits ++ bitsDown s.acc s.nbits.toNat

end Sys2Proof.Machine
end

