-- ==== Sys2Proof/Certificates/Slice0/Obligations.lean ====
section
/-!
DEFINITION. The statements for the provers, each a Prop from the numbered rules of spec/. A state
equation `{ s with … }` names everything a command writes, so what it leaves out is the frame. `port`
(the host's pending inputs) is the model's own field (log entry 1) and no command writes it.
-/

open Sys2Proof Sys2Proof.Machine

/-! ## Encoding (30_encoding.md) -/

/-- Decoding the word of a command gives the command back, its operands at every value (30_encoding.md
§1, §2). -/
def Obligations.DecodeInvertsEncode : Prop := ∀ c : Instr, decode (encode c) = .ok c

/-- A word that decodes to a command is that command's one word: no bit of a legal word is ignored
(30_encoding.md §3: "every word is either one of the fourteen commands or illegal"). -/
def Obligations.LegalWordIsTheCommandsOnlyWord : Prop :=
  ∀ (w : Word) (c : Instr), decode w = .ok c → encode c = w

/-- A word is an instance of a command exactly when `(w AND mask) = match`; the masks of the four
formats, the match `op` shifted left by 56, and the example of R96 (which the spec marks as its own
inference). -/
def Obligations.MaskAndMatchSelectTheCommand : Prop :=
  (∀ w : Word,
    (decode w = .ok .nop ↔ w &&& 0xFFFFFFFFFFFFFFFF#64 = 0x00#64 <<< 56) ∧
    (decode w = .ok .rst ↔ w &&& 0xFFFFFFFFFFFFFFFF#64 = 0x01#64 <<< 56) ∧
    (decode w = .ok .fclr ↔ w &&& 0xFFFFFFFFFFFFFFFF#64 = 0x10#64 <<< 56) ∧
    ((∃ b, decode w = .ok (.facc b)) ↔ w &&& 0xFF00FFFFFFFFFFFF#64 = 0x11#64 <<< 56) ∧
    (decode w = .ok .wsat ↔ w &&& 0xFFFFFFFFFFFFFFFF#64 = 0x12#64 <<< 56) ∧
    ((∃ b n, decode w = .ok (.wld b n)) ↔ w &&& 0xFF00FFFF00000000#64 = 0x13#64 <<< 56) ∧
    (decode w = .ok .tbuild ↔ w &&& 0xFFFFFFFFFFFFFFFF#64 = 0x20#64 <<< 56) ∧
    (decode w = .ok .cgen ↔ w &&& 0xFFFFFFFFFFFFFFFF#64 = 0x21#64 <<< 56) ∧
    ((∃ b, decode w = .ok (.penc b)) ↔ w &&& 0xFF00FFFFFFFFFFFF#64 = 0x30#64 <<< 56) ∧
    (decode w = .ok .pflush ↔ w &&& 0xFFFFFFFFFFFFFFFF#64 = 0x31#64 <<< 56) ∧
    ((∃ n, decode w = .ok (.ulenl n)) ↔ w &&& 0xFFFFFFFF00000000#64 = 0x40#64 <<< 56) ∧
    ((∃ n, decode w = .ok (.ulenh n)) ↔ w &&& 0xFFFFFFFF00000000#64 = 0x41#64 <<< 56) ∧
    ((∃ b, decode w = .ok (.ubyte b)) ↔ w &&& 0xFF00FFFFFFFFFFFF#64 = 0x42#64 <<< 56) ∧
    (decode w = .ok .uend ↔ w &&& 0xFFFFFFFFFFFFFFFF#64 = 0x43#64 <<< 56)) ∧
  decode 0x1141000000000000#64 = .ok (.facc 0x41#8)

/-- R95: `Decode` is total; a word is illegal exactly for one of the rule's reasons, and otherwise is
the command of `op` with `sym` and `imm` as operands where its format has them; executing an illegal
word raises `IllegalCommand`, code 4. -/
def Obligations.DecodeFollowsTheRule : Prop :=
  ∀ w : Word,
    let op := w.extractLsb' 56 8
    let sym := w.extractLsb' 48 8
    let rsv := w.extractLsb' 32 16
    let imm := w.extractLsb' 0 32
    let formatN : List Byte := [0x00#8, 0x01#8, 0x10#8, 0x12#8, 0x20#8, 0x21#8, 0x31#8, 0x43#8]
    let formatB : List Byte := [0x11#8, 0x30#8, 0x42#8]
    let formatI : List Byte := [0x40#8, 0x41#8]
    let formatSI : List Byte := [0x13#8]
    ((∃ why, decode w = .error why) ↔
      op ∉ formatN ++ formatB ++ formatI ++ formatSI ∨ rsv ≠ 0#16 ∨
      (op ∈ formatN ++ formatI ∧ sym ≠ 0#8) ∨ (op ∈ formatN ++ formatB ∧ imm ≠ 0#32)) ∧
    (∀ c, decode w = .ok c →
      (op = 0x00#8 → c = .nop) ∧ (op = 0x01#8 → c = .rst) ∧ (op = 0x10#8 → c = .fclr) ∧
      (op = 0x11#8 → c = .facc sym) ∧ (op = 0x12#8 → c = .wsat) ∧ (op = 0x13#8 → c = .wld sym imm) ∧
      (op = 0x20#8 → c = .tbuild) ∧ (op = 0x21#8 → c = .cgen) ∧ (op = 0x30#8 → c = .penc sym) ∧
      (op = 0x31#8 → c = .pflush) ∧ (op = 0x40#8 → c = .ulenl imm) ∧ (op = 0x41#8 → c = .ulenh imm) ∧
      (op = 0x42#8 → c = .ubyte sym) ∧ (op = 0x43#8 → c = .uend)) ∧
    (∀ (s : State) (rest : List Input) (why : Illegal), decode w = .error why → s.err = 0#4 →
      s.port = .command w :: rest →
      step s = .next { s with port := rest, err := 4#4, errinfo := w })

/-- Words of 95_test_vectors.md V1 and V2, one of each format and two illegal ones. -/
def Obligations.SampleWordsDecode : Prop :=
  decode 0x2000000000000000#64 = .ok .tbuild ∧
  decode 0x3041000000000000#64 = .ok (.penc 0x41#8) ∧
  decode 0x40000000FFFFFFFF#64 = .ok (.ulenl 0xFFFFFFFF#32) ∧
  decode 0x13410000000003E8#64 = .ok (.wld 0x41#8 1000#32) ∧
  decode 0x1301800000000002#64 = .error .rsvNonzero ∧
  decode 0x0100000000000001#64 = .error .immNonzero

/-! ## The command port, faults and reset (20_memory.md, 60_exceptions.md, 70_reset_and_hazards.md) -/

/-- A step takes the first word off the port and, when it decodes, is `exec` of its command; a word
placed by `withFetchWord` is run by the very next step (20_memory.md §1; the port as a list is the
model's choice, log entry 1). -/
def Obligations.StepRunsTheDecodedCommand : Prop :=
  (∀ (s : State) (w : Word) (rest : List Input) (c : Instr),
    s.port = .command w :: rest → decode w = .ok c → step s = exec c { s with port := rest }) ∧
  (∀ (s : State) (w : Nat) (c : Instr),
    decodeTableWord 64 w = some c → step (s.withFetchWord 64 w) = exec c s)

/-- R247: an illegal word raises `IllegalCommand`, code 4, on no condition but `ERR` = 0. -/
def Obligations.IllegalWordRaisesIllegalCommand : Prop :=
  ∀ (s : State) (w : Word) (rest : List Input) (why : Illegal),
    s.port = .command w :: rest → decode w = .error why → s.err = 0#4 →
    step s = .next { s with port := rest, err := 4#4, errinfo := w }

/-- R252: while `ERR` is not 0 exactly the word 0x0100000000000000 resets; every other word, legal or
illegal, is ignored. -/
def Obligations.FaultedBlockIgnoresAllButReset : Prop :=
  ∀ (s : State) (w : Word) (rest : List Input), s.port = .command w :: rest → s.err ≠ 0#4 →
    (w = 0x0100000000000000#64 → step s = .next { State.reset with port := rest }) ∧
    (w ≠ 0x0100000000000000#64 → step s = .next { s with port := rest })

/-- A block that is given nothing keeps its state (60_exceptions.md §8; that this is a step of its own
is the model's choice, log entry 1). -/
def Obligations.IdleBlockKeepsItsState : Prop :=
  ∀ s : State, s.port = [] → step s = .next s

/-- The hardware reset input and `RST` leave the same state, every element at the value listed
(70_reset_and_hazards.md §1); that the reset input stands in the port list and that neither reset clears
the inputs still pending is the model's choice (log entry 1). -/
def Obligations.BothResetsLeaveTheResetState : Prop :=
  (∀ (s : State) (rest : List Input), s.port = .hardReset :: rest →
    step s = .next { State.reset with port := rest }) ∧
  (∀ s : State, exec .rst s = .next { State.reset with port := s.port }) ∧
  (∀ b : Byte, readSym State.reset.freq b = 0#64 ∧ readSym State.reset.w b = 0#32 ∧
    readSym State.reset.codeBits b = 0#64 ∧ readSym State.reset.codeLen b = 0#7) ∧
  (∀ i : Fin 511, State.reset.node[i.val] =
    { weight := 0#64, left := 0x3FF#10, right := 0x3FF#10, sym := 0#8, leaf := false, ph := false }) ∧
  State.reset.root = 0x3FF#10 ∧ State.reset.nsym = 0#9 ∧ State.reset.nnode = 0#10 ∧
  State.reset.nacc = 0#64 ∧ State.reset.acc = 0#8 ∧ State.reset.nbits = 0#3 ∧
  State.reset.out = [] ∧ State.reset.outcnt = 0#64 ∧ State.reset.remain = 0#64 ∧
  State.reset.cur = 0x3FF#10 ∧ State.reset.tv = false ∧ State.reset.cv = false ∧
  State.reset.err = 0#4 ∧ State.reset.errinfo = 0#64

/-- What the read port returns after reset, address by address (70_reset_and_hazards.md §1, which the
spec marks as inferred from R280 and the read map). -/
def Obligations.ReadsAfterReset : Prop :=
  ∀ a : ReadAddr, regRead a State.reset =
    if a = 0x000#12 then 0x0000000001324648#64
    else if a = 0x001#12 then 0x0000000000000100#64
    else if a = 0x006#12 ∨ a = 0x00A#12 then 0x3FF#64
    else if 0xA00#12 ≤ a ∧ a ≤ 0xBFE#12 then 0x00000000000FFFFF#64
    else 0#64

/-- R250, R251: a word that raises a fault, legal or illegal, changes `ERR` and `ERRINFO` only (it is
off the port, like every word taken), and `ERRINFO` is the whole word. -/
def Obligations.FaultsChangeOnlyErrAndErrinfo : Prop :=
  ∀ (s t : State) (w : Word) (rest : List Input), s.port = .command w :: rest → s.err = 0#4 →
    step s = .next t → t.err ≠ 0#4 →
    t = { s with port := rest, err := t.err, errinfo := w } ∧
    (t.err = 1#4 ∨ t.err = 2#4 ∨ t.err = 3#4 ∨ t.err = 4#4 ∨ t.err = 5#4 ∨ t.err = 6#4)

/-- Which word can raise which code, and that no other code is written (60_exceptions.md §1). -/
def Obligations.EachFaultCodeHasItsCause : Prop :=
  ∀ s t : State, s.err = 0#4 → step s = .next t → t.err ≠ 0#4 →
    ∃ w rest, s.port = .command w :: rest ∧
      ((t.err = 1#4 ∧ decode w = .ok .uend ∧ s.remain ≠ 0#64) ∨
       (t.err = 2#4 ∧ ∃ b, decode w = .ok (.ubyte b) ∧ s.tv = true ∧ s.remain ≠ 0#64) ∨
       (t.err = 3#4 ∧ decode w = .ok .cgen ∧ s.tv = true) ∨
       (t.err = 4#4 ∧ ∃ why, decode w = .error why) ∨
       (t.err = 5#4 ∧ ((decode w = .ok .cgen ∧ s.tv = false) ∨
          (∃ b, decode w = .ok (.penc b) ∧ s.cv = false) ∨
          (∃ b, decode w = .ok (.ubyte b) ∧ s.tv = false))) ∨
       (t.err = 6#4 ∧ ∃ b, decode w = .ok (.penc b) ∧ s.cv = true ∧ readSym s.codeLen b = 0#7))

/-- R248: `SequenceError` is raised by `CGEN` or `UBYTE` with `TV` = 0 and by `PENC` with `CV` = 0, and by
nothing else. -/
def Obligations.SequenceErrorExactlyWithoutTheFlag : Prop :=
  ∀ (c : Instr) (s : State), s.err = 0#4 →
    (exec c s = .next { s with err := 5#4, errinfo := encode c } ↔
      (c = .cgen ∧ s.tv = false) ∨ (∃ b, c = .penc b ∧ s.cv = false) ∨
      (∃ b, c = .ubyte b ∧ s.tv = false)) ∧
    (∀ t, exec c s = .next t → t.err = 5#4 → t = { s with err := 5#4, errinfo := encode c })

/-! ## Control and frequency commands (45_control.md, 40_frequency.md) -/

/-- R205: `NOP`. -/
def Obligations.NopChangesNothing : Prop :=
  encode .nop = 0x0000000000000000#64 ∧ ∀ s : State, exec .nop s = .next s

/-- R206: `RST`, whether or not the block is faulted, and no other command while it is; `STATUS` reads
0x100 afterwards. -/
def Obligations.RstReturnsEveryElementToReset : Prop :=
  encode .rst = 0x0100000000000000#64 ∧
  (∀ s : State, ∃ t, exec .rst s = .next t ∧ t = { State.reset with port := s.port } ∧
    regRead 0x001#12 t = 0x100#64) ∧
  ∀ (c : Instr) (s : State), s.err ≠ 0#4 → c ≠ .rst → exec c s = .next s

/-- R122: `FCLR`. -/
def Obligations.FclrClearsTheHistogram : Prop :=
  encode .fclr = 0x1000000000000000#64 ∧
  ∀ s : State, s.err = 0#4 →
    ∃ t, exec .fclr s = .next t ∧ (∀ b : Byte, readSym t.freq b = 0#64) ∧
      t = { s with freq := t.freq, nacc := 0#64 }

/-- R123: `FACC b`. -/
def Obligations.FaccCountsOneByte : Prop :=
  ∀ b : Byte, encode (.facc b) = 0x1100000000000000#64 + (b.setWidth 64 <<< 48) ∧
    ∀ s : State, s.err = 0#4 →
      ∃ t, exec (.facc b) s = .next t ∧
        (readSym t.freq b).toNat = ((readSym s.freq b).toNat + 1) % 2 ^ 64 ∧
        (∀ c : Byte, c ≠ b → readSym t.freq c = readSym s.freq c) ∧
        t.nacc.toNat = (s.nacc.toNat + 1) % 2 ^ 64 ∧
        t = { s with freq := t.freq, nacc := t.nacc }

/-- R124: `WSAT` sets every weight to the saturated count and clears the flags. -/
def Obligations.WsatSaturatesEveryCount : Prop :=
  encode .wsat = 0x1200000000000000#64 ∧
  ∀ s : State, s.err = 0#4 →
    ∃ t, exec .wsat s = .next t ∧
      (∀ b : Byte, (readSym t.w b).toNat = min (readSym s.freq b).toNat (2 ^ 32 - 1)) ∧
      t = { s with w := t.w, tv := false, cv := false }

/-- R125: `WLD s, w`. -/
def Obligations.WldLoadsOneWeight : Prop :=
  ∀ (b : Byte) (w : Half),
    encode (.wld b w) = 0x1300000000000000#64 + (b.setWidth 64 <<< 48) + w.setWidth 64 ∧
    ∀ s : State, s.err = 0#4 →
      ∃ t, exec (.wld b w) s = .next t ∧ readSym t.w b = w ∧
        (∀ c : Byte, c ≠ b → readSym t.w c = readSym s.w c) ∧
        t = { s with w := t.w, tv := false, cv := false }

/-! ## The tree (41_tree.md) -/

/-- `TBUILD` completes in every unfaulted state, writes the arena, its three registers, `CUR` and the
flags and nothing else, counts the symbols, and what it builds depends on `W` only (41_tree.md,
`TBUILD` and properties of the result (a)). -/
def Obligations.TbuildInstallsATreeOfTheWeights : Prop :=
  encode .tbuild = 0x2000000000000000#64 ∧
  ∀ s : State, s.err = 0#4 →
    ∃ t, exec .tbuild s = .next t ∧
      t = { s with node := t.node, root := t.root, nsym := t.nsym, nnode := t.nnode,
                   cur := t.root, tv := true, cv := false } ∧
      t.nsym.toNat = presentCount s.w ∧
      ∀ u v : State, u.w = s.w → exec .tbuild u = .next v → u.err = 0#4 →
        v.node = t.node ∧ v.root = t.root ∧ v.nsym = t.nsym ∧ v.nnode = t.nnode

/-- R142: the leaf of a present symbol stands at the index that counts the present symbols below it,
with the symbol's weight zero-extended; no other entry is a real leaf, so a symbol of weight 0 has
none. -/
def Obligations.TbuildMakesLeavesInSymbolOrder : Prop :=
  ∀ s t : State, s.err = 0#4 → exec .tbuild s = .next t →
    (∀ b : Byte, readSym s.w b ≠ 0#32 →
      nodeAt t.node (BitVec.ofNat 10 (rankOf s.w b)) = .ok
        { weight := (readSym s.w b).setWidth 64, left := 0x3FF#10, right := 0x3FF#10, sym := b,
          leaf := true, ph := false }) ∧
    (∀ i : Fin 511, t.node[i.val].leaf = true → t.node[i.val].ph = false →
      readSym s.w t.node[i.val].sym ≠ 0#32 ∧ i.val = rankOf s.w t.node[i.val].sym)

/-- The arena order (10_state.md §3): leaves in ascending order of symbol, then the internal nodes;
`NNODE` and `ROOT` by the number of symbols; every entry from `NNODE` on is unused. -/
def Obligations.TbuildOrdersTheArena : Prop :=
  ∀ s t : State, s.err = 0#4 → exec .tbuild s = .next t →
    CountsAgree t ∧ UnusedAreFresh t ∧
    (∀ i j : Fin 511, i < j → j.val < t.nsym.toNat → t.node[i.val].sym < t.node[j.val].sym) ∧
    (∀ i : Fin 511, i.val < t.nsym.toNat → t.node[i.val].leaf = true ∧ t.node[i.val].ph = false) ∧
    (2 ≤ t.nsym.toNat → ∀ i : Fin 511, t.nsym.toNat ≤ i.val → t.node[i.val].leaf = false)

/-- R145, with the merge loop of 41_tree.md: with two or more symbols every internal node, in order
of creation, joins the least pending node (left) and the least of those remaining (right) under `less`,
with weight the sum of theirs. -/
def Obligations.TbuildMergesTheLeastTwoPending : Prop :=
  ∀ s t : State, s.err = 0#4 → exec .tbuild s = .next t → 2 ≤ t.nsym.toNat →
    ∀ n : Fin 511, t.nsym.toNat ≤ n.val → n.val < t.nnode.toNat →
      ∃ l r : Fin 511,
        t.node[n.val] =
          { weight := t.node[l.val].weight + t.node[r.val].weight, left := BitVec.ofNat 10 l.val,
            right := BitVec.ofNat 10 r.val, sym := 0#8, leaf := false, ph := false } ∧
        PendingAt t.node t.nsym.toNat n.val l ∧ PendingAt t.node t.nsym.toNat n.val r ∧
        NodeLess t.node l r ∧
        ∀ j : Fin 511, PendingAt t.node t.nsym.toNat n.val j → j ≠ l → j ≠ r → NodeLess t.node r j

/-- R146: one symbol. -/
def Obligations.TbuildOfOneSymbol : Prop :=
  ∀ (s : State) (b : Byte), s.err = 0#4 → readSym s.w b ≠ 0#32 →
    (∀ c : Byte, c ≠ b → readSym s.w c = 0#32) →
    ∃ t, exec .tbuild s = .next t ∧ t.nsym = 1#9 ∧ t.nnode = 3#10 ∧ t.root = 2#10 ∧
      t.node[0] = { weight := (readSym s.w b).setWidth 64, left := 0x3FF#10, right := 0x3FF#10,
                    sym := b, leaf := true, ph := false } ∧
      t.node[1] = { weight := 0#64, left := 0x3FF#10, right := 0x3FF#10, sym := 0#8, leaf := true,
                    ph := true } ∧
      t.node[2] = { weight := (readSym s.w b).setWidth 64, left := 0#10, right := 1#10, sym := 0#8,
                    leaf := false, ph := false } ∧
      ∀ bits c, CodePath t.node t.root bits c ↔ bits = [false] ∧ c = b

/-- Zero symbols: the empty tree is valid, reported as `STATUS.TE`, and `CGEN` on it yields an all-zero
code table (41_tree.md, zero symbols). -/
def Obligations.TbuildOfNoSymbol : Prop :=
  ∀ s : State, s.err = 0#4 → (∀ b : Byte, readSym s.w b = 0#32) →
    ∃ t, exec .tbuild s = .next t ∧ t.nsym = 0#9 ∧ t.nnode = 0#10 ∧ t.root = 0x3FF#10 ∧
      t.cur = 0x3FF#10 ∧ (∀ i : Fin 511, t.node[i.val] = Node.fresh) ∧ t.tv = true ∧
      (regRead 0x001#12 t).getLsbD 5 = true ∧
      ∃ u, exec .cgen t = .next u ∧ u.cv = true ∧
        (∀ b : Byte, readSym u.codeLen b = 0#7 ∧ readSym u.codeBits b = 0#64) ∧
        u = { t with codeBits := u.codeBits, codeLen := u.codeLen, cv := true }

/-- The weights of the internal nodes do not decrease in creation order (41_tree.md, properties of the
result (c)). -/
def Obligations.InternalWeightsNeverDecrease : Prop :=
  ∀ s t : State, s.err = 0#4 → exec .tbuild s = .next t →
    ∀ m n : Fin 511, t.nsym.toNat ≤ m.val → m ≤ n → n.val < t.nnode.toNat →
      t.node[m.val].leaf = false →
      t.node[m.val].weight.toNat ≤ t.node[n.val].weight.toNat

/-- The root weighs the sum of all weights, and no node more than 256 · (2^32 - 1), so the additions
never wrap (41_tree.md, capacity and weight range). -/
def Obligations.RootWeighsTheTotal : Prop :=
  ∀ s t : State, s.err = 0#4 → exec .tbuild s = .next t →
    (∀ i : Fin 511, t.node[i.val].weight.toNat ≤ 256 * (2 ^ 32 - 1)) ∧
    (t.nsym.toNat ≠ 0 → ∃ n, nodeAt t.node t.root = .ok n ∧
      n.weight.toNat = (s.w.toList.map BitVec.toNat).sum)

/-! ## The code table (42_codetable.md) -/

/-- `CGEN` on a valid tree with no code path over 64 records for every real leaf the length and the
pattern of its path, clears every other entry, sets `CV`, and writes nothing else (42_codetable.md,
`CGEN`). -/
def Obligations.CgenRecordsTheRootToLeafPaths : Prop :=
  encode .cgen = 0x2100000000000000#64 ∧
  ∀ s : State, TreeInv s → s.err = 0#4 → s.tv = true →
    (∀ bits b, CodePath s.node s.root bits b → bits.length ≤ 64) →
    ∃ t, exec .cgen s = .next t ∧
      t = { s with codeBits := t.codeBits, codeLen := t.codeLen, cv := true } ∧
      (∀ bits b, CodePath s.node s.root bits b →
        (readSym t.codeLen b).toNat = bits.length ∧ readSym t.codeBits b = patternOf bits) ∧
      (∀ b, (∀ bits, ¬ CodePath s.node s.root bits b) →
        readSym t.codeLen b = 0#7 ∧ readSym t.codeBits b = 0#64)

/-- R163: a real leaf deeper than 64 raises `CodeTooLong`, code 3; depth exactly 64 is legal, and the
pattern of a symbol with one path is recorded whole, up to all 64 bits. Over every arena of the shape of
R40 items 3 and 4, whether or not `TBUILD` can make it. -/
def Obligations.CgenRaisesCodeTooLongBeyond64 : Prop :=
  ∀ s : State, CountsAgree s → ChildrenComeFirst s → RootIsInternal s → s.err = 0#4 → s.tv = true →
    ((∃ bits b, CodePath s.node s.root bits b ∧ 64 < bits.length) →
      exec .cgen s = .next { s with err := 3#4, errinfo := 0x2100000000000000#64 }) ∧
    ((∀ bits b, CodePath s.node s.root bits b → bits.length ≤ 64) →
      ∃ t, exec .cgen s = .next t ∧ t.err = 0#4 ∧ t.cv = true ∧
        ∀ bits b, CodePath s.node s.root bits b →
          (∀ other, CodePath s.node s.root other b → other = bits) →
          (readSym t.codeLen b).toNat = bits.length ∧ readSym t.codeBits b = patternOf bits)

/-- No code of a tree built from 32-bit weights is longer than 57, so `CodeTooLong` is not reached
(41_tree.md, depth bound). -/
def Obligations.NoCodePathIsLongerThan57 : Prop :=
  ∀ s : State, TreeInv s → s.tv = true →
    ∀ bits b, CodePath s.node s.root bits b → bits.length ≤ 57

/-- With `CV` = 1: a symbol has a code exactly when its weight is not 0, no code is the beginning of
another, and a pattern's bits above its length are 0 (42_codetable.md, properties of the table). -/
def Obligations.NoCodeBeginsAnother : Prop :=
  ∀ s : State, Inv s → s.cv = true →
    (∀ b : Byte, readSym s.codeLen b ≠ 0#7 ↔ readSym s.w b ≠ 0#32) ∧
    (∀ b c : Byte, b ≠ c → readSym s.codeLen b ≠ 0#7 → readSym s.codeLen c ≠ 0#7 →
      ¬ codeOf s b <+: codeOf s c) ∧
    (∀ b : Byte, (readSym s.codeBits b).toNat < 2 ^ (readSym s.codeLen b).toNat)

/-- With two or more symbols every long enough bit string begins with a code: a walk never meets a null
child (42_codetable.md, properties of the table; 30_encoding.md §5). -/
def Obligations.EveryLongBitStringBeginsWithACode : Prop :=
  ∀ s : State, TreeInv s → s.tv = true → 2 ≤ s.nsym.toNat →
    ∀ bits : List Bool, 511 ≤ bits.length →
      ∃ k b, k ≤ bits.length ∧ CodePath s.node s.root (bits.take k) b

/-! ## The packer (43_bitpacker.md) -/

/-- R170: `PENC b` appends the `CODE_LEN[b]` bits of the pattern, most significant first, to the bits
given so far, emits a byte for each eight gathered, at most 8, and writes nothing else; without a valid
code table it raises `SequenceError`, and for a byte without a code `NoCode`. -/
def Obligations.PencAppendsTheCode : Prop :=
  ∀ b : Byte, encode (.penc b) = 0x3000000000000000#64 + (b.setWidth 64 <<< 48) ∧
    (∀ s : State, s.err = 0#4 → s.cv = false →
      exec (.penc b) s = .next { s with err := 5#4, errinfo := encode (.penc b) }) ∧
    (∀ s : State, s.err = 0#4 → s.cv = true → readSym s.codeLen b = 0#7 →
      exec (.penc b) s = .next { s with err := 6#4, errinfo := encode (.penc b) }) ∧
    ∀ s : State, s.err = 0#4 → s.cv = true → readSym s.codeLen b ≠ 0#7 →
      (readSym s.codeLen b).toNat ≤ 64 →
      ∃ t emitted, exec (.penc b) s = .next t ∧
        streamBits t = streamBits s ++
          (List.range (readSym s.codeLen b).toNat).reverse.map (readSym s.codeBits b).getLsbD ∧
        t = { s with acc := t.acc, nbits := t.nbits, out := s.out ++ emitted,
                     outcnt := s.outcnt + BitVec.ofNat 64 emitted.length } ∧
        emitted.length ≤ 8 ∧ (PackerFits s → PackerFits t)

/-- R171: `PFLUSH` emits the pending bits from bit 7 down, zeros below, and empties the packer; with
nothing pending it does nothing. -/
def Obligations.PflushEmitsThePartialByte : Prop :=
  encode .pflush = 0x3100000000000000#64 ∧
  ∀ s : State, s.err = 0#4 →
    (s.nbits ≠ 0#3 →
      exec .pflush s = .next { s with out := s.out ++ [s.acc <<< (8 - s.nbits.toNat)],
                                      outcnt := s.outcnt + 1#64, acc := 0#8, nbits := 0#3 }) ∧
    (s.nbits = 0#3 → exec .pflush s = .next s)

/-- `PFLUSH` appends 0 to 7 zero bits, up to the next multiple of 8, to the bits given so far
(30_encoding.md §5, 20_memory.md §2). -/
def Obligations.PflushPadsToWholeBytes : Prop :=
  ∀ s : State, s.err = 0#4 →
    ∃ t pad, exec .pflush s = .next t ∧ pad < 8 ∧
      streamBits t = streamBits s ++ List.replicate pad false ∧ (streamBits t).length % 8 = 0 ∧
      t.nbits = 0#3

/-! ## The unpacker (44_unpacker.md) -/

/-- R186: `ULENL n`. -/
def Obligations.UlenlDeclaresTheLowHalf : Prop :=
  ∀ n : Half, encode (.ulenl n) = 0x4000000000000000#64 + n.setWidth 64 ∧
    ∀ s : State, s.err = 0#4 →
      ∃ t, exec (.ulenl n) s = .next t ∧ t.remain.toNat = n.toNat ∧
        t = { s with remain := t.remain, cur := s.root }

/-- R187: `ULENH n` replaces bits 63:32 and keeps bits 31:0. -/
def Obligations.UlenhReplacesTheHighHalf : Prop :=
  ∀ n : Half, encode (.ulenh n) = 0x4100000000000000#64 + n.setWidth 64 ∧
    ∀ s : State, s.err = 0#4 →
      ∃ t, exec (.ulenh n) s = .next t ∧
        t.remain.toNat = n.toNat * 2 ^ 32 + s.remain.toNat % 2 ^ 32 ∧
        t = { s with remain := t.remain, cur := s.root }

/-- `UBYTE b` on a tree of two or more symbols never faults: it uses the bits of `b` from bit 7 down
until nothing is owed, and the path that led to `CUR`, followed by the bits used, is the codes of the
symbols emitted, in order, followed by the path to the new `CUR` (44_unpacker.md, `UBYTE`;
30_encoding.md §5). -/
def Obligations.UbyteDecodesItsBits : Prop :=
  ∀ b : Byte, encode (.ubyte b) = 0x4200000000000000#64 + (b.setWidth 64 <<< 48) ∧
    ∀ s : State, TreeInv s → s.err = 0#4 → s.tv = true → 2 ≤ s.nsym.toNat →
      ∃ t emitted used, exec (.ubyte b) s = .next t ∧
        t = { s with out := s.out ++ emitted,
                     outcnt := s.outcnt + BitVec.ofNat 64 emitted.length,
                     remain := t.remain, cur := t.cur } ∧
        t.remain.toNat + emitted.length = s.remain.toNat ∧
        used <+: (List.range 8).reverse.map b.getLsbD ∧
        (t.remain ≠ 0#64 → used.length = 8) ∧
        (s.remain = 0#64 → used = []) ∧
        (s.remain ≠ 0#64 → t.remain = 0#64 → t.cur = s.root) ∧
        ∀ before, Path s.node s.root before s.cur →
          ∃ codes after, before ++ used = codes.flatten ++ after ∧
            List.Forall₂ (CodePath s.node s.root) codes emitted ∧
            Path s.node s.root after t.cur

/-- R190: (a) on an empty tree a bit to be read raises `CorruptStream`; (b) on the one-symbol tree each
bit 0 emits the symbol, and a bit 1 before the count is reached leads to the placeholder and raises
`CorruptStream`, emitting nothing. -/
def Obligations.UbyteOnTreesOfNoAndOneSymbol : Prop :=
  ∀ (b : Byte) (s : State), TreeInv s → s.err = 0#4 → s.tv = true →
    (s.nsym.toNat = 0 → s.remain ≠ 0#64 →
      exec (.ubyte b) s = .next { s with err := 2#4, errinfo := encode (.ubyte b) }) ∧
    (s.nsym.toNat = 1 →
      ((∀ k, k < min 8 s.remain.toNat → b.getLsbD (7 - k) = false) →
        ∃ x, readSym s.w x ≠ 0#32 ∧
          exec (.ubyte b) s = .next { s with
            out := s.out ++ List.replicate (min 8 s.remain.toNat) x
            outcnt := s.outcnt + BitVec.ofNat 64 (min 8 s.remain.toNat)
            remain := s.remain - BitVec.ofNat 64 (min 8 s.remain.toNat) }) ∧
      ((∃ k, k < min 8 s.remain.toNat ∧ b.getLsbD (7 - k) = true) →
        exec (.ubyte b) s = .next { s with err := 2#4, errinfo := encode (.ubyte b) }))

/-- With the tree valid and nothing owed, `UBYTE` is ignored without fault, whatever the tree and the
cursor (44_unpacker.md, stopping rule). -/
def Obligations.UbyteWithNothingOwedIsIgnored : Prop :=
  ∀ (b : Byte) (s : State), s.err = 0#4 → s.tv = true → s.remain = 0#64 →
    exec (.ubyte b) s = .next s

/-- A first bit that selects a null child raises `CorruptStream` and changes nothing else
(44_unpacker.md, failure conditions): in any arena, since the check must be made although `TBUILD`
makes no such node. -/
def Obligations.UbyteRaisesCorruptStreamAtANullChild : Prop :=
  ∀ (b : Byte) (s : State) (n : Node), s.err = 0#4 → s.tv = true → s.remain ≠ 0#64 →
    nodeAt s.node s.cur = .ok n → (if b.getLsbD 7 then n.right else n.left) = 0x3FF#10 →
    exec (.ubyte b) s = .next { s with err := 2#4, errinfo := encode (.ubyte b) }

/-- R189: `UEND`. -/
def Obligations.UendDetectsMissingSymbols : Prop :=
  encode .uend = 0x4300000000000000#64 ∧
  ∀ s : State, s.err = 0#4 →
    (s.remain = 0#64 → exec .uend s = .next s) ∧
    (s.remain ≠ 0#64 →
      exec .uend s = .next { s with err := 1#4, errinfo := 0x4300000000000000#64 })

/-- The unpacker undoes the packer: a walk that starts at the root over the code of a byte emits that
byte, is back at the root, owes one symbol less, and goes on with the bits that follow (30_encoding.md
§5, 46_host_sequences.md §3). -/
def Obligations.WalkOverACodeEmitsItsByte : Prop :=
  ∀ (s : State) (b : Byte) (rem : Word) (emitted : List Byte) (rest : List Bool),
    Inv s → s.cv = true → readSym s.codeLen b ≠ 0#7 → rem ≠ 0#64 →
    walkBits s.node s.root (codeOf s b ++ rest) { cur := s.root, rem := rem, emitted := emitted } =
      walkBits s.node s.root rest { cur := s.root, rem := rem - 1#64, emitted := emitted ++ [b] }

/-! ## Which command writes what (10_state.md) -/

/-- The columns of writes of 10_state.md §6: an element of state changes only under the commands listed
for it. -/
def Obligations.CommandsWriteOnlyTheirColumns : Prop :=
  ∀ (c : Instr) (s t : State), exec c s = .next t → c ≠ .rst →
    (t.freq = s.freq ∧ t.nacc = s.nacc ∨ c = .fclr ∨ ∃ b, c = .facc b) ∧
    (t.w = s.w ∨ c = .wsat ∨ ∃ b w, c = .wld b w) ∧
    (t.node = s.node ∧ t.root = s.root ∧ t.nsym = s.nsym ∧ t.nnode = s.nnode ∨ c = .tbuild) ∧
    (t.codeBits = s.codeBits ∧ t.codeLen = s.codeLen ∨ c = .cgen) ∧
    (t.acc = s.acc ∧ t.nbits = s.nbits ∨ c = .pflush ∨ ∃ b, c = .penc b) ∧
    (t.out = s.out ∧ t.outcnt = s.outcnt ∨ c = .pflush ∨ (∃ b, c = .penc b) ∨ ∃ b, c = .ubyte b) ∧
    (t.remain = s.remain ∨ (∃ n, c = .ulenl n) ∨ (∃ n, c = .ulenh n) ∨ ∃ b, c = .ubyte b) ∧
    (t.cur = s.cur ∨ c = .tbuild ∨ (∃ n, c = .ulenl n) ∨ (∃ n, c = .ulenh n) ∨ ∃ b, c = .ubyte b) ∧
    (t.tv = s.tv ∨ c = .wsat ∨ (∃ b w, c = .wld b w) ∨ c = .tbuild) ∧
    (t.cv = s.cv ∨ c = .wsat ∨ (∃ b w, c = .wld b w) ∨ c = .tbuild ∨ c = .cgen) ∧
    t.port = s.port ∧ s.out <+: t.out

/-- The validity flags after a command that completes: set by `TBUILD` and `CGEN`, cleared by `WSAT`,
`WLD`, `RST` (and `CV` by `TBUILD`), else kept (10_state.md §5). -/
def Obligations.ValidityFlagsFollowTheCommands : Prop :=
  ∀ (c : Instr) (s t : State), exec c s = .next t → s.err = 0#4 → t.err = 0#4 →
    t.tv = (match c with
      | .tbuild => true
      | .rst | .wsat | .wld _ _ => false
      | .nop | .fclr | .facc _ | .cgen | .penc _ | .pflush | .ulenl _ | .ulenh _ | .ubyte _
      | .uend => s.tv) ∧
    t.cv = (match c with
      | .cgen => true
      | .rst | .wsat | .wld _ _ | .tbuild => false
      | .nop | .fclr | .facc _ | .penc _ | .pflush | .ulenl _ | .ulenh _ | .ubyte _
      | .uend => s.cv)

/-! ## The read port (20_memory.md) -/

/-- R63: the address map; `OUT` is at no address. -/
def Obligations.ReadMapShowsEveryElement : Prop :=
  ∀ s : State,
    regRead 0x000#12 s = 0x0000000001324648#64 ∧ regRead 0x001#12 s = statusWord s ∧
    regRead 0x002#12 s = s.errinfo ∧ regRead 0x003#12 s = s.nacc ∧
    regRead 0x004#12 s = s.nsym.setWidth 64 ∧ regRead 0x005#12 s = s.nnode.setWidth 64 ∧
    regRead 0x006#12 s = s.root.setWidth 64 ∧
    (regRead 0x007#12 s).extractLsb' 0 8 = s.acc ∧ (regRead 0x007#12 s).extractLsb' 8 3 = s.nbits ∧
    (regRead 0x007#12 s).extractLsb' 11 53 = 0#53 ∧
    regRead 0x008#12 s = s.outcnt ∧ regRead 0x009#12 s = s.remain ∧
    regRead 0x00A#12 s = s.cur.setWidth 64 ∧
    (∀ b : Byte, regRead (0x100#12 + b.setWidth 12) s = readSym s.freq b ∧
      regRead (0x200#12 + b.setWidth 12) s = (readSym s.w b).setWidth 64 ∧
      regRead (0x300#12 + b.setWidth 12) s = readSym s.codeBits b ∧
      regRead (0x400#12 + b.setWidth 12) s = (readSym s.codeLen b).setWidth 64) ∧
    (∀ i : Fin 511, regRead (0x800#12 + BitVec.ofNat 12 i.val) s = s.node[i.val].weight ∧
      regRead (0xA00#12 + BitVec.ofNat 12 i.val) s = linkWord s.node[i.val]) ∧
    (∀ a : ReadAddr, (0x00B#12 ≤ a ∧ a ≤ 0x0FF#12) ∨ (0x500#12 ≤ a ∧ a ≤ 0x7FF#12) ∨
      a = 0x9FF#12 ∨ 0xBFF#12 ≤ a → regRead a s = 0#64) ∧
    (∀ (a : ReadAddr) (bytes : List Byte), regRead a { s with out := bytes } = regRead a s)

/-- R34: the bits of `STATUS`. -/
def Obligations.StatusWordHoldsTheFlags : Prop :=
  ∀ s : State,
    (regRead 0x001#12 s).extractLsb' 0 4 = s.err ∧
    (regRead 0x001#12 s).getLsbD 4 = s.tv ∧
    ((regRead 0x001#12 s).getLsbD 5 = true ↔ s.tv = true ∧ s.nsym = 0#9) ∧
    (regRead 0x001#12 s).getLsbD 6 = s.cv ∧
    ((regRead 0x001#12 s).getLsbD 7 = true ↔ s.nbits ≠ 0#3) ∧
    ((regRead 0x001#12 s).getLsbD 8 = true ↔ s.remain = 0#64) ∧
    (regRead 0x001#12 s).extractLsb' 9 55 = 0#55 ∧
    regRead 0x001#12 State.reset = 0x100#64

/-- R64: the fields of the link word, and what an unused entry reads. -/
def Obligations.LinkWordPacksTheNarrowFields : Prop :=
  (∀ (s : State) (i : Fin 511),
    let l := regRead (0xA00#12 + BitVec.ofNat 12 i.val) s
    l.extractLsb' 0 10 = s.node[i.val].left ∧ l.extractLsb' 10 10 = s.node[i.val].right ∧
    l.extractLsb' 20 8 = s.node[i.val].sym ∧ l.getLsbD 28 = s.node[i.val].leaf ∧
    l.getLsbD 29 = s.node[i.val].ph ∧ l.extractLsb' 30 34 = 0#34 ∧
    (s.node[i.val] = Node.fresh → l = 0x00000000000FFFFF#64 ∧
      regRead (0x800#12 + BitVec.ofNat 12 i.val) s = 0#64))

/-- Taking a fault changes what the read port returns at `STATUS` and `ERRINFO` only (20_memory.md §1,
60_exceptions.md §2): the port works unchanged while the block is faulted. -/
def Obligations.ReadPortWorksWhileFaulted : Prop :=
  ∀ (c : Instr) (s t : State) (a : ReadAddr), s.err = 0#4 → exec c s = .next t → t.err ≠ 0#4 →
    a ≠ 0x001#12 → a ≠ 0x002#12 → regRead a t = regRead a s

/-! ## The host's contract (46_host_sequences.md) -/

/-- Parsing what the host serializes gives back `NACC`, the 256 weights and the bitstream
(46_host_sequences.md §1). -/
def Obligations.ParseInvertsSerialize : Prop :=
  ∀ s : State, parse (serialize s) = .ok { length := s.nacc, weights := s.w, stream := s.out }

/-- R218: the order of the parse's checks, the length it reads, and that it performs no other check. -/
def Obligations.ParseChecksLengthTagMethod : Prop :=
  ∀ c : List Byte,
    (c.length < 1036 → parse c = .error .truncatedHeader) ∧
    (1036 ≤ c.length → c.take 3 ≠ [0x48#8, 0x46#8, 0x32#8] → parse c = .error .badMagic) ∧
    (1036 ≤ c.length → c.take 3 = [0x48#8, 0x46#8, 0x32#8] → (c.drop 3).head? ≠ some 0x01#8 →
      parse c = .error .unsupportedMethod) ∧
    (1036 ≤ c.length → c.take 3 = [0x48#8, 0x46#8, 0x32#8] → (c.drop 3).head? = some 0x01#8 →
      ∃ k, parse c = .ok k ∧ k.stream = c.drop 1036 ∧
        k.length.toNat = ((List.range 8).map fun i => (c.getD (4 + i) 0#8).toNat * 256 ^ i).sum ∧
        (k.length = 0#64 → ∀ s : State, decompress c s = { result := .ok [], block := s }))

/-- Under reject-if-not-smaller the container of always-emit is returned when strictly smaller than the
input and `NotReducible` otherwise, so an input of 1036 bytes or fewer is never accepted
(46_host_sequences.md, AutoSafe). -/
def Obligations.AutoSafeReturnsOnlySmallerContainers : Prop :=
  ∀ (input : List Byte) (s : State),
    ((compress input true s).result =
      match (compress input false s).result with
      | .ok c => if c.length < input.length then .ok c else .error .notReducible
      | .error e => .error e) ∧
    (input.length ≤ 1036 → ∀ c, (compress input true s).result ≠ .ok c)

/-! ## Invariants (10_state.md §7) -/

/-- The invariants hold after reset (10_state.md §7). -/
def Obligations.ResetMeetsTheInvariants : Prop := Inv State.reset

/-- A step keeps items 1, 9 and 10 of the invariants and writes only assigned fault codes. -/
def Obligations.StepKeepsPackerOutputAndFaultRegisters : Prop :=
  ∀ s t : State, PortsInv s → step s = .next t → PortsInv t

/-- A step keeps items 3, 4, 5 and 7 of the invariants, and `TV` = 1 goes on to say that the arena is what
`TBUILD` makes of `W`. -/
def Obligations.StepKeepsTheTree : Prop :=
  ∀ s t : State, TreeInv s → step s = .next t → TreeInv t

/-- A step keeps item 2 of the invariants, every code fits its length, and `CV` = 1 goes on to say that the
code table is what `CGEN` makes of the tree. -/
def Obligations.StepKeepsTheCodeTable : Prop :=
  ∀ s t : State, CodeInv s → step s = .next t → CodeInv t

/-- Between commands that keep the invariants the model never stops: every word gives a next state, so
each command is "one total function from state to state-or-fault" (20_memory.md §3, 70_reset_and_hazards.md
§6). The model's own stops (log entries 3, 4, 5) are not reached. -/
def Obligations.EveryStepCompletes : Prop :=
  ∀ s : State, Inv s → ∃ t, step s = .next t

/-! ## The end of a call (46_host_sequences.md) -/

/-- A call whose commands end in a fault reports it with the block reset by `RST`, and the same call on
that reset block ends in the same way: for every sequence of commands that begins with `RST`, and for a
decompression; a compression that the model does not stop leaves no faulted block (46_host_sequences.md
§2, §3). The internal error of a decompression, for a code other than 1 and 2, and the stop of a call
(`blockStopped`) are the model's choice (log entry 9). -/
def Obligations.FaultedCallResetsAndReports : Prop :=
  (∀ (cs : List Instr) (report : BitVec 4 → HostError)
    (value : State → Except HostError (List Byte)) (s t : State),
    issue (.rst :: cs) s = .next t → t.err ≠ 0#4 →
    runCall (.rst :: cs) report value s = { result := .error (report t.err), block := State.reset } ∧
    runCall (.rst :: cs) report value State.reset = runCall (.rst :: cs) report value s) ∧
  (∀ (c : List Byte) (k : Container) (s t : State), parse c = .ok k → k.length ≠ 0#64 →
    issue (decompressCommands k.length k.weights k.stream) s = .next t → t.err ≠ 0#4 →
    decompress c s =
      { result := .error (if t.err = 1#4 then .truncatedStream else if t.err = 2#4 then .corruptStream
          else .internalError t.err)
        block := State.reset } ∧
    decompress c State.reset = decompress c s) ∧
  (∀ (input : List Byte) (reject : Bool) (s : State),
    (compress input reject s).result ≠ .error .blockStopped → (compress input reject s).block.err = 0#4)
end

