-- ==== Sys2Proof/Laws/State.lean ====
section
/-!
SUPPORT. What each field reads after each named update of the state, true by definition; and the
field lemmas of the two updates that run over a list (`emitAll`, `appendBits`).
-/

namespace Sys2Proof.Machine

@[simp] theorem emit_freq (b : Byte) (s : State) : (emit b s).freq = s.freq := rfl
@[simp] theorem emit_w (b : Byte) (s : State) : (emit b s).w = s.w := rfl
@[simp] theorem emit_codeBits (b : Byte) (s : State) : (emit b s).codeBits = s.codeBits := rfl
@[simp] theorem emit_codeLen (b : Byte) (s : State) : (emit b s).codeLen = s.codeLen := rfl
@[simp] theorem emit_node (b : Byte) (s : State) : (emit b s).node = s.node := rfl
@[simp] theorem emit_root (b : Byte) (s : State) : (emit b s).root = s.root := rfl
@[simp] theorem emit_nsym (b : Byte) (s : State) : (emit b s).nsym = s.nsym := rfl
@[simp] theorem emit_nnode (b : Byte) (s : State) : (emit b s).nnode = s.nnode := rfl
@[simp] theorem emit_nacc (b : Byte) (s : State) : (emit b s).nacc = s.nacc := rfl
@[simp] theorem emit_acc (b : Byte) (s : State) : (emit b s).acc = s.acc := rfl
@[simp] theorem emit_nbits (b : Byte) (s : State) : (emit b s).nbits = s.nbits := rfl
@[simp] theorem emit_out (b : Byte) (s : State) : (emit b s).out = s.out ++ [b] := rfl
@[simp] theorem emit_outcnt (b : Byte) (s : State) : (emit b s).outcnt = s.outcnt + 1#64 := rfl
@[simp] theorem emit_remain (b : Byte) (s : State) : (emit b s).remain = s.remain := rfl
@[simp] theorem emit_cur (b : Byte) (s : State) : (emit b s).cur = s.cur := rfl
@[simp] theorem emit_tv (b : Byte) (s : State) : (emit b s).tv = s.tv := rfl
@[simp] theorem emit_cv (b : Byte) (s : State) : (emit b s).cv = s.cv := rfl
@[simp] theorem emit_err (b : Byte) (s : State) : (emit b s).err = s.err := rfl
@[simp] theorem emit_errinfo (b : Byte) (s : State) : (emit b s).errinfo = s.errinfo := rfl
@[simp] theorem emit_port (b : Byte) (s : State) : (emit b s).port = s.port := rfl

@[simp] theorem raiseFault_freq (f : FaultName) (v : Word) (s : State) : (raiseFault f v s).freq = s.freq := rfl
@[simp] theorem raiseFault_w (f : FaultName) (v : Word) (s : State) : (raiseFault f v s).w = s.w := rfl
@[simp] theorem raiseFault_codeBits (f : FaultName) (v : Word) (s : State) : (raiseFault f v s).codeBits = s.codeBits := rfl
@[simp] theorem raiseFault_codeLen (f : FaultName) (v : Word) (s : State) : (raiseFault f v s).codeLen = s.codeLen := rfl
@[simp] theorem raiseFault_node (f : FaultName) (v : Word) (s : State) : (raiseFault f v s).node = s.node := rfl
@[simp] theorem raiseFault_root (f : FaultName) (v : Word) (s : State) : (raiseFault f v s).root = s.root := rfl
@[simp] theorem raiseFault_nsym (f : FaultName) (v : Word) (s : State) : (raiseFault f v s).nsym = s.nsym := rfl
@[simp] theorem raiseFault_nnode (f : FaultName) (v : Word) (s : State) : (raiseFault f v s).nnode = s.nnode := rfl
@[simp] theorem raiseFault_nacc (f : FaultName) (v : Word) (s : State) : (raiseFault f v s).nacc = s.nacc := rfl
@[simp] theorem raiseFault_acc (f : FaultName) (v : Word) (s : State) : (raiseFault f v s).acc = s.acc := rfl
@[simp] theorem raiseFault_nbits (f : FaultName) (v : Word) (s : State) : (raiseFault f v s).nbits = s.nbits := rfl
@[simp] theorem raiseFault_out (f : FaultName) (v : Word) (s : State) : (raiseFault f v s).out = s.out := rfl
@[simp] theorem raiseFault_outcnt (f : FaultName) (v : Word) (s : State) : (raiseFault f v s).outcnt = s.outcnt := rfl
@[simp] theorem raiseFault_remain (f : FaultName) (v : Word) (s : State) : (raiseFault f v s).remain = s.remain := rfl
@[simp] theorem raiseFault_cur (f : FaultName) (v : Word) (s : State) : (raiseFault f v s).cur = s.cur := rfl
@[simp] theorem raiseFault_tv (f : FaultName) (v : Word) (s : State) : (raiseFault f v s).tv = s.tv := rfl
@[simp] theorem raiseFault_cv (f : FaultName) (v : Word) (s : State) : (raiseFault f v s).cv = s.cv := rfl
@[simp] theorem raiseFault_err (f : FaultName) (v : Word) (s : State) : (raiseFault f v s).err = faultCode f := rfl
@[simp] theorem raiseFault_errinfo (f : FaultName) (v : Word) (s : State) : (raiseFault f v s).errinfo = v := rfl
@[simp] theorem raiseFault_port (f : FaultName) (v : Word) (s : State) : (raiseFault f v s).port = s.port := rfl

@[simp] theorem clearValid_freq (s : State) : (clearValid s).freq = s.freq := rfl
@[simp] theorem clearValid_w (s : State) : (clearValid s).w = s.w := rfl
@[simp] theorem clearValid_codeBits (s : State) : (clearValid s).codeBits = s.codeBits := rfl
@[simp] theorem clearValid_codeLen (s : State) : (clearValid s).codeLen = s.codeLen := rfl
@[simp] theorem clearValid_node (s : State) : (clearValid s).node = s.node := rfl
@[simp] theorem clearValid_root (s : State) : (clearValid s).root = s.root := rfl
@[simp] theorem clearValid_nsym (s : State) : (clearValid s).nsym = s.nsym := rfl
@[simp] theorem clearValid_nnode (s : State) : (clearValid s).nnode = s.nnode := rfl
@[simp] theorem clearValid_nacc (s : State) : (clearValid s).nacc = s.nacc := rfl
@[simp] theorem clearValid_acc (s : State) : (clearValid s).acc = s.acc := rfl
@[simp] theorem clearValid_nbits (s : State) : (clearValid s).nbits = s.nbits := rfl
@[simp] theorem clearValid_out (s : State) : (clearValid s).out = s.out := rfl
@[simp] theorem clearValid_outcnt (s : State) : (clearValid s).outcnt = s.outcnt := rfl
@[simp] theorem clearValid_remain (s : State) : (clearValid s).remain = s.remain := rfl
@[simp] theorem clearValid_cur (s : State) : (clearValid s).cur = s.cur := rfl
@[simp] theorem clearValid_tv (s : State) : (clearValid s).tv = false := rfl
@[simp] theorem clearValid_cv (s : State) : (clearValid s).cv = false := rfl
@[simp] theorem clearValid_err (s : State) : (clearValid s).err = s.err := rfl
@[simp] theorem clearValid_errinfo (s : State) : (clearValid s).errinfo = s.errinfo := rfl
@[simp] theorem clearValid_port (s : State) : (clearValid s).port = s.port := rfl

@[simp] theorem installTree_freq (t : Tree) (s : State) : (installTree t s).freq = s.freq := rfl
@[simp] theorem installTree_w (t : Tree) (s : State) : (installTree t s).w = s.w := rfl
@[simp] theorem installTree_codeBits (t : Tree) (s : State) : (installTree t s).codeBits = s.codeBits := rfl
@[simp] theorem installTree_codeLen (t : Tree) (s : State) : (installTree t s).codeLen = s.codeLen := rfl
@[simp] theorem installTree_node (t : Tree) (s : State) : (installTree t s).node = t.node := rfl
@[simp] theorem installTree_root (t : Tree) (s : State) : (installTree t s).root = t.root := rfl
@[simp] theorem installTree_nsym (t : Tree) (s : State) : (installTree t s).nsym = t.nsym := rfl
@[simp] theorem installTree_nnode (t : Tree) (s : State) : (installTree t s).nnode = t.nnode := rfl
@[simp] theorem installTree_nacc (t : Tree) (s : State) : (installTree t s).nacc = s.nacc := rfl
@[simp] theorem installTree_acc (t : Tree) (s : State) : (installTree t s).acc = s.acc := rfl
@[simp] theorem installTree_nbits (t : Tree) (s : State) : (installTree t s).nbits = s.nbits := rfl
@[simp] theorem installTree_out (t : Tree) (s : State) : (installTree t s).out = s.out := rfl
@[simp] theorem installTree_outcnt (t : Tree) (s : State) : (installTree t s).outcnt = s.outcnt := rfl
@[simp] theorem installTree_remain (t : Tree) (s : State) : (installTree t s).remain = s.remain := rfl
@[simp] theorem installTree_cur (t : Tree) (s : State) : (installTree t s).cur = t.root := rfl
@[simp] theorem installTree_tv (t : Tree) (s : State) : (installTree t s).tv = true := rfl
@[simp] theorem installTree_cv (t : Tree) (s : State) : (installTree t s).cv = false := rfl
@[simp] theorem installTree_err (t : Tree) (s : State) : (installTree t s).err = s.err := rfl
@[simp] theorem installTree_errinfo (t : Tree) (s : State) : (installTree t s).errinfo = s.errinfo := rfl
@[simp] theorem installTree_port (t : Tree) (s : State) : (installTree t s).port = s.port := rfl

@[simp] theorem installCodes_freq (t : CodeTable) (s : State) : (installCodes t s).freq = s.freq := rfl
@[simp] theorem installCodes_w (t : CodeTable) (s : State) : (installCodes t s).w = s.w := rfl
@[simp] theorem installCodes_codeBits (t : CodeTable) (s : State) : (installCodes t s).codeBits = t.bits := rfl
@[simp] theorem installCodes_codeLen (t : CodeTable) (s : State) : (installCodes t s).codeLen = t.len := rfl
@[simp] theorem installCodes_node (t : CodeTable) (s : State) : (installCodes t s).node = s.node := rfl
@[simp] theorem installCodes_root (t : CodeTable) (s : State) : (installCodes t s).root = s.root := rfl
@[simp] theorem installCodes_nsym (t : CodeTable) (s : State) : (installCodes t s).nsym = s.nsym := rfl
@[simp] theorem installCodes_nnode (t : CodeTable) (s : State) : (installCodes t s).nnode = s.nnode := rfl
@[simp] theorem installCodes_nacc (t : CodeTable) (s : State) : (installCodes t s).nacc = s.nacc := rfl
@[simp] theorem installCodes_acc (t : CodeTable) (s : State) : (installCodes t s).acc = s.acc := rfl
@[simp] theorem installCodes_nbits (t : CodeTable) (s : State) : (installCodes t s).nbits = s.nbits := rfl
@[simp] theorem installCodes_out (t : CodeTable) (s : State) : (installCodes t s).out = s.out := rfl
@[simp] theorem installCodes_outcnt (t : CodeTable) (s : State) : (installCodes t s).outcnt = s.outcnt := rfl
@[simp] theorem installCodes_remain (t : CodeTable) (s : State) : (installCodes t s).remain = s.remain := rfl
@[simp] theorem installCodes_cur (t : CodeTable) (s : State) : (installCodes t s).cur = s.cur := rfl
@[simp] theorem installCodes_tv (t : CodeTable) (s : State) : (installCodes t s).tv = s.tv := rfl
@[simp] theorem installCodes_cv (t : CodeTable) (s : State) : (installCodes t s).cv = true := rfl
@[simp] theorem installCodes_err (t : CodeTable) (s : State) : (installCodes t s).err = s.err := rfl
@[simp] theorem installCodes_errinfo (t : CodeTable) (s : State) : (installCodes t s).errinfo = s.errinfo := rfl
@[simp] theorem installCodes_port (t : CodeTable) (s : State) : (installCodes t s).port = s.port := rfl

@[simp] theorem declareCount_freq (n : Word) (s : State) : (declareCount n s).freq = s.freq := rfl
@[simp] theorem declareCount_w (n : Word) (s : State) : (declareCount n s).w = s.w := rfl
@[simp] theorem declareCount_codeBits (n : Word) (s : State) : (declareCount n s).codeBits = s.codeBits := rfl
@[simp] theorem declareCount_codeLen (n : Word) (s : State) : (declareCount n s).codeLen = s.codeLen := rfl
@[simp] theorem declareCount_node (n : Word) (s : State) : (declareCount n s).node = s.node := rfl
@[simp] theorem declareCount_root (n : Word) (s : State) : (declareCount n s).root = s.root := rfl
@[simp] theorem declareCount_nsym (n : Word) (s : State) : (declareCount n s).nsym = s.nsym := rfl
@[simp] theorem declareCount_nnode (n : Word) (s : State) : (declareCount n s).nnode = s.nnode := rfl
@[simp] theorem declareCount_nacc (n : Word) (s : State) : (declareCount n s).nacc = s.nacc := rfl
@[simp] theorem declareCount_acc (n : Word) (s : State) : (declareCount n s).acc = s.acc := rfl
@[simp] theorem declareCount_nbits (n : Word) (s : State) : (declareCount n s).nbits = s.nbits := rfl
@[simp] theorem declareCount_out (n : Word) (s : State) : (declareCount n s).out = s.out := rfl
@[simp] theorem declareCount_outcnt (n : Word) (s : State) : (declareCount n s).outcnt = s.outcnt := rfl
@[simp] theorem declareCount_remain (n : Word) (s : State) : (declareCount n s).remain = n := rfl
@[simp] theorem declareCount_cur (n : Word) (s : State) : (declareCount n s).cur = s.root := rfl
@[simp] theorem declareCount_tv (n : Word) (s : State) : (declareCount n s).tv = s.tv := rfl
@[simp] theorem declareCount_cv (n : Word) (s : State) : (declareCount n s).cv = s.cv := rfl
@[simp] theorem declareCount_err (n : Word) (s : State) : (declareCount n s).err = s.err := rfl
@[simp] theorem declareCount_errinfo (n : Word) (s : State) : (declareCount n s).errinfo = s.errinfo := rfl
@[simp] theorem declareCount_port (n : Word) (s : State) : (declareCount n s).port = s.port := rfl

@[simp] theorem presentFirst_freq (x : Input) (s : State) : (presentFirst x s).freq = s.freq := rfl
@[simp] theorem presentFirst_w (x : Input) (s : State) : (presentFirst x s).w = s.w := rfl
@[simp] theorem presentFirst_codeBits (x : Input) (s : State) : (presentFirst x s).codeBits = s.codeBits := rfl
@[simp] theorem presentFirst_codeLen (x : Input) (s : State) : (presentFirst x s).codeLen = s.codeLen := rfl
@[simp] theorem presentFirst_node (x : Input) (s : State) : (presentFirst x s).node = s.node := rfl
@[simp] theorem presentFirst_root (x : Input) (s : State) : (presentFirst x s).root = s.root := rfl
@[simp] theorem presentFirst_nsym (x : Input) (s : State) : (presentFirst x s).nsym = s.nsym := rfl
@[simp] theorem presentFirst_nnode (x : Input) (s : State) : (presentFirst x s).nnode = s.nnode := rfl
@[simp] theorem presentFirst_nacc (x : Input) (s : State) : (presentFirst x s).nacc = s.nacc := rfl
@[simp] theorem presentFirst_acc (x : Input) (s : State) : (presentFirst x s).acc = s.acc := rfl
@[simp] theorem presentFirst_nbits (x : Input) (s : State) : (presentFirst x s).nbits = s.nbits := rfl
@[simp] theorem presentFirst_out (x : Input) (s : State) : (presentFirst x s).out = s.out := rfl
@[simp] theorem presentFirst_outcnt (x : Input) (s : State) : (presentFirst x s).outcnt = s.outcnt := rfl
@[simp] theorem presentFirst_remain (x : Input) (s : State) : (presentFirst x s).remain = s.remain := rfl
@[simp] theorem presentFirst_cur (x : Input) (s : State) : (presentFirst x s).cur = s.cur := rfl
@[simp] theorem presentFirst_tv (x : Input) (s : State) : (presentFirst x s).tv = s.tv := rfl
@[simp] theorem presentFirst_cv (x : Input) (s : State) : (presentFirst x s).cv = s.cv := rfl
@[simp] theorem presentFirst_err (x : Input) (s : State) : (presentFirst x s).err = s.err := rfl
@[simp] theorem presentFirst_errinfo (x : Input) (s : State) : (presentFirst x s).errinfo = s.errinfo := rfl
@[simp] theorem presentFirst_port (x : Input) (s : State) : (presentFirst x s).port = x :: s.port := rfl

@[simp] theorem resetBlock_freq (s : State) : (resetBlock s).freq = State.reset.freq := rfl
@[simp] theorem resetBlock_w (s : State) : (resetBlock s).w = State.reset.w := rfl
@[simp] theorem resetBlock_codeBits (s : State) : (resetBlock s).codeBits = State.reset.codeBits := rfl
@[simp] theorem resetBlock_codeLen (s : State) : (resetBlock s).codeLen = State.reset.codeLen := rfl
@[simp] theorem resetBlock_node (s : State) : (resetBlock s).node = State.reset.node := rfl
@[simp] theorem resetBlock_root (s : State) : (resetBlock s).root = State.reset.root := rfl
@[simp] theorem resetBlock_nsym (s : State) : (resetBlock s).nsym = State.reset.nsym := rfl
@[simp] theorem resetBlock_nnode (s : State) : (resetBlock s).nnode = State.reset.nnode := rfl
@[simp] theorem resetBlock_nacc (s : State) : (resetBlock s).nacc = State.reset.nacc := rfl
@[simp] theorem resetBlock_acc (s : State) : (resetBlock s).acc = State.reset.acc := rfl
@[simp] theorem resetBlock_nbits (s : State) : (resetBlock s).nbits = State.reset.nbits := rfl
@[simp] theorem resetBlock_out (s : State) : (resetBlock s).out = State.reset.out := rfl
@[simp] theorem resetBlock_outcnt (s : State) : (resetBlock s).outcnt = State.reset.outcnt := rfl
@[simp] theorem resetBlock_remain (s : State) : (resetBlock s).remain = State.reset.remain := rfl
@[simp] theorem resetBlock_cur (s : State) : (resetBlock s).cur = State.reset.cur := rfl
@[simp] theorem resetBlock_tv (s : State) : (resetBlock s).tv = State.reset.tv := rfl
@[simp] theorem resetBlock_cv (s : State) : (resetBlock s).cv = State.reset.cv := rfl
@[simp] theorem resetBlock_err (s : State) : (resetBlock s).err = State.reset.err := rfl
@[simp] theorem resetBlock_errinfo (s : State) : (resetBlock s).errinfo = State.reset.errinfo := rfl
@[simp] theorem resetBlock_port (s : State) : (resetBlock s).port = s.port := rfl

@[simp] theorem emitAll_freq (bs : List Byte) (s : State) : (emitAll bs s).freq = s.freq := by
  induction bs generalizing s with
  | nil => rfl
  | cons b bs ih => exact ih _
@[simp] theorem emitAll_w (bs : List Byte) (s : State) : (emitAll bs s).w = s.w := by
  induction bs generalizing s with
  | nil => rfl
  | cons b bs ih => exact ih _
@[simp] theorem emitAll_codeBits (bs : List Byte) (s : State) : (emitAll bs s).codeBits = s.codeBits := by
  induction bs generalizing s with
  | nil => rfl
  | cons b bs ih => exact ih _
@[simp] theorem emitAll_codeLen (bs : List Byte) (s : State) : (emitAll bs s).codeLen = s.codeLen := by
  induction bs generalizing s with
  | nil => rfl
  | cons b bs ih => exact ih _
@[simp] theorem emitAll_node (bs : List Byte) (s : State) : (emitAll bs s).node = s.node := by
  induction bs generalizing s with
  | nil => rfl
  | cons b bs ih => exact ih _
@[simp] theorem emitAll_root (bs : List Byte) (s : State) : (emitAll bs s).root = s.root := by
  induction bs generalizing s with
  | nil => rfl
  | cons b bs ih => exact ih _
@[simp] theorem emitAll_nsym (bs : List Byte) (s : State) : (emitAll bs s).nsym = s.nsym := by
  induction bs generalizing s with
  | nil => rfl
  | cons b bs ih => exact ih _
@[simp] theorem emitAll_nnode (bs : List Byte) (s : State) : (emitAll bs s).nnode = s.nnode := by
  induction bs generalizing s with
  | nil => rfl
  | cons b bs ih => exact ih _
@[simp] theorem emitAll_nacc (bs : List Byte) (s : State) : (emitAll bs s).nacc = s.nacc := by
  induction bs generalizing s with
  | nil => rfl
  | cons b bs ih => exact ih _
@[simp] theorem emitAll_acc (bs : List Byte) (s : State) : (emitAll bs s).acc = s.acc := by
  induction bs generalizing s with
  | nil => rfl
  | cons b bs ih => exact ih _
@[simp] theorem emitAll_nbits (bs : List Byte) (s : State) : (emitAll bs s).nbits = s.nbits := by
  induction bs generalizing s with
  | nil => rfl
  | cons b bs ih => exact ih _
@[simp] theorem emitAll_remain (bs : List Byte) (s : State) : (emitAll bs s).remain = s.remain := by
  induction bs generalizing s with
  | nil => rfl
  | cons b bs ih => exact ih _
@[simp] theorem emitAll_cur (bs : List Byte) (s : State) : (emitAll bs s).cur = s.cur := by
  induction bs generalizing s with
  | nil => rfl
  | cons b bs ih => exact ih _
@[simp] theorem emitAll_tv (bs : List Byte) (s : State) : (emitAll bs s).tv = s.tv := by
  induction bs generalizing s with
  | nil => rfl
  | cons b bs ih => exact ih _
@[simp] theorem emitAll_cv (bs : List Byte) (s : State) : (emitAll bs s).cv = s.cv := by
  induction bs generalizing s with
  | nil => rfl
  | cons b bs ih => exact ih _
@[simp] theorem emitAll_err (bs : List Byte) (s : State) : (emitAll bs s).err = s.err := by
  induction bs generalizing s with
  | nil => rfl
  | cons b bs ih => exact ih _
@[simp] theorem emitAll_errinfo (bs : List Byte) (s : State) : (emitAll bs s).errinfo = s.errinfo := by
  induction bs generalizing s with
  | nil => rfl
  | cons b bs ih => exact ih _
@[simp] theorem emitAll_port (bs : List Byte) (s : State) : (emitAll bs s).port = s.port := by
  induction bs generalizing s with
  | nil => rfl
  | cons b bs ih => exact ih _

@[simp] theorem emitAll_out (bs : List Byte) (s : State) : (emitAll bs s).out = s.out ++ bs := by
  induction bs generalizing s with
  | nil => simp [emitAll]
  | cons b bs ih => simp [emitAll, ih]

@[simp] theorem emitAll_outcnt (bs : List Byte) (s : State) :
    (emitAll bs s).outcnt = s.outcnt + BitVec.ofNat 64 bs.length := by
  induction bs generalizing s with
  | nil => simp [emitAll]
  | cons b bs ih =>
    simp only [emitAll, ih, emit_outcnt, List.length_cons]
    rw [BitVec.add_assoc]
    congr 1
    rw [Nat.add_comm, BitVec.ofNat_add]

@[simp] theorem appendBit_freq (x : Bool) (s : State) : (appendBit x s).freq = s.freq := by
  unfold appendBit; dsimp only; split <;> rfl
@[simp] theorem appendBits_freq (xs : List Bool) (s : State) : (appendBits xs s).freq = s.freq := by
  induction xs generalizing s with
  | nil => rfl
  | cons x xs ih => simp [appendBits, ih]
@[simp] theorem flushPacker_freq (s : State) : (flushPacker s).freq = s.freq := by
  unfold flushPacker; split <;> rfl
@[simp] theorem appendBit_w (x : Bool) (s : State) : (appendBit x s).w = s.w := by
  unfold appendBit; dsimp only; split <;> rfl
@[simp] theorem appendBits_w (xs : List Bool) (s : State) : (appendBits xs s).w = s.w := by
  induction xs generalizing s with
  | nil => rfl
  | cons x xs ih => simp [appendBits, ih]
@[simp] theorem flushPacker_w (s : State) : (flushPacker s).w = s.w := by
  unfold flushPacker; split <;> rfl
@[simp] theorem appendBit_codeBits (x : Bool) (s : State) : (appendBit x s).codeBits = s.codeBits := by
  unfold appendBit; dsimp only; split <;> rfl
@[simp] theorem appendBits_codeBits (xs : List Bool) (s : State) : (appendBits xs s).codeBits = s.codeBits := by
  induction xs generalizing s with
  | nil => rfl
  | cons x xs ih => simp [appendBits, ih]
@[simp] theorem flushPacker_codeBits (s : State) : (flushPacker s).codeBits = s.codeBits := by
  unfold flushPacker; split <;> rfl
@[simp] theorem appendBit_codeLen (x : Bool) (s : State) : (appendBit x s).codeLen = s.codeLen := by
  unfold appendBit; dsimp only; split <;> rfl
@[simp] theorem appendBits_codeLen (xs : List Bool) (s : State) : (appendBits xs s).codeLen = s.codeLen := by
  induction xs generalizing s with
  | nil => rfl
  | cons x xs ih => simp [appendBits, ih]
@[simp] theorem flushPacker_codeLen (s : State) : (flushPacker s).codeLen = s.codeLen := by
  unfold flushPacker; split <;> rfl
@[simp] theorem appendBit_node (x : Bool) (s : State) : (appendBit x s).node = s.node := by
  unfold appendBit; dsimp only; split <;> rfl
@[simp] theorem appendBits_node (xs : List Bool) (s : State) : (appendBits xs s).node = s.node := by
  induction xs generalizing s with
  | nil => rfl
  | cons x xs ih => simp [appendBits, ih]
@[simp] theorem flushPacker_node (s : State) : (flushPacker s).node = s.node := by
  unfold flushPacker; split <;> rfl
@[simp] theorem appendBit_root (x : Bool) (s : State) : (appendBit x s).root = s.root := by
  unfold appendBit; dsimp only; split <;> rfl
@[simp] theorem appendBits_root (xs : List Bool) (s : State) : (appendBits xs s).root = s.root := by
  induction xs generalizing s with
  | nil => rfl
  | cons x xs ih => simp [appendBits, ih]
@[simp] theorem flushPacker_root (s : State) : (flushPacker s).root = s.root := by
  unfold flushPacker; split <;> rfl
@[simp] theorem appendBit_nsym (x : Bool) (s : State) : (appendBit x s).nsym = s.nsym := by
  unfold appendBit; dsimp only; split <;> rfl
@[simp] theorem appendBits_nsym (xs : List Bool) (s : State) : (appendBits xs s).nsym = s.nsym := by
  induction xs generalizing s with
  | nil => rfl
  | cons x xs ih => simp [appendBits, ih]
@[simp] theorem flushPacker_nsym (s : State) : (flushPacker s).nsym = s.nsym := by
  unfold flushPacker; split <;> rfl
@[simp] theorem appendBit_nnode (x : Bool) (s : State) : (appendBit x s).nnode = s.nnode := by
  unfold appendBit; dsimp only; split <;> rfl
@[simp] theorem appendBits_nnode (xs : List Bool) (s : State) : (appendBits xs s).nnode = s.nnode := by
  induction xs generalizing s with
  | nil => rfl
  | cons x xs ih => simp [appendBits, ih]
@[simp] theorem flushPacker_nnode (s : State) : (flushPacker s).nnode = s.nnode := by
  unfold flushPacker; split <;> rfl
@[simp] theorem appendBit_nacc (x : Bool) (s : State) : (appendBit x s).nacc = s.nacc := by
  unfold appendBit; dsimp only; split <;> rfl
@[simp] theorem appendBits_nacc (xs : List Bool) (s : State) : (appendBits xs s).nacc = s.nacc := by
  induction xs generalizing s with
  | nil => rfl
  | cons x xs ih => simp [appendBits, ih]
@[simp] theorem flushPacker_nacc (s : State) : (flushPacker s).nacc = s.nacc := by
  unfold flushPacker; split <;> rfl
@[simp] theorem appendBit_remain (x : Bool) (s : State) : (appendBit x s).remain = s.remain := by
  unfold appendBit; dsimp only; split <;> rfl
@[simp] theorem appendBits_remain (xs : List Bool) (s : State) : (appendBits xs s).remain = s.remain := by
  induction xs generalizing s with
  | nil => rfl
  | cons x xs ih => simp [appendBits, ih]
@[simp] theorem flushPacker_remain (s : State) : (flushPacker s).remain = s.remain := by
  unfold flushPacker; split <;> rfl
@[simp] theorem appendBit_cur (x : Bool) (s : State) : (appendBit x s).cur = s.cur := by
  unfold appendBit; dsimp only; split <;> rfl
@[simp] theorem appendBits_cur (xs : List Bool) (s : State) : (appendBits xs s).cur = s.cur := by
  induction xs generalizing s with
  | nil => rfl
  | cons x xs ih => simp [appendBits, ih]
@[simp] theorem flushPacker_cur (s : State) : (flushPacker s).cur = s.cur := by
  unfold flushPacker; split <;> rfl
@[simp] theorem appendBit_tv (x : Bool) (s : State) : (appendBit x s).tv = s.tv := by
  unfold appendBit; dsimp only; split <;> rfl
@[simp] theorem appendBits_tv (xs : List Bool) (s : State) : (appendBits xs s).tv = s.tv := by
  induction xs generalizing s with
  | nil => rfl
  | cons x xs ih => simp [appendBits, ih]
@[simp] theorem flushPacker_tv (s : State) : (flushPacker s).tv = s.tv := by
  unfold flushPacker; split <;> rfl
@[simp] theorem appendBit_cv (x : Bool) (s : State) : (appendBit x s).cv = s.cv := by
  unfold appendBit; dsimp only; split <;> rfl
@[simp] theorem appendBits_cv (xs : List Bool) (s : State) : (appendBits xs s).cv = s.cv := by
  induction xs generalizing s with
  | nil => rfl
  | cons x xs ih => simp [appendBits, ih]
@[simp] theorem flushPacker_cv (s : State) : (flushPacker s).cv = s.cv := by
  unfold flushPacker; split <;> rfl
@[simp] theorem appendBit_err (x : Bool) (s : State) : (appendBit x s).err = s.err := by
  unfold appendBit; dsimp only; split <;> rfl
@[simp] theorem appendBits_err (xs : List Bool) (s : State) : (appendBits xs s).err = s.err := by
  induction xs generalizing s with
  | nil => rfl
  | cons x xs ih => simp [appendBits, ih]
@[simp] theorem flushPacker_err (s : State) : (flushPacker s).err = s.err := by
  unfold flushPacker; split <;> rfl
@[simp] theorem appendBit_errinfo (x : Bool) (s : State) : (appendBit x s).errinfo = s.errinfo := by
  unfold appendBit; dsimp only; split <;> rfl
@[simp] theorem appendBits_errinfo (xs : List Bool) (s : State) : (appendBits xs s).errinfo = s.errinfo := by
  induction xs generalizing s with
  | nil => rfl
  | cons x xs ih => simp [appendBits, ih]
@[simp] theorem flushPacker_errinfo (s : State) : (flushPacker s).errinfo = s.errinfo := by
  unfold flushPacker; split <;> rfl
@[simp] theorem appendBit_port (x : Bool) (s : State) : (appendBit x s).port = s.port := by
  unfold appendBit; dsimp only; split <;> rfl
@[simp] theorem appendBits_port (xs : List Bool) (s : State) : (appendBits xs s).port = s.port := by
  induction xs generalizing s with
  | nil => rfl
  | cons x xs ih => simp [appendBits, ih]
@[simp] theorem flushPacker_port (s : State) : (flushPacker s).port = s.port := by
  unfold flushPacker; split <;> rfl

/-- A state is its fields. -/
theorem State.ext_fields {s t : State} (h1 : s.freq = t.freq) (h2 : s.w = t.w)
    (h3 : s.codeBits = t.codeBits) (h4 : s.codeLen = t.codeLen) (h5 : s.node = t.node)
    (h6 : s.root = t.root) (h7 : s.nsym = t.nsym) (h8 : s.nnode = t.nnode) (h9 : s.nacc = t.nacc)
    (h10 : s.acc = t.acc) (h11 : s.nbits = t.nbits) (h12 : s.out = t.out)
    (h13 : s.outcnt = t.outcnt) (h14 : s.remain = t.remain) (h15 : s.cur = t.cur)
    (h16 : s.tv = t.tv) (h17 : s.cv = t.cv) (h18 : s.err = t.err) (h19 : s.errinfo = t.errinfo)
    (h20 : s.port = t.port) : s = t := by
  cases s; cases t; simp_all

end Sys2Proof.Machine
end

