-- ==== Sys2Proof/Laws/Ops.lean ====
section
/-!
SUPPORT. The shared operations: symbol files, the arena, the preamble of a command, the port.
-/

namespace Sys2Proof.Machine

/-! ## Symbol files -/

@[simp] theorem readSym_writeSym_same {α : Type} (f : SymFile α) (b : Byte) (v : α) :
    readSym (writeSym f b v) b = v := by
  simp [readSym, writeSym]

theorem readSym_writeSym_other {α : Type} (f : SymFile α) {b c : Byte} (v : α) (h : c ≠ b) :
    readSym (writeSym f b v) c = readSym f c := by
  have h' : b.toNat ≠ c.toNat := fun e => h (BitVec.eq_of_toNat_eq e.symm)
  simp [readSym, writeSym, h']

theorem readSym_writeSym {α : Type} (f : SymFile α) (b c : Byte) (v : α) :
    readSym (writeSym f b v) c = if c = b then v else readSym f c := by
  by_cases h : c = b
  · simp [h]
  · simp [h, readSym_writeSym_other f v h]

@[simp] theorem readSym_mapSym {α β : Type} (g : α → β) (f : SymFile α) (b : Byte) :
    readSym (mapSym g f) b = g (readSym f b) := by
  simp [readSym, mapSym]

@[simp] theorem readSym_fillSym {α : Type} (v : α) (b : Byte) : readSym (fillSym v) b = v := by
  simp [readSym, fillSym]

/-- Two files that read alike at every symbol are equal. -/
theorem symFile_ext {α : Type} {f g : SymFile α} (h : ∀ b : Byte, readSym f b = readSym g b) :
    f = g := by
  apply Vector.ext
  intro i hi
  have := h (BitVec.ofNat 8 i)
  simpa [readSym, Nat.mod_eq_of_lt hi] using this

/-! ## The arena -/

theorem nodeAt_of_lt (a : Arena) {i : NodeIx} (h : i.toNat < 511) : nodeAt a i = .ok a[i.toNat] := by
  simp [nodeAt, h]

theorem nodeAt_ok_iff (a : Arena) (i : NodeIx) (n : Node) :
    nodeAt a i = .ok n ↔ ∃ h : i.toNat < 511, a[i.toNat]'h = n := by
  unfold nodeAt
  split
  · simp [*]
  · simp [*]

theorem nodeAt_nil (a : Arena) : nodeAt a Config.nil = .error (.stuck .noSuchNode) := by
  simp [nodeAt]

/-- The arena read is the only way an arena access stops. -/
theorem nodeAt_error_iff (a : Arena) (i : NodeIx) (e : Stop) :
    nodeAt a i = .error e ↔ 511 ≤ i.toNat ∧ e = .stuck .noSuchNode := by
  unfold nodeAt
  split
  · simp; omega
  · simp [eq_comm]; omega

/-! ## The preamble of a command -/

theorem command_faulted (c : Instr) {s : State} (body : Except Stop State) (h : s.err ≠ 0#4) :
    command c s body = .next s := by
  simp [command, h]

theorem command_clear (c : Instr) {s : State} (body : Except Stop State) (h : s.err = 0#4) :
    command c s body = finish c s body := by
  simp [command, h]

/-- Everything a command that answers a next state can have done (R250, R252). -/
theorem command_next {c : Instr} {s t : State} {body : Except Stop State}
    (h : command c s body = .next t) :
    (s.err ≠ 0#4 ∧ t = s) ∨
    (s.err = 0#4 ∧ body = .ok t) ∨
    (s.err = 0#4 ∧ ∃ f, body = .error (.raise f) ∧ t = raiseFault f (encode c) s) := by
  unfold command at h
  split at h
  · next h0 =>
    cases body with
    | ok u =>
      have : u = t := by simpa [finish] using h
      exact .inr (.inl ⟨h0, by rw [this]⟩)
    | error e =>
      cases e with
      | raise f => exact .inr (.inr ⟨h0, f, rfl, by simpa [finish] using h.symm⟩)
      | stuck f => simp [finish] at h
  · next h0 => exact .inl ⟨h0, by simpa using h.symm⟩

/-- A command is never refused. -/
theorem command_not_refused (c : Instr) (s : State) (body : Except Stop State) (r : Refusal) :
    command c s body ≠ .refused r := by
  unfold command
  split
  · cases body with
    | ok u => simp [finish]
    | error e => cases e <;> simp [finish]
  · simp

/-- When a command stops the model. -/
theorem command_fault_iff (c : Instr) (s : State) (body : Except Stop State) (f : Fault) :
    command c s body = .fault f ↔ s.err = 0#4 ∧ body = .error (.stuck f) := by
  unfold command
  split
  · cases body with
    | ok u => simp [finish, *]
    | error e => cases e <;> simp [finish, *]
  · simp [*]

/-- A fault code is one of 1 to 6 (R246). -/
theorem faultCode_range (f : FaultName) : 1 ≤ (faultCode f).toNat ∧ (faultCode f).toNat ≤ 6 := by
  cases f <;> decide

theorem faultCode_ne_zero (f : FaultName) : faultCode f ≠ 0#4 := by cases f <;> decide

theorem faultCode_injective {f g : FaultName} (h : faultCode f = faultCode g) : f = g := by
  cases f <;> cases g <;> first | rfl | (exact absurd h (by decide))

/-! ## The port -/

theorem takeInput_nil {s : State} (h : s.port = []) : takeInput s = none := by
  simp [takeInput, h]

theorem takeInput_cons {s : State} {x : Input} {xs : List Input} (h : s.port = x :: xs) :
    takeInput s = some (x, { s with port := xs }) := by
  simp [takeInput, h]

/-- Everything one step can do (R61, R247, R252, R262, R280). -/
theorem step_cases (s : State) :
    (s.port = [] ∧ step s = .next s) ∨
    (∃ xs, s.port = .hardReset :: xs ∧ step s = .next (resetBlock { s with port := xs })) ∨
    (∃ word xs c, s.port = .command word :: xs ∧ decode word = .ok c ∧
      step s = exec c { s with port := xs }) ∨
    (∃ word xs e, s.port = .command word :: xs ∧ decode word = .error e ∧
      step s = .next (illegalWord word { s with port := xs })) := by
  match h : s.port with
  | [] => exact .inl ⟨rfl, by simp [step, takeInput_nil h]⟩
  | .hardReset :: xs => exact .inr (.inl ⟨xs, rfl, by simp [step, takeInput_cons h]⟩)
  | .command word :: xs =>
    match hd : decode word with
    | .ok c => exact .inr (.inr (.inl ⟨word, xs, c, rfl, hd, by simp [step, takeInput_cons h, hd]⟩))
    | .error e =>
      exact .inr (.inr (.inr ⟨word, xs, e, rfl, hd, by simp [step, takeInput_cons h, hd]⟩))

end Sys2Proof.Machine
end

