-- ==== Sys2Proof/Laws/Packer.lean ====
section
/-!
SUPPORT. Bit strings and the packer: what `AppendBit` does to the bits given so far (spec
43_bitpacker.md R172, 20_memory.md R67).
-/

namespace Sys2Proof.Machine

@[simp] theorem bitsDown_length {k : Nat} (v : BitVec k) (n : Nat) : (bitsDown v n).length = n := by
  induction n with
  | zero => rfl
  | succ n ih => simp [bitsDown, ih]

/-- The bits depend on the low bits of the value only. -/
theorem bitsDown_congr {k m : Nat} {v : BitVec k} {w : BitVec m} {n : Nat}
    (h : ∀ i, i < n → v.getLsbD i = w.getLsbD i) : bitsDown v n = bitsDown w n := by
  induction n with
  | zero => rfl
  | succ n ih => simp [bitsDown, h n (by omega), ih fun i hi => h i (by omega)]

theorem getLsbD_append (a : Byte) (x : Bool) {i : Nat} (hi : i < 8) :
    ((a <<< 1) ||| bitByte x).getLsbD i = if i = 0 then x else a.getLsbD (i - 1) := by
  cases x <;> rcases i with _ | i <;> simp [bitByte] <;> omega

/-- Appending a bit at the low end appends it to the bit string. -/
theorem bitsDown_append (a : Byte) (x : Bool) {n : Nat} (hn : n < 8) :
    bitsDown ((a <<< 1) ||| bitByte x) (n + 1) = bitsDown a n ++ [x] := by
  induction n with
  | zero => cases x <;> simp [bitsDown, bitByte]
  | succ n ih =>
    rw [bitsDown, ih (by omega), getLsbD_append a x (by omega)]
    simp [bitsDown]

/-- `AppendBit` appends its bit to the bits given so far (R172). -/
@[simp] theorem streamBits_appendBit (x : Bool) (s : State) :
    streamBits (appendBit x s) = streamBits s ++ [x] := by
  have hb : s.nbits.toNat < 8 := s.nbits.isLt
  unfold appendBit
  dsimp only
  split
  · next h =>
    have h7 : s.nbits.toNat = 7 := by omega
    have h8 := bitsDown_append s.acc x (n := 7) (by omega)
    simp only [streamBits, emit_out, emit_acc, emit_nbits, List.flatMap_append, List.flatMap_cons,
      List.flatMap_nil, List.append_nil, byteBits, h8, h7]
    simp [bitsDown]
  · next h =>
    have h1 : (s.nbits + 1#3).toNat = s.nbits.toNat + 1 := by
      simp [BitVec.toNat_add]; omega
    simp [streamBits, h1, bitsDown_append _ _ hb]

@[simp] theorem streamBits_appendBits (xs : List Bool) (s : State) :
    streamBits (appendBits xs s) = streamBits s ++ xs := by
  induction xs generalizing s with
  | nil => simp [appendBits]
  | cons x xs ih => simp [appendBits, ih]

theorem or_bitByte_toNat_lt (a : Byte) (x : Bool) {n : Nat} (ha : a.toNat < 2 ^ n) :
    ((a <<< 1) ||| bitByte x).toNat < 2 ^ (n + 1) := by
  have hx : (bitByte x).toNat < 2 ^ (n + 1) := by
    have : 2 ≤ 2 ^ (n + 1) := by rw [Nat.pow_succ]; have := Nat.one_le_two_pow (n := n); omega
    cases x <;> simp [bitByte]
  rw [BitVec.toNat_or]
  apply Nat.or_lt_two_pow _ hx
  rw [BitVec.toNat_shiftLeft, Nat.shiftLeft_eq, Nat.pow_succ]
  exact lt_of_le_of_lt (Nat.mod_le _ _) (by omega)

/-- `AppendBit` keeps R40 item 1. -/
theorem packerFits_appendBit (x : Bool) {s : State} (h : PackerFits s) : PackerFits (appendBit x s) := by
  have hb : s.nbits.toNat < 8 := s.nbits.isLt
  unfold appendBit PackerFits
  dsimp only
  split
  · simp
  · next h' =>
    have h1 : (s.nbits + 1#3).toNat = s.nbits.toNat + 1 := by
      simp [BitVec.toNat_add]; omega
    rw [h1]
    exact or_bitByte_toNat_lt _ _ h

theorem packerFits_appendBits (xs : List Bool) {s : State} (h : PackerFits s) :
    PackerFits (appendBits xs s) := by
  induction xs generalizing s with
  | nil => exact h
  | cons x xs ih => exact ih (packerFits_appendBit x h)

/-- `AppendBit` keeps R40 item 10. -/
theorem outIsCounted_appendBit (x : Bool) {s : State} (h : OutIsCounted s) :
    OutIsCounted (appendBit x s) := by
  unfold appendBit OutIsCounted at *
  dsimp only
  split
  · simp [h, BitVec.ofNat_add]
  · exact h

theorem outIsCounted_appendBits (xs : List Bool) {s : State} (h : OutIsCounted s) :
    OutIsCounted (appendBits xs s) := by
  induction xs generalizing s with
  | nil => exact h
  | cons x xs ih => exact ih (outIsCounted_appendBit x h)

/-- How many bytes are in `OUT` after appending: one for each eight bits gathered (R172, R174). -/
theorem appendBits_gathered (xs : List Bool) (s : State) :
    8 * (appendBits xs s).out.length + (appendBits xs s).nbits.toNat =
      8 * s.out.length + s.nbits.toNat + xs.length := by
  have h := congrArg List.length (streamBits_appendBits xs s)
  have h8 (bs : List Byte) : (bs.flatMap byteBits).length = 8 * bs.length := by
    induction bs with
    | nil => rfl
    | cons b bs ih => simp [ih, byteBits]; omega
  simp only [streamBits, List.length_append, h8, bitsDown_length] at h
  omega

end Sys2Proof.Machine
end

