-- ==== Sys2Proof/Laws/CodeTable.lean ====
section
/-!
SUPPORT. The recursion of `CGEN` and paths in the tree (spec 42_codetable.md R160 to R163,
10_state.md R23).
-/

namespace Sys2Proof.Machine

/-! ## Paths -/

theorem Path.trans {a : Arena} {i j k : NodeIx} {p q : List Bool} (h1 : Path a i p j)
    (h2 : Path a j q k) : Path a i (p ++ q) k := by
  induction h1 with
  | here i => exact h2
  | edge at_ internal rest ih => exact .edge at_ internal (ih h2)

/-- Where a path of one edge more leads. -/
theorem Path.snoc {a : Arena} {i j : NodeIx} {p : List Bool} {n : Node} {x : Bool}
    (h : Path a i p j) (hn : nodeAt a j = .ok n) (hi : n.leaf = false) :
    Path a i (p ++ [x]) (childOf n x) :=
  h.trans (.edge hn hi (.here _))

/-- From one node the bits lead to one node. -/
theorem Path.unique {a : Arena} {i j k : NodeIx} {p : List Bool} (h1 : Path a i p j)
    (h2 : Path a i p k) : j = k := by
  induction h1 with
  | here i => cases h2; rfl
  | edge at_ internal rest ih =>
    cases h2 with
    | edge at2 _ rest2 =>
      rw [at_] at at2
      cases at2
      exact ih rest2

/-- No path leaves a leaf. -/
theorem Path.of_leaf {a : Arena} {i j : NodeIx} {p : List Bool} {n : Node} (h : Path a i p j)
    (hn : nodeAt a i = .ok n) (hl : n.leaf = true) : p = [] ∧ j = i := by
  cases h with
  | here i => exact ⟨rfl, rfl⟩
  | edge at_ internal rest =>
    rw [hn] at at_
    cases at_
    simp [hl] at internal

/-- Of two paths to leaves neither goes on from the other: the root-to-leaf paths of one tree are
free of one another as initial parts (R101). -/
theorem Path.leaf_not_extended {a : Arena} {i j k : NodeIx} {p q : List Bool} {n : Node}
    (h1 : Path a i p j) (hn : nodeAt a j = .ok n) (hl : n.leaf = true)
    (h2 : Path a i (p ++ q) k) : q = [] := by
  induction h1 with
  | here i => exact (Path.of_leaf h2 hn hl).1
  | edge at_ internal rest ih =>
    cases h2 with
    | edge at2 _ rest2 =>
      rw [at_] at at2
      cases at2
      exact ih hn rest2

/-! ## Patterns (R23) -/

theorem patternOf_append (bits : List Bool) (x : Bool) :
    patternOf (bits ++ [x]) = (patternOf bits <<< 1) ||| bitWord x := by
  simp [patternOf]

/-! ## The recursion (R160) -/

/-- Everything a visit that completes can have done. -/
theorem visit_ok {a : Arena} {fuel : Nat} {i : NodeIx} {p : Word} {d : Nat} {t u : CodeTable}
    (h : visit a fuel i p d t = .ok u) :
    ∃ f n, fuel = f + 1 ∧ nodeAt a i = .ok n ∧
      ((n.leaf = true ∧ n.ph = true ∧ u = t) ∨
       (n.leaf = true ∧ n.ph = false ∧ d ≤ 64 ∧ u = setCode t n.sym p d) ∨
       (n.leaf = false ∧ ∃ m, visit a f n.left (p <<< 1) (d + 1) t = .ok m ∧
          visit a f n.right ((p <<< 1) ||| 1#64) (d + 1) m = .ok u)) := by
  cases fuel with
  | zero => simp [visit] at h
  | succ f =>
    cases hn : nodeAt a i with
    | error e => simp [visit, hn] at h
    | ok n =>
      refine ⟨f, n, rfl, rfl, ?_⟩
      cases hl : n.leaf with
      | true =>
        cases hp : n.ph with
        | true => simp [visit, hn, hl, hp] at h; simp [h]
        | false =>
          by_cases hd : d > 64
          · simp [visit, hn, hl, hp, hd] at h
          · simp [visit, hn, hl, hp, hd] at h
            simp [h]; omega
      | false =>
        cases hm : visit a f n.left (p <<< 1) (d + 1) t with
        | error e => simp [visit, hn, hl, hm] at h
        | ok m => simp [visit, hn, hl, hm] at h; simp [h]

/-- The two branches of a visit of an internal node. -/
theorem visit_internal {a : Arena} {fuel : Nat} {i : NodeIx} {n : Node} (p : Word) (d : Nat)
    (t : CodeTable) (hn : nodeAt a i = .ok n) (hl : n.leaf = false) :
    visit a (fuel + 1) i p d t =
      match visit a fuel n.left (p <<< 1) (d + 1) t with
      | .error e => .error e
      | .ok m => visit a fuel n.right ((p <<< 1) ||| 1#64) (d + 1) m := by
  conv => lhs; unfold visit
  simp only [hn, hl]
  rfl

/-- A visit that completes has met no real leaf deeper than 64 (R163). -/
theorem visit_ok_depth {a : Arena} {fuel : Nat} {i : NodeIx} {p : Word} {d : Nat} {t u : CodeTable}
    {bits : List Bool} {b : Byte} (h : visit a fuel i p d t = .ok u) (hb : CodePath a i bits b) :
    d + bits.length ≤ 64 := by
  induction fuel generalizing i p d t u bits with
  | zero => simp [visit] at h
  | succ f ih =>
    obtain ⟨f', n, hf, hn, h⟩ := visit_ok h
    cases hf
    obtain ⟨j, hp, m, hm, hl, hph, rfl⟩ := hb
    rcases h with ⟨l1, l2, _⟩ | ⟨l1, _, hd, _⟩ | ⟨l1, k, h1, h2⟩
    · obtain ⟨rfl, rfl⟩ := Path.of_leaf hp hn l1
      rw [hn] at hm; cases hm; simp [l2] at hph
    · obtain ⟨rfl, rfl⟩ := Path.of_leaf hp hn l1
      simpa using hd
    · cases hp with
      | here => rw [hn] at hm; cases hm; simp [l1] at hl
      | @edge _ _ n' x bits at_ internal rest =>
        rw [hn] at at_; cases at_
        have : d + 1 + bits.length ≤ 64 := by
          cases x
          · exact ih h1 ⟨j, rest, m, hm, hl, hph, rfl⟩
          · exact ih h2 ⟨j, rest, m, hm, hl, hph, rfl⟩
        simp; omega

/-- A visit changes the codes of symbols with a real leaf below the node only. -/
theorem visit_other {a : Arena} {fuel : Nat} {i : NodeIx} {p : Word} {d : Nat} {t u : CodeTable}
    {b : Byte} (h : visit a fuel i p d t = .ok u) (hb : ∀ bits, ¬ CodePath a i bits b) :
    readSym u.bits b = readSym t.bits b ∧ readSym u.len b = readSym t.len b := by
  induction fuel generalizing i p d t u with
  | zero => simp [visit] at h
  | succ f ih =>
    obtain ⟨f', n, hf, hn, h⟩ := visit_ok h
    cases hf
    rcases h with ⟨_, _, rfl⟩ | ⟨hl, hp, _, rfl⟩ | ⟨hl, m, h1, h2⟩
    · exact ⟨rfl, rfl⟩
    · have hne : b ≠ n.sym := fun e => hb [] ⟨i, .here i, n, hn, hl, hp, e.symm⟩
      simp [setCode, readSym_writeSym_other _ _ hne]
    · have hleft : ∀ bits, ¬ CodePath a n.left bits b := fun bits ⟨j, hj, hr⟩ =>
        hb (false :: bits) ⟨j, .edge hn hl (by simpa [childOf] using hj), hr⟩
      have hright : ∀ bits, ¬ CodePath a n.right bits b := fun bits ⟨j, hj, hr⟩ =>
        hb (true :: bits) ⟨j, .edge hn hl (by simpa [childOf] using hj), hr⟩
      have e1 := ih h1 hleft
      have e2 := ih h2 hright
      exact ⟨e2.1.trans e1.1, e2.2.trans e1.2⟩

end Sys2Proof.Machine
end

