-- ==== Sys2Proof/Laws/Tree.lean ====
section
/-!
SUPPORT. The pieces of `TBUILD`: the order of removal, one removal, the merge loop, the leaves and
the arena (spec 41_tree.md R142 to R148).
-/

namespace Sys2Proof.Machine

/-! ## The order of removal (R144) -/

theorem less_iff (a b : Pending) :
    less a b = true ↔ a.weight < b.weight ∨ (a.weight = b.weight ∧ a.ix < b.ix) := by
  simp [less]

theorem less_irrefl (a : Pending) : less a a = false := by
  simp [less]

theorem less_trans {a b c : Pending} (h1 : less a b = true) (h2 : less b c = true) :
    less a c = true := by
  simp only [less_iff, BitVec.lt_def, ← BitVec.toNat_inj] at *
  omega

/-- The order is total on distinct indices. -/
theorem less_total {a b : Pending} (h : a.ix ≠ b.ix) : less a b = true ∨ less b a = true := by
  simp only [less_iff, BitVec.lt_def, ← BitVec.toNat_inj, ne_eq] at *
  omega

theorem less_weight_le {a b : Pending} (h : less a b = true) : a.weight.toNat ≤ b.weight.toNat := by
  simp only [less_iff, BitVec.lt_def, ← BitVec.toNat_inj] at h
  omega

theorem not_less_weight_le {a b : Pending} (h : less b a = false) : a.weight.toNat ≤ b.weight.toNat := by
  have : ¬ less b a = true := by simp [h]
  simp only [less_iff, BitVec.lt_def, ← BitVec.toNat_inj] at this
  omega

/-! ## One removal (R143) -/

@[simp] theorem removeLeast_nil : removeLeast [] = none := rfl

theorem removeLeast_cons (x : Pending) (xs : List Pending) :
    ∃ m r, removeLeast (x :: xs) = some (m, r) := by
  unfold removeLeast
  cases removeLeast xs with
  | none => exact ⟨_, _, rfl⟩
  | some mr =>
    obtain ⟨m, r⟩ := mr
    by_cases h : less m x = true <;> simp [h]

theorem removeLeast_none_iff (p : List Pending) : removeLeast p = none ↔ p = [] := by
  cases p with
  | nil => simp
  | cons x xs =>
    obtain ⟨m, r, h⟩ := removeLeast_cons x xs
    simp [h]

/-- What is removed and what is left are together what was there. -/
theorem removeLeast_perm {p : List Pending} {m : Pending} {r : List Pending}
    (h : removeLeast p = some (m, r)) : p.Perm (m :: r) := by
  induction p generalizing m r with
  | nil => simp at h
  | cons x xs ih =>
    unfold removeLeast at h
    cases hx : removeLeast xs with
    | none =>
      rw [hx] at h
      have hn := (removeLeast_none_iff xs).1 hx
      simp only [Option.some.injEq, Prod.mk.injEq] at h
      obtain ⟨rfl, rfl⟩ := h
      rw [hn]
    | some mr =>
      obtain ⟨m', r'⟩ := mr
      rw [hx] at h
      by_cases hl : less m' x = true
      · simp only [hl, if_true, Option.some.injEq, Prod.mk.injEq] at h
        obtain ⟨rfl, rfl⟩ := h
        exact ((ih hx).cons x).trans (List.Perm.swap _ _ _)
      · simp only [hl] at h
        simp only [Bool.false_eq_true, if_false, Option.some.injEq, Prod.mk.injEq] at h
        obtain ⟨rfl, rfl⟩ := h
        exact List.Perm.refl _

theorem removeLeast_length {p : List Pending} {m : Pending} {r : List Pending}
    (h : removeLeast p = some (m, r)) : p.length = r.length + 1 := by
  simpa using (removeLeast_perm h).length_eq

/-- Nothing that is left comes before what is removed. -/
theorem removeLeast_least {p : List Pending} {m : Pending} {r : List Pending}
    (h : removeLeast p = some (m, r)) : ∀ x ∈ r, less x m = false := by
  induction p generalizing m r with
  | nil => simp at h
  | cons x xs ih =>
    unfold removeLeast at h
    cases hx : removeLeast xs with
    | none =>
      rw [hx] at h
      simp only [Option.some.injEq, Prod.mk.injEq] at h
      obtain ⟨rfl, rfl⟩ := h
      simp
    | some mr =>
      obtain ⟨m', r'⟩ := mr
      rw [hx] at h
      by_cases hl : less m' x = true
      · simp only [hl, if_true, Option.some.injEq, Prod.mk.injEq] at h
        obtain ⟨rfl, rfl⟩ := h
        intro y hy
        rcases List.mem_cons.1 hy with rfl | hy
        · by_contra hc
          have := less_trans hl (by simpa using hc)
          simp [less_irrefl] at this
        · exact ih hx y hy
      · simp only [hl] at h
        simp only [Bool.false_eq_true, if_false, Option.some.injEq, Prod.mk.injEq] at h
        obtain ⟨rfl, rfl⟩ := h
        intro y hy
        have hy' := (removeLeast_perm hx).mem_iff.1 hy
        by_contra hc
        have hyx : less y x = true := by simpa using hc
        rcases List.mem_cons.1 hy' with rfl | hy'
        · exact hl hyx
        · have hym : ¬ less y m' = true := by simp [ih hx y hy']
          have hmx : ¬ less m' x = true := hl
          simp only [less_iff, BitVec.lt_def, ← BitVec.toNat_inj] at hyx hym hmx
          omega

/-! ## The merge loop (R143) -/

/-- One round: the two least are removed and the node that joins them is added. -/
theorem mergeLoop_round {p p1 p2 : List Pending} {a b : Pending} (fuel n : Nat)
    (ha : removeLeast p = some (a, p1)) (hb : removeLeast p1 = some (b, p2)) :
    mergeLoop (fuel + 1) p n =
      (joinNode a b ::
          (mergeLoop fuel (p2 ++ [{ weight := a.weight + b.weight, ix := ixOf n }]) (n + 1)).1,
        (mergeLoop fuel (p2 ++ [{ weight := a.weight + b.weight, ix := ixOf n }]) (n + 1)).2) := by
  simp [mergeLoop, ha, hb, joinNode]

/-- The loop ends with at most one node pending: it creates one node fewer than were pending. -/
theorem mergeLoop_length {p : List Pending} (fuel n : Nat) (hp : p ≠ []) (hf : p.length ≤ fuel + 1) :
    (mergeLoop fuel p n).1.length + 1 = p.length ∧ (mergeLoop fuel p n).2.length = 1 := by
  induction fuel generalizing p n with
  | zero =>
    have : p.length ≠ 0 := by simpa using hp
    have : p.length = 1 := by omega
    simp [mergeLoop, this]
  | succ fuel ih =>
    obtain ⟨x, xs, rfl⟩ := List.exists_cons_of_ne_nil hp
    obtain ⟨a, p1, ha⟩ := removeLeast_cons x xs
    have hl := removeLeast_length ha
    cases p1 with
    | nil => simp_all [mergeLoop]
    | cons y ys =>
      obtain ⟨b, p2, hb⟩ := removeLeast_cons y ys
      have hl2 := removeLeast_length hb
      rw [mergeLoop_round fuel n ha hb]
      have := ih (p := p2 ++ [{ weight := a.weight + b.weight, ix := ixOf n }]) (n + 1) (by simp)
        (by simp at *; omega)
      simp at *
      omega

/-- An induction over the rounds of the merge loop: a relation between the pending set, the next
index and what the loop answers holds if it holds at the end and each round hands it on. -/
theorem mergeLoop_induct
    (P : List Pending → Nat → List Node → List Pending → Prop)
    (stop : ∀ p n, p.length ≤ 1 → P p n [] p)
    (round : ∀ p p1 p2 a b n ds q, removeLeast p = some (a, p1) → removeLeast p1 = some (b, p2) →
      P (p2 ++ [{ weight := a.weight + b.weight, ix := ixOf n }]) (n + 1) ds q →
      P p n (joinNode a b :: ds) q)
    (fuel : Nat) (p : List Pending) (n : Nat) (hf : p.length ≤ fuel + 1) :
    P p n (mergeLoop fuel p n).1 (mergeLoop fuel p n).2 := by
  induction fuel generalizing p n with
  | zero => exact stop p n (by omega)
  | succ fuel ih =>
    cases p with
    | nil => exact stop [] n (by simp)
    | cons x xs =>
      obtain ⟨a, p1, ha⟩ := removeLeast_cons x xs
      have hl := removeLeast_length ha
      cases p1 with
      | nil =>
        have : mergeLoop (fuel + 1) (x :: xs) n = ([], x :: xs) := by simp [mergeLoop, ha]
        rw [this]
        exact stop _ n (by simp at hl; simp [hl])
      | cons y ys =>
        obtain ⟨b, p2, hb⟩ := removeLeast_cons y ys
        have hl2 := removeLeast_length hb
        rw [mergeLoop_round fuel n ha hb]
        exact round _ _ _ _ _ n _ _ ha hb (ih _ _ (by simp at *; omega))

/-! ## The arena and the leaves -/

@[simp] theorem ixOf_toNat {n : Nat} (h : n < 1024) : (ixOf n).toNat = n := by
  simp [ixOf, Nat.mod_eq_of_lt h]

theorem arenaOf_getElem (ds : List Node) (i : Nat) (h : i < 511) :
    (arenaOf ds)[i] = if hi : i < ds.length then ds[i] else Node.fresh := by
  simp [arenaOf, List.getElem_append]

/-- What holds of every entry of an arena: of the nodes it was made of and of an unused entry. -/
theorem arenaOf_forall {P : Nat → Node → Prop} {ds : List Node}
    (h : ∀ (i : Nat) (hi : i < ds.length), P i ds[i]) (hf : ∀ i, ds.length ≤ i → P i Node.fresh) :
    ∀ i : Fin 511, P i.val (arenaOf ds)[i.val] := by
  intro i
  rw [arenaOf_getElem ds i.val i.isLt]
  split
  · exact h _ _
  · exact hf _ (by omega)

/-- The leaves are those of the present symbols, in ascending order (R142). -/
theorem leavesOf_eq (w : SymFile Half) :
    leavesOf w = (allSyms.filter fun s => readSym w s ≠ 0#32).map fun s => leafNode s (readSym w s) := by
  unfold leavesOf
  induction allSyms with
  | nil => rfl
  | cons s ss ih =>
    by_cases h : readSym w s = 0#32 <;> simp [h, ih]

theorem leavesOf_length_le (w : SymFile Half) : (leavesOf w).length ≤ 256 := by
  rw [leavesOf_eq, List.length_map]
  exact (List.length_filter_le _ _).trans (by simp [allSyms])

@[simp] theorem pendingFrom_length (n : Nat) (ds : List Node) : (pendingFrom n ds).length = ds.length := by
  induction ds generalizing n with
  | nil => rfl
  | cons d ds ih => simp [pendingFrom, ih]

theorem pendingFrom_getElem (n : Nat) (ds : List Node) (i : Nat) (h : i < ds.length) :
    (pendingFrom n ds)[i]'(by simpa using h) = { weight := ds[i].weight, ix := ixOf (n + i) } := by
  induction ds generalizing n i with
  | nil => simp at h
  | cons d ds ih =>
    cases i with
    | zero => simp [pendingFrom]
    | succ i => simp [pendingFrom, ih (n + 1) i (by simpa using h), Nat.add_comm, Nat.add_left_comm]

end Sys2Proof.Machine
end

