-- ==== Sys2Proof/Laws/Unpacker.lean ====
section
/-!
SUPPORT. The tree walk of `UBYTE` (spec 44_unpacker.md R188, R190, R191).
-/

namespace Sys2Proof.Machine

/-- Everything one bit of the walk that does not fault can have done (R188). -/
theorem walkBit_ok {a : Arena} {root : NodeIx} {x : Bool} {k k' : Walk}
    (h : walkBit a root x k = .ok k') :
    ∃ n m, k.cur ≠ Config.nil ∧ nodeAt a k.cur = .ok n ∧ childOf n x ≠ Config.nil ∧
      nodeAt a (childOf n x) = .ok m ∧
      ((m.leaf = true ∧ m.ph = false ∧
          k' = { cur := root, rem := k.rem - 1#64, emitted := k.emitted ++ [m.sym] }) ∨
       (m.leaf = false ∧ k' = { k with cur := childOf n x })) := by
  unfold walkBit at h
  split at h
  · cases h
  · next h0 =>
    split at h
    · cases h
    · next n hn =>
      split at h
      · cases h
      · next h1 =>
        split at h
        · cases h
        · next m hm =>
          refine ⟨n, m, h0, hn, h1, hm, ?_⟩
          cases hl : m.leaf <;> cases hp : m.ph <;> simp_all [arrive]

/-- A bit of the walk raises nothing but `CorruptStream`, and stops the model only at an arena index
that does not exist. -/
theorem walkBit_error {a : Arena} {root : NodeIx} {x : Bool} {k : Walk} {e : Stop}
    (h : walkBit a root x k = .error e) :
    e = .raise .corruptStream ∨ e = .stuck .noSuchNode := by
  unfold walkBit at h
  split at h
  · cases h; exact .inl rfl
  · split at h
    · next e' hn => cases h; exact .inr ((nodeAt_error_iff _ _ _).1 hn).2
    · split at h
      · cases h; exact .inl rfl
      · split at h
        · next e' hm => cases h; exact .inr ((nodeAt_error_iff _ _ _).1 hm).2
        · next m hm =>
          cases hl : m.leaf <;> cases hp : m.ph <;> simp_all [arrive]

@[simp] theorem walkBits_nil (a : Arena) (root : NodeIx) (k : Walk) : walkBits a root [] k = .ok k := rfl

/-- When nothing is owed the rest of the bits is ignored (R191). -/
theorem walkBits_done (a : Arena) (root : NodeIx) (bits : List Bool) {k : Walk} (h : k.rem = 0#64) :
    walkBits a root bits k = .ok k := by
  cases bits <;> simp [walkBits, h]

theorem walkBits_cons {a : Arena} {root : NodeIx} {x : Bool} (xs : List Bool) {k k' : Walk}
    (hr : k.rem ≠ 0#64) (h : walkBit a root x k = .ok k') :
    walkBits a root (x :: xs) k = walkBits a root xs k' := by
  simp [walkBits, hr, h]

/-- A walk raises nothing but `CorruptStream`. -/
theorem walkBits_error {a : Arena} {root : NodeIx} {bits : List Bool} {k : Walk} {e : Stop}
    (h : walkBits a root bits k = .error e) :
    e = .raise .corruptStream ∨ e = .stuck .noSuchNode := by
  induction bits generalizing k with
  | nil => cases h
  | cons x xs ih =>
    unfold walkBits at h
    split at h
    · cases h
    · split at h
      · next e' hb => cases h; exact walkBit_error hb
      · exact ih h

/-- A walk over two bit strings is a walk over the first and then over the second. -/
theorem walkBits_append (a : Arena) (root : NodeIx) (xs ys : List Bool) (k : Walk) :
    walkBits a root (xs ++ ys) k =
      match walkBits a root xs k with
      | .error e => .error e
      | .ok k' => walkBits a root ys k' := by
  induction xs generalizing k with
  | nil => rfl
  | cons x xs ih =>
    by_cases hr : k.rem = 0#64
    · rw [walkBits_done a root _ hr, walkBits_done a root _ hr]
      exact (walkBits_done a root ys hr).symm
    · cases hb : walkBit a root x k with
      | error e => simp [walkBits, hr, hb]
      | ok k' => simp [walkBits, hr, hb, ih]

end Sys2Proof.Machine
end

