-- ==== Sys2Proof/Laws/Exec.lean ====
section
/-!
SUPPORT. What each command can do, once per command: the state it answers when it completes and the
fault it raises (spec 60_exceptions.md R250 to R253).
-/

namespace Sys2Proof.Machine

/-- What the body of a command, its own effect, is: `RST` aside, `exec` is `command` around it. -/
def bodyOf (c : Instr) (s : State) : Except Stop State :=
  match c with
  | .nop => .ok s
  | .rst => .ok (resetBlock s)
  | .fclr => .ok { s with freq := fillSym 0#64, nacc := 0#64 }
  | .facc b => .ok { s with freq := writeSym s.freq b (readSym s.freq b + 1#64), nacc := s.nacc + 1#64 }
  | .wsat => .ok (clearValid { s with w := mapSym sat32 s.freq })
  | .wld b w => .ok (clearValid { s with w := writeSym s.w b w })
  | .tbuild => .ok (installTree (buildTree s.w) s)
  | .cgen =>
    requireTree s
      (match codesOf s.node s.root with
        | .error e => .error e
        | .ok t => .ok (installCodes t s))
  | .penc b => requireCodes s (encodeByte b s)
  | .pflush => .ok (flushPacker s)
  | .ulenl n => .ok (declareCount (zextHalf n) s)
  | .ulenh n => .ok (declareCount (withHighHalf n s.remain) s)
  | .ubyte b => requireTree s (decodeByte b s)
  | .uend => if s.remain = 0#64 then .ok s else .error (.raise .truncatedStream)

theorem exec_rst (s : State) : exec .rst s = .next (resetBlock s) := rfl

theorem exec_eq_command {c : Instr} (h : c ≠ .rst) (s : State) :
    exec c s = command c s (bodyOf c s) := by
  cases c <;> first | rfl | exact absurd rfl h

/-- An unfaulted block runs the command's own effect. -/
theorem exec_clear {c : Instr} (hc : c ≠ .rst) {s : State} (h : s.err = 0#4) :
    exec c s = finish c s (bodyOf c s) := by
  rw [exec_eq_command hc, command_clear c _ h]

/-- A command whose own effect is a state completes with that state. -/
theorem exec_of_ok {c : Instr} (hc : c ≠ .rst) {s t : State} (h : s.err = 0#4)
    (hb : bodyOf c s = .ok t) : exec c s = .next t := by
  rw [exec_clear hc h, hb]; rfl

/-- A command whose own effect is a fault takes it (R250). -/
theorem exec_of_raise {c : Instr} (hc : c ≠ .rst) {s : State} {f : FaultName} (h : s.err = 0#4)
    (hb : bodyOf c s = .error (.raise f)) : exec c s = .next (raiseFault f (encode c) s) := by
  rw [exec_clear hc h, hb]; rfl

/-- A faulted block ignores every command but `RST` (R252). -/
theorem exec_faulted {c : Instr} (hc : c ≠ .rst) {s : State} (h : s.err ≠ 0#4) :
    exec c s = .next s := by
  rw [exec_eq_command hc, command_faulted c _ h]

/-- Everything a command that answers a next state can have done. -/
theorem exec_next {c : Instr} {s t : State} (h : exec c s = .next t) :
    (c = .rst ∧ t = resetBlock s) ∨
    (c ≠ .rst ∧ s.err ≠ 0#4 ∧ t = s) ∨
    (c ≠ .rst ∧ s.err = 0#4 ∧ bodyOf c s = .ok t) ∨
    (c ≠ .rst ∧ s.err = 0#4 ∧ ∃ f, bodyOf c s = .error (.raise f) ∧ t = raiseFault f (encode c) s) := by
  by_cases hc : c = .rst
  · subst hc
    exact .inl ⟨rfl, by simpa [exec_rst] using h.symm⟩
  · rw [exec_eq_command hc] at h
    rcases command_next h with ⟨h0, rfl⟩ | ⟨h0, hb⟩ | ⟨h0, f, hb, rfl⟩
    · exact .inr (.inl ⟨hc, h0, rfl⟩)
    · exact .inr (.inr (.inl ⟨hc, h0, hb⟩))
    · exact .inr (.inr (.inr ⟨hc, h0, f, hb, rfl⟩))

/-- No command is refused. -/
theorem exec_not_refused (c : Instr) (s : State) (r : Refusal) : exec c s ≠ .refused r := by
  by_cases hc : c = .rst
  · subst hc; simp [exec_rst]
  · rw [exec_eq_command hc]; exact command_not_refused _ _ _ _

/-- The error of a visit is `CodeTooLong`, an index that does not exist, or a cycle. -/
theorem visit_error {a : Arena} {fuel : Nat} {i : NodeIx} {p : Word} {d : Nat} {t : CodeTable}
    {e : Stop} (h : visit a fuel i p d t = .error e) :
    e = .raise .codeTooLong ∨ e = .stuck .noSuchNode ∨ e = .stuck .arenaCycle := by
  induction fuel generalizing i p d t with
  | zero => simp [visit] at h; simp [h]
  | succ f ih =>
    unfold visit at h
    split at h
    · next e' hn => cases h; exact .inr (.inl ((nodeAt_error_iff _ _ _).1 hn).2)
    · split at h
      · split at h
        · cases h
        · split at h
          · cases h; exact .inl rfl
          · cases h
      · split at h
        · next e' hl => cases h; exact ih hl
        · exact ih h

/-- Which fault each command can raise (R246, R248, R249). -/
theorem bodyOf_raise {c : Instr} {s : State} {f : FaultName} (h : bodyOf c s = .error (.raise f)) :
    (c = .cgen ∧ s.tv = false ∧ f = .sequenceError) ∨
    (c = .cgen ∧ s.tv = true ∧ f = .codeTooLong) ∨
    (∃ b, c = .penc b ∧ s.cv = false ∧ f = .sequenceError) ∨
    (∃ b, c = .penc b ∧ s.cv = true ∧ readSym s.codeLen b = 0#7 ∧ f = .noCode) ∨
    (∃ b, c = .ubyte b ∧ s.tv = false ∧ f = .sequenceError) ∨
    (∃ b, c = .ubyte b ∧ s.tv = true ∧ f = .corruptStream) ∨
    (c = .uend ∧ s.remain ≠ 0#64 ∧ f = .truncatedStream) := by
  cases c with
  | cgen =>
    cases htv : s.tv with
    | false => simp [bodyOf, requireTree, htv] at h; simp [h]
    | true =>
      simp only [bodyOf, requireTree, htv, if_true] at h
      unfold codesOf at h
      split at h
      · next e hc =>
        cases h
        split at hc
        · cases hc
        · rcases visit_error hc with he | he | he <;> cases he
          simp
      · cases h
  | penc b =>
    cases hcv : s.cv with
    | false => simp [bodyOf, requireCodes, hcv] at h; simp [h]
    | true =>
      simp only [bodyOf, requireCodes, hcv, if_true, encodeByte] at h
      split at h
      · next h0 => cases h; simp [h0]
      · split at h <;> cases h
  | ubyte b =>
    cases htv : s.tv with
    | false => simp [bodyOf, requireTree, htv] at h; simp [h]
    | true =>
      simp only [bodyOf, requireTree, htv, if_true, decodeByte] at h
      split at h
      · next e hw =>
        cases h
        rcases walkBits_error hw with he | he <;> cases he
        simp
      · cases h
  | uend =>
    simp only [bodyOf] at h
    split at h
    · cases h
    · next h0 => cases h; simp [h0]
  | nop => simp [bodyOf] at h
  | rst => simp [bodyOf] at h
  | fclr => simp [bodyOf] at h
  | facc b => simp [bodyOf] at h
  | wsat => simp [bodyOf] at h
  | wld b w => simp [bodyOf] at h
  | tbuild => simp [bodyOf] at h
  | pflush => simp [bodyOf] at h
  | ulenl n => simp [bodyOf] at h
  | ulenh n => simp [bodyOf] at h

end Sys2Proof.Machine
end

