-- ==== Sys2Proof/Laws/HostSequences.lean ====
section
/-!
SUPPORT. What issuing commands and closing a call can do (spec 46_host_sequences.md R220, R221, R228).
-/

namespace Sys2Proof.Machine

/-- The host reads `ERR` at address 0x001, bits 3:0 (R34, R254). -/
@[simp] theorem readErr_eq (s : State) : readErr s = s.err := by
  rw [readErr, show regRead 0x001#12 s = statusWord s from rfl, statusWord]
  generalize unpackDone s = ud
  generalize packPending s = pp
  generalize treeEmpty s = te
  generalize s.cv = cv
  generalize s.tv = tv
  generalize s.err = e
  revert ud pp te cv tv e
  decide +kernel

/-- A command that completes leaves the port alone. -/
theorem bodyOf_ok_port {c : Instr} {s t : State} (h : bodyOf c s = .ok t) : t.port = s.port := by
  cases c <;> simp only [bodyOf, requireTree, requireCodes, encodeByte, decodeByte] at h <;>
    (repeat' split at h) <;> cases h <;> simp

/-- No command writes the port (log entry 1). -/
theorem exec_next_port {c : Instr} {s t : State} (h : exec c s = .next t) : t.port = s.port := by
  rcases exec_next h with ⟨-, rfl⟩ | ⟨-, -, rfl⟩ | ⟨-, -, hb⟩ | ⟨-, -, f, -, rfl⟩
  · rfl
  · rfl
  · exact bodyOf_ok_port hb
  · rfl

/-- A step takes the first input off the port. -/
theorem step_next_port {s t : State} (h : step s = .next t) : t.port = s.port.tail := by
  rcases step_cases s with ⟨hp, hs⟩ | ⟨xs, hp, hs⟩ | ⟨w, xs, c, hp, -, hs⟩ | ⟨w, xs, e, hp, -, hs⟩ <;>
    rw [hs] at h
  · cases h; simp [hp]
  · cases h; simp [hp]
  · simpa [hp] using exec_next_port h
  · cases h
    rw [hp, illegalWord]
    split <;> rfl

/-- Running in two parts is running the first and then the second. -/
theorem runPort_add (m n : Nat) (s : State) :
    runPort (m + n) s = match runPort m s with
      | .next t => runPort n t
      | .fault f => .fault f
      | .refused r => .refused r := by
  induction m generalizing s with
  | zero => simp [runPort]
  | succ m ih =>
    simp only [Nat.add_right_comm m 1 n, runPort]
    cases step s with
    | next t => exact ih t
    | fault f => rfl
    | refused r => rfl

theorem runPort_next_port {n : Nat} {s t : State} (h : runPort n s = .next t) :
    t.port = s.port.drop n := by
  induction n generalizing s with
  | zero => simp [runPort] at h; simp [h]
  | succ n ih =>
    unfold runPort at h
    cases hs : step s with
    | next u => rw [hs] at h; rw [ih h, step_next_port hs, List.drop_tail]
    | fault f => simp [hs] at h
    | refused r => simp [hs] at h

/-- Issuing commands leaves no input pending (R61). -/
theorem issue_next_port {cs : List Instr} {s t : State} (h : issue cs s = .next t) : t.port = [] := by
  have := runPort_next_port h
  simpa using this

/-- With nothing pending, `RST` and the report end a call with the block in its reset state (R228). -/
theorem resetAndReport_eq {s : State} (e : HostError) (h : s.port = []) :
    resetAndReport e s = { result := .error e, block := State.reset } := by
  have hi : issue [.rst] s = .next State.reset := by
    simp only [issue, presentLast, h, List.nil_append, List.map_cons, List.map_nil, List.length_cons,
      List.length_nil, runPort, step, takeInput, show decode (encode .rst) = .ok .rst by decide, exec_rst]
    rfl
  rw [resetAndReport, hi]

end Sys2Proof.Machine
end

