-- ==== Sys2Proof/Laws/PerInstr.lean ====
section
/-!
SUPPORT. Statements made per command (LAWS.json "per_instruction"): the fields of every command pass
the check of its format, with every operand at any value (spec 30_encoding.md R92, R93).
-/

namespace Sys2Proof.Laws.FieldsPass

/-- The fields the encoder writes for a command are well formed for the command's format. -/
def Statement (c : Instr) : Prop := (fieldsOf c).wellFormed (formatOf c) = true

theorem nop : Statement .nop := rfl
theorem rst : Statement .rst := rfl
theorem fclr : Statement .fclr := rfl
theorem facc (b : Byte) : Statement (.facc b) := by
  simp [Statement, fieldsOf, formatOf, Fields.wellFormed, Fields.problem, Format.usesSym, Format.usesImm]
theorem wsat : Statement .wsat := rfl
theorem wld (s : Byte) (w : Half) : Statement (.wld s w) := by
  simp [Statement, fieldsOf, formatOf, Fields.wellFormed, Fields.problem, Format.usesSym, Format.usesImm]
theorem tbuild : Statement .tbuild := rfl
theorem cgen : Statement .cgen := rfl
theorem penc (b : Byte) : Statement (.penc b) := by
  simp [Statement, fieldsOf, formatOf, Fields.wellFormed, Fields.problem, Format.usesSym, Format.usesImm]
theorem pflush : Statement .pflush := rfl
theorem ulenl (n : Half) : Statement (.ulenl n) := by
  simp [Statement, fieldsOf, formatOf, Fields.wellFormed, Fields.problem, Format.usesSym, Format.usesImm]
theorem ulenh (n : Half) : Statement (.ulenh n) := by
  simp [Statement, fieldsOf, formatOf, Fields.wellFormed, Fields.problem, Format.usesSym, Format.usesImm]
theorem ubyte (b : Byte) : Statement (.ubyte b) := by
  simp [Statement, fieldsOf, formatOf, Fields.wellFormed, Fields.problem, Format.usesSym, Format.usesImm]
theorem uend : Statement .uend := rfl

end Sys2Proof.Laws.FieldsPass
end

