-- ==== Sys2Proof/Tests/Slice0.lean ====
section
/-!
SUPPORT. The model's own tests. Expected results are the vectors of spec/95_test_vectors.md (V<n>) or
the examples of the rules; each `witness_` theorem shows a state and operands that meet the hypotheses
of a statement of Certificates/Slice0/Obligations.lean.
-/

namespace Sys2Proof.Tests

open Sys2Proof Sys2Proof.Machine

/-! ## WellFormed: an ill-formed term for each check -/

/-- R97: `rsv` not 0 (V2: `WLD` with `rsv` = 0x8000). -/
theorem test_wellFormed_refuses_rsv :
    Fields.wellFormed { op := 0x13#8, sym := 1#8, rsv := 0x8000#16, imm := 2#32 } .si = false := by decide

/-- R97: `sym` not 0 in format N (V2: `TBUILD` with `sym` = 0x41). -/
theorem test_wellFormed_refuses_sym :
    Fields.wellFormed { op := 0x20#8, sym := 0x41#8, rsv := 0#16, imm := 0#32 } .n = false := by decide

/-- R97: `imm` not 0 in format B (V2: `FACC` with `imm` = 1). -/
theorem test_wellFormed_refuses_imm :
    Fields.wellFormed { op := 0x11#8, sym := 0x41#8, rsv := 0#16, imm := 1#32 } .b = false := by decide

/-- Format SI uses both operand fields (V1: `WLD 0xFF, 0xFFFFFFFF`). -/
theorem test_wellFormed_accepts_si :
    Fields.wellFormed { op := 0x13#8, sym := 0xFF#8, rsv := 0#16, imm := 0xFFFFFFFF#32 } .si = true := by
  decide

/-! ## Decoding: every constructor by a word written out from R91 to R94 (V1), and illegal words (V2) -/

theorem test_decode_nop : decode 0x0000000000000000#64 = .ok .nop := by decide
theorem test_decode_rst : decode 0x0100000000000000#64 = .ok .rst := by decide
theorem test_decode_fclr : decode 0x1000000000000000#64 = .ok .fclr := by decide
theorem test_decode_facc : decode 0x1141000000000000#64 = .ok (.facc 0x41#8) := by decide
theorem test_decode_wsat : decode 0x1200000000000000#64 = .ok .wsat := by decide
theorem test_decode_wld : decode 0x13410000000003E8#64 = .ok (.wld 0x41#8 1000#32) := by decide
theorem test_decode_tbuild : decode 0x2000000000000000#64 = .ok .tbuild := by decide
theorem test_decode_cgen : decode 0x2100000000000000#64 = .ok .cgen := by decide
theorem test_decode_penc : decode 0x3041000000000000#64 = .ok (.penc 0x41#8) := by decide
theorem test_decode_pflush : decode 0x3100000000000000#64 = .ok .pflush := by decide
theorem test_decode_ulenl : decode 0x40000000FFFFFFFF#64 = .ok (.ulenl 0xFFFFFFFF#32) := by decide
theorem test_decode_ulenh : decode 0x4100000000000001#64 = .ok (.ulenh 1#32) := by decide
theorem test_decode_ubyte : decode 0x4217000000000000#64 = .ok (.ubyte 0x17#8) := by decide
theorem test_decode_uend : decode 0x4300000000000000#64 = .ok .uend := by decide

theorem test_decode_unassigned : decode 0x4400000000000000#64 = .error .unassignedOp := by decide
theorem test_decode_rsv : decode 0x0000000100000000#64 = .error .rsvNonzero := by decide
theorem test_decode_sym : decode 0x4001000000000005#64 = .error .symNonzero := by decide
theorem test_decode_imm : decode 0x0100000000000001#64 = .error .immNonzero := by decide

/-- A bit string written out field by field: `WLD` is op 00010011, sym 01000001, rsv, imm. -/
theorem test_decode_wld_bits :
    decode (0b00010011#8 ++ (0b01000001#8 ++ (0#16 ++ 0b00000000000000000000001111101000#32))) =
      .ok (.wld 0x41#8 1000#32) := by decide

theorem test_decodeTableWord : decodeTableWord 64 0x3041000000000000 = some (.penc 0x41#8) := by decide

/-! ## Small states -/

/-- `W` = (A:1, B:2, C:4), the example of R141. -/
def abcWeights : SymFile Half :=
  writeSym (writeSym (writeSym (fillSym 0#32) 0x41#8 1#32) 0x42#8 2#32) 0x43#8 4#32

/-- The arena of R141's example (V15), written out: A, B, C, then A with B, then that with C. -/
def abcNodes : List Node :=
  [leafNode 0x41#8 1#32, leafNode 0x42#8 2#32, leafNode 0x43#8 4#32,
    { weight := 3#64, left := 0#10, right := 1#10, sym := 0#8, leaf := false, ph := false },
    { weight := 7#64, left := 3#10, right := 2#10, sym := 0#8, leaf := false, ph := false }]

/-- The state after `TBUILD` on those weights. -/
def abcTree : State :=
  { State.reset with w := abcWeights, node := arenaOf abcNodes, root := 4#10, nsym := 3#9,
                     nnode := 5#10, cur := 4#10, tv := true }

/-- The codes of R160's example (V29): A = 00, B = 01, C = 1. -/
def abcCodes : CodeTable :=
  setCode (setCode (setCode emptyCodes 0x41#8 0#64 2) 0x42#8 1#64 2) 0x43#8 1#64 1

/-- The state after `CGEN`. -/
def abcReady : State := installCodes abcCodes abcTree

/-- The same with symbols owed. -/
def abcOwing (n : Word) : State := { abcReady with remain := n }

/-- `W` = (A:1000), the one symbol of E3. -/
def oneWeight : SymFile Half := writeSym (fillSym 0#32) 0x41#8 1000#32

/-- The arena of the one-symbol tree (E3), written out. -/
def oneNodes : List Node :=
  [leafNode 0x41#8 1000#32, placeholderNode,
    { weight := 1000#64, left := 0#10, right := 1#10, sym := 0#8, leaf := false, ph := false }]

/-- The state after `TBUILD` on the one weight, with symbols owed. -/
def oneSymbol (n : Word) : State :=
  { State.reset with w := oneWeight, node := arenaOf oneNodes, root := 2#10, nsym := 1#9,
                     nnode := 3#10, cur := 2#10, tv := true, remain := n }

/-- The state after `TBUILD` on no weight, with symbols owed. -/
def noSymbol (n : Word) : State := { State.reset with tv := true, remain := n }

/-- A faulted state. -/
def faulted : State := { State.reset with err := 1#4, errinfo := 0x4300000000000000#64 }

/-- A check of the next state; false if there is none. -/
def after (o : Host.Outcome State Fault Refusal) (p : State → Bool) : Bool :=
  match o with
  | .next t => p t
  | _ => false

theorem after_next {o : Host.Outcome State Fault Refusal} {p : State → Bool} (h : after o p = true) :
    ∃ t, o = .next t ∧ p t = true := by
  cases o with
  | next t => exact ⟨t, rfl, h⟩
  | fault f => cases h
  | refused r => cases h

/-! ## One step each -/

/-- R205. -/
theorem test_nop : after (exec .nop abcReady)
    (fun t => statusWord t == 0x150#64 && t.out == [] && t.nacc == 0#64) = true := by decide +kernel
/-- P4: `RST` clears a fault. -/
theorem test_rst : after (exec .rst faulted) (fun t => t.err == 0#4 && statusWord t == 0x100#64) = true := by
  decide +kernel
/-- V6: `FCLR` keeps the weights and the flags. -/
theorem test_fclr : after (exec .fclr abcReady)
    (fun t => readSym t.w 0x43#8 == 4#32 && t.tv && t.cv && t.nacc == 0#64) = true := by decide +kernel
/-- R120: the counts wrap. -/
theorem test_facc_wraps : after (exec (.facc 0xFF#8)
      { State.reset with freq := fillSym 0xFFFFFFFFFFFFFFFF#64, nacc := 0xFFFFFFFFFFFFFFFF#64 })
    (fun t => readSym t.freq 0xFF#8 == 0#64 && t.nacc == 0#64 &&
      readSym t.freq 0#8 == 0xFFFFFFFFFFFFFFFF#64) = true := by decide +kernel
/-- V8. -/
theorem test_wsat_saturates : after (exec .wsat
      { abcReady with freq := writeSym (writeSym (fillSym 0#64) 0x41#8 5#64) 0x42#8 0x100000005#64 })
    (fun t => readSym t.w 0x41#8 == 5#32 && readSym t.w 0x42#8 == 0xFFFFFFFF#32 &&
      readSym t.w 0x43#8 == 0#32 && !t.tv && !t.cv) = true := by decide +kernel
/-- R125's example; the flags are cleared. -/
theorem test_wld : after (exec (.wld 0x41#8 1000#32) abcReady)
    (fun t => readSym t.w 0x41#8 == 1000#32 && readSym t.w 0x42#8 == 2#32 && !t.tv && !t.cv) = true := by
  decide +kernel
/-- V15: the link words of the tree of R141's example. -/
theorem test_tbuild : after (exec .tbuild { State.reset with w := abcWeights })
    (fun t => [0xA00#12, 0xA01#12, 0xA02#12, 0xA03#12, 0xA04#12, 0xA05#12, 0x804#12].map (regRead · t) ==
      [0x141FFFFF#64, 0x142FFFFF#64, 0x143FFFFF#64, 0x400#64, 0x803#64, 0xFFFFF#64, 7#64]) = true := by
  decide +kernel
/-- V18: on a tie the leaf is removed before the internal node. -/
theorem test_tbuild_tie : after (exec .tbuild { State.reset with
      w := writeSym (writeSym (writeSym (fillSym 0#32) 0x41#8 1#32) 0x42#8 1#32) 0x43#8 2#32 })
    (fun t => regRead 0xA04#12 t == 0xC02#64) = true := by decide +kernel
/-- V29. -/
theorem test_cgen : after (exec .cgen abcTree)
    (fun t => [0x341#12, 0x441#12, 0x342#12, 0x442#12, 0x343#12, 0x443#12].map (regRead · t) ==
      [0#64, 2#64, 1#64, 2#64, 1#64, 1#64] && statusWord t == 0x150#64) = true := by decide +kernel
/-- V30. -/
theorem test_cgen_without_tree : after (exec .cgen State.reset)
    (fun t => t.err == 5#4 && t.errinfo == 0x2100000000000000#64) = true := by decide +kernel
/-- V35: the eighth bit emits 0x17. -/
theorem test_penc : after (exec (.penc 0x43#8) { abcReady with acc := 0x0B#8, nbits := 7#3 })
    (fun t => t.out == [0x17#8] && t.acc == 0#8 && t.nbits == 0#3) = true := by decide +kernel
/-- V40. -/
theorem test_penc_no_code : after (exec (.penc 0x44#8) abcReady)
    (fun t => t.err == 6#4 && t.errinfo == 0x3044000000000000#64 && t.out == []) = true := by decide +kernel
/-- R171's example. -/
theorem test_pflush : after (exec .pflush { State.reset with acc := 0b11#8, nbits := 2#3 })
    (fun t => t.out == [0xC0#8] && t.acc == 0#8 && t.nbits == 0#3 && t.outcnt == 1#64) = true := by
  decide +kernel
/-- V41. -/
theorem test_ulenl : after (exec (.ulenl 5#32) (abcOwing 0x1FFFFFFFF#64))
    (fun t => t.remain == 5#64 && t.cur == 4#10) = true := by decide +kernel
/-- R187's example. -/
theorem test_ulenh : after (exec (.ulenh 1#32) (abcOwing 0xFFFFFFFF#64))
    (fun t => t.remain == 0x1FFFFFFFF#64) = true := by decide +kernel
/-- V42. -/
theorem test_ubyte : after (exec (.ubyte 0x17#8) (abcOwing 7#64))
    (fun t => t.out == [0x41#8, 0x42#8, 0x42#8, 0x43#8, 0x43#8] && t.remain == 2#64 && t.cur == 4#10) =
    true := by decide +kernel
/-- V48: a faulting `UBYTE` emits nothing, although its first bit completed a symbol. -/
theorem test_ubyte_placeholder : after (exec (.ubyte 0x40#8) (oneSymbol 2#64))
    (fun t => t.err == 2#4 && t.out == [] && t.remain == 2#64 && t.cur == 2#10 &&
      t.errinfo == 0x4240000000000000#64) = true := by decide +kernel
/-- P4. -/
theorem test_uend : after (exec .uend (abcOwing 2#64))
    (fun t => t.err == 1#4 && t.errinfo == 0x4300000000000000#64) = true := by decide +kernel
/-- V54: an illegal word is reported before the missing flag. -/
theorem test_step_illegal : after (step (State.reset.withFetchWord 64 0x2100000000000001))
    (fun t => t.err == 4#4 && t.errinfo == 0x2100000000000001#64 && t.port == []) = true := by
  decide +kernel
/-- A placed word is run by the very next step. -/
theorem test_step_placed : after (step (State.reset.withFetchWord 64 0x4000000000000007))
    (fun t => t.remain == 7#64 && t.port == []) = true := by decide +kernel
/-- V57: the read port after reset. -/
theorem test_regRead_reset :
    [0x000#12, 0x001#12, 0x006#12, 0x00B#12, 0x9FE#12, 0x9FF#12, 0xBFE#12, 0xBFF#12, 0xFFF#12].map
      (regRead · State.reset) =
    [0x1324648#64, 0x100#64, 0x3FF#64, 0#64, 0#64, 0#64, 0xFFFFF#64, 0#64, 0#64] := by decide +kernel
/-- V58: the length is checked before the tag. -/
theorem test_parse_length : (match parse [0x58#8] with
    | .error .truncatedHeader => true
    | _ => false) = true := by decide +kernel

/-! ## The small states meet the invariants -/

/-- V15's leaves. -/
theorem abc_leaves : leavesOf abcWeights =
    [leafNode 0x41#8 1#32, leafNode 0x42#8 2#32, leafNode 0x43#8 4#32] := by decide +kernel

/-- `TBUILD` on the weights of R141's example builds the arena written out above. -/
theorem abc_built : buildTree abcWeights =
    { node := arenaOf abcNodes, root := 4#10, nsym := 3#9, nnode := 5#10 } := by
  rw [buildTree, abc_leaves]; rfl

theorem one_built : buildTree oneWeight =
    { node := arenaOf oneNodes, root := 2#10, nsym := 1#9, nnode := 3#10 } := by
  rw [buildTree, show leavesOf oneWeight = [leafNode 0x41#8 1000#32] by decide +kernel]; rfl

theorem none_built : buildTree (fillSym 0#32) =
    { node := arenaOf [], root := Config.nil, nsym := 0#9, nnode := 0#10 } := by
  rw [buildTree, show leavesOf (fillSym 0#32) = [] by decide +kernel]; rfl

theorem reset_arena : State.reset.node = arenaOf [] := by
  apply Vector.ext
  intro i hi
  rw [arenaOf_getElem [] i hi]
  simp [State.reset]

/-- The tree invariants of a state whose arena is written out. -/
theorem treeInv_of_nodes {s : State} {ds : List Node} (hn : s.node = arenaOf ds)
    (hb : buildTree s.w = { node := arenaOf ds, root := s.root, nsym := s.nsym, nnode := s.nnode })
    (hl : s.nnode.toNat = ds.length) (hlen : ds.length ≤ 511) (hc : CountsAgree s)
    (hch : ∀ (i : Nat) (hi : i < ds.length),
      (ds[i].leaf = false → ds[i].left.toNat < i ∧ ds[i].right.toNat < i) ∧
      (ds[i].leaf = true → ds[i].left = Config.nil ∧ ds[i].right = Config.nil))
    (hw : ∀ (i : Nat) (hi : i < ds.length), ds[i].weight.toNat < 2 ^ 40)
    (hr : s.nsym.toNat ≠ 0 →
      ∃ h : s.root.toNat < ds.length, (ds[s.root.toNat]'h).leaf = false)
    (hcur : s.cur = s.root) : TreeInv s where
  counts := hc
  children := by
    unfold ChildrenComeFirst
    rw [hn, hl]
    exact arenaOf_forall (P := fun i n => i < ds.length →
      (n.leaf = false → n.left.toNat < i ∧ n.right.toNat < i) ∧
      (n.leaf = true → n.left = Config.nil ∧ n.right = Config.nil))
      (fun i hi _ => hch i hi) (fun i hi h => absurd h (by omega))
  root := by
    intro h
    obtain ⟨hlt, hleaf⟩ := hr h
    refine ⟨⟨s.root.toNat, by omega⟩, rfl, by rw [hl]; exact hlt, ?_⟩
    have := arenaOf_getElem ds s.root.toNat (by omega)
    simp only [hn, this, hlt, dite_true, hleaf]
  unused := by
    unfold UnusedAreFresh
    rw [hn, hl]
    exact arenaOf_forall (P := fun i n => ds.length ≤ i → n = Node.fresh)
      (fun i hi h => absurd h (by omega)) (fun i hi _ => rfl)
  weights := by
    unfold WeightsFit
    rw [hn]
    exact arenaOf_forall (P := fun _ n => n.weight.toNat < 2 ^ 40) hw (fun i hi => by decide)
  ofWeights := fun _ => by rw [hb, hn]
  cursor := fun _ => .inl hcur

theorem abcOwing_tree (n : Word) : TreeInv (abcOwing n) :=
  treeInv_of_nodes (ds := abcNodes) rfl abc_built rfl (by decide) (by change CountsAgree (abcOwing 0#64); decide)
    (by decide) (by decide) (fun _ => ⟨(by decide : 4 < 5), rfl⟩) rfl

theorem abcTree_tree : TreeInv abcTree :=
  treeInv_of_nodes (ds := abcNodes) rfl abc_built (by decide) (by decide) (by decide) (by decide)
    (by decide) (fun _ => by decide) rfl

theorem oneSymbol_tree (n : Word) : TreeInv (oneSymbol n) :=
  treeInv_of_nodes (ds := oneNodes) rfl one_built rfl (by decide) (by change CountsAgree (oneSymbol 0#64); decide)
    (by decide) (by decide) (fun _ => ⟨(by decide : 2 < 3), rfl⟩) rfl

theorem noSymbol_tree (n : Word) : TreeInv (noSymbol n) :=
  treeInv_of_nodes (ds := []) reset_arena none_built rfl (by decide)
    (by change CountsAgree (noSymbol 0#64); decide) (by decide) (by decide) (fun h => absurd rfl h) rfl

/-- `CGEN` on that tree gives the codes written out above (V29). -/
theorem abc_codes : codesOf abcTree.node abcTree.root = .ok abcCodes := rfl

theorem abcReady_codes : CodeInv abcReady where
  flags := fun _ => rfl
  ofTree := fun _ => abc_codes
  fit := by
    intro b
    simp only [abcReady, installCodes, abcCodes, setCode, emptyCodes, readSym_writeSym, readSym_fillSym]
    by_cases h1 : b = 0x43#8 <;> by_cases h2 : b = 0x42#8 <;> by_cases h3 : b = 0x41#8 <;>
      simp [h1, h2, h3]

theorem abcReady_inv : Inv abcReady where
  ports := ⟨by decide, fun _ => rfl, by decide, by decide⟩
  tree := treeInv_of_nodes (ds := abcNodes) rfl abc_built (by decide) (by decide) (by decide)
    (by decide) (by decide) (fun _ => by decide) rfl
  codes := abcReady_codes

/-! ## Paths in the small trees -/

/-- Follow bits from a node. -/
def follow (a : Arena) (i : NodeIx) : List Bool → Option NodeIx
  | [] => some i
  | x :: xs =>
    match nodeAt a i with
    | .ok n => if n.leaf then none else follow a (childOf n x) xs
    | .error _ => none

theorem path_of_follow {a : Arena} {i j : NodeIx} {bits : List Bool} (h : follow a i bits = some j) :
    Path a i bits j := by
  induction bits generalizing i with
  | nil => simp only [follow, Option.some.injEq] at h; subst h; exact .here i
  | cons x xs ih =>
    unfold follow at h
    split at h
    · next n hn =>
      split at h
      · cases h
      · next hl => exact .edge hn (by simpa using hl) (ih h)
    · cases h

/-- The code path of 'A' in R160's example: 00. -/
theorem abc_path_A : CodePath abcTree.node abcTree.root [false, false] 0x41#8 :=
  ⟨0#10, path_of_follow rfl, leafNode 0x41#8 1#32, rfl, rfl, rfl, rfl⟩

/-- No code path of R160's example is longer than 64. -/
theorem abc_paths_short (bits : List Bool) (b : Byte)
    (h : CodePath abcTree.node abcTree.root bits b) : bits.length ≤ 64 := by
  have hv := abc_codes
  rw [codesOf, if_neg (by decide)] at hv
  have := visit_ok_depth hv h
  omega

/-- 'C' has the one code path 1. -/
theorem abc_path_C_only (other : List Bool) (h : CodePath abcTree.node abcTree.root other 0x43#8) :
    other = [true] := by
  obtain ⟨j, hp, n, hn, hl, hph, hs⟩ := h
  cases hp with
  | here =>
    rw [show nodeAt abcTree.node abcTree.root = .ok abcNodes[4] from rfl] at hn; cases hn; cases hl
  | @edge _ _ m x bits at_ internal rest =>
    rw [show nodeAt abcTree.node abcTree.root = .ok abcNodes[4] from rfl] at at_; cases at_
    cases x with
    | true =>
      obtain ⟨rfl, _⟩ := Path.of_leaf rest (n := abcNodes[2]) rfl rfl
      rfl
    | false =>
      cases rest with
      | here =>
        rw [show nodeAt abcTree.node (childOf abcNodes[4] false) = .ok abcNodes[3] from rfl] at hn
        cases hn; cases hl
      | @edge _ _ m x bits at_ internal rest =>
        rw [show nodeAt abcTree.node (childOf abcNodes[4] false) = .ok abcNodes[3] from rfl] at at_
        cases at_
        cases x with
        | true =>
          obtain ⟨_, rfl⟩ := Path.of_leaf rest (n := abcNodes[1]) rfl rfl
          rw [show nodeAt abcTree.node (childOf abcNodes[3] true) = .ok abcNodes[1] from rfl] at hn
          cases hn; exact absurd hs (by decide)
        | false =>
          obtain ⟨_, rfl⟩ := Path.of_leaf rest (n := abcNodes[0]) rfl rfl
          rw [show nodeAt abcTree.node (childOf abcNodes[3] false) = .ok abcNodes[0] from rfl] at hn
          cases hn; exact absurd hs (by decide)

/-- A tree of depth 65, which no weights give: leaves 0..65, and internal node 66+k over leaf k+1 and
the internal node before. -/
def combNodes : List Node :=
  (List.range 66).map (fun k => leafNode (BitVec.ofNat 8 k) 1#32) ++
  (List.range 65).map (fun k =>
    { weight := 0#64, left := ixOf (k + 1), right := ixOf (if k = 0 then 0 else 65 + k), sym := 0#8,
      leaf := false, ph := false })

/-- A state that holds it. -/
def comb : State :=
  { State.reset with node := arenaOf combNodes, root := 130#10, nsym := 66#9, nnode := 131#10, tv := true }

theorem comb_children : ChildrenComeFirst comb :=
  arenaOf_forall (P := fun i n => i < 131 →
      (n.leaf = false → n.left.toNat < i ∧ n.right.toNat < i) ∧
      (n.leaf = true → n.left = Config.nil ∧ n.right = Config.nil))
    (fun i hi _ => (by decide +kernel : ∀ (i : Nat) (hi : i < combNodes.length),
      (combNodes[i].leaf = false → combNodes[i].left.toNat < i ∧ combNodes[i].right.toNat < i) ∧
      (combNodes[i].leaf = true → combNodes[i].left = Config.nil ∧ combNodes[i].right = Config.nil)) i hi)
    (fun i hi h => absurd h (by have : combNodes.length = 131 := rfl; omega))

theorem comb_root : RootIsInternal comb := fun _ => ⟨⟨130, by omega⟩, rfl, by decide, rfl⟩

theorem comb_path : CodePath comb.node comb.root (List.replicate 65 true) 0#8 :=
  ⟨0#10, path_of_follow (by decide +kernel), leafNode 0#8 1#32, rfl, rfl, rfl, rfl⟩

/-! ## Witnesses: each meets the hypotheses of the statement it is named after -/

theorem witness_LegalWordIsTheCommandsOnlyWord :
    decode 0x13FF0000FFFFFFFF#64 = .ok (.wld 0xFF#8 0xFFFFFFFF#32) := by decide

/-- One word for each of the four reasons, and a legal one. -/
theorem witness_DecodeFollowsTheRule :
    decode 0xFF00000000000000#64 = .error .unassignedOp ∧ decode 0x0000000100000000#64 = .error .rsvNonzero ∧
    decode 0x2041000000000000#64 = .error .symNonzero ∧ decode 0x1141000000000001#64 = .error .immNonzero ∧
    decode 0x4217000000000000#64 = .ok (.ubyte 0x17#8) := by decide

theorem witness_StepRunsTheDecodedCommand :
    ({ State.reset with port := [.command 0x4300000000000000#64, .hardReset] } : State).port =
      .command 0x4300000000000000#64 :: [.hardReset] ∧
    decode 0x4300000000000000#64 = .ok .uend ∧ decodeTableWord 64 0x4300000000000000 = some .uend := by
  decide

theorem witness_IllegalWordRaisesIllegalCommand :
    ({ State.reset with port := [.command 0x0200000000000000#64] } : State).port =
      .command 0x0200000000000000#64 :: [] ∧
    decode 0x0200000000000000#64 = .error .unassignedOp ∧ State.reset.err = 0#4 := by decide

/-- The exact `RST` word, and the word next to it. -/
theorem witness_FaultedBlockIgnoresAllButReset :
    faulted.err ≠ 0#4 ∧
    ({ faulted with port := [.command 0x0100000000000000#64] } : State).port =
      .command 0x0100000000000000#64 :: [] ∧
    ({ faulted with port := [.command 0x0100000000000001#64] } : State).port =
      .command 0x0100000000000001#64 :: [] ∧
    (0x0100000000000001#64 : Word) ≠ 0x0100000000000000#64 := by decide

theorem witness_IdleBlockKeepsItsState : State.reset.port = [] := rfl

theorem witness_BothResetsLeaveTheResetState :
    ({ faulted with port := [.hardReset] } : State).port = .hardReset :: [] := rfl

/-- A legal word that faults, and an illegal one. -/
theorem witness_FaultsChangeOnlyErrAndErrinfo :
    ∀ w ∈ [0x2100000000000000#64, 0x0200000000000000#64],
      ({ State.reset with port := [.command w] } : State).err = 0#4 ∧
      ∃ t, step { State.reset with port := [.command w] } = .next t ∧ (t.err != 0#4) = true :=
  fun w h => by
    simp only [List.mem_cons, List.not_mem_nil, or_false] at h
    rcases h with rfl | rfl <;> exact ⟨rfl, after_next (by decide +kernel)⟩

theorem witness_RstReturnsEveryElementToReset : faulted.err ≠ 0#4 ∧ Instr.uend ≠ .rst := by decide

/-- Each of the six codes is raised by some step from an unfaulted state. -/
theorem witness_EachFaultCodeHasItsCause :
    (∃ t, step ((abcOwing 2#64).withFetchWord 64 0x4300000000000000) = .next t ∧ (t.err == 1#4) = true) ∧
    (∃ t, step ((oneSymbol 2#64).withFetchWord 64 0x4240000000000000) = .next t ∧ (t.err == 2#4) = true) ∧
    (∃ t, step (comb.withFetchWord 64 0x2100000000000000) = .next t ∧ (t.err == 3#4) = true) ∧
    (∃ t, step (State.reset.withFetchWord 64 0xFF00000000000000) = .next t ∧ (t.err == 4#4) = true) ∧
    (∃ t, step (State.reset.withFetchWord 64 0x3041000000000000) = .next t ∧ (t.err == 5#4) = true) ∧
    (∃ t, step (abcReady.withFetchWord 64 0x3044000000000000) = .next t ∧ (t.err == 6#4) = true) :=
  ⟨after_next (by decide +kernel), after_next (by decide +kernel), after_next (by decide +kernel),
    after_next (by decide +kernel), after_next (by decide +kernel), after_next (by decide +kernel)⟩

/-- `ERR` = 0, the one hypothesis of the statements about `FCLR`, `FACC`, `WSAT`, `WLD`, `TBUILD`, `PFLUSH`
(padding), `ULENL`, `ULENH` and `SequenceError`. -/
theorem witness_unfaulted : State.reset.err = 0#4 ∧ abcReady.err = 0#4 := by decide

theorem witness_FaccCountsOneByte : State.reset.err = 0#4 ∧ (0xFF#8 : Byte) ≠ 0x00#8 := by decide

theorem witness_SequenceErrorExactlyWithoutTheFlag :
    State.reset.err = 0#4 ∧ ∃ t, exec (.penc 0#8) State.reset = .next t ∧ t.err = 5#4 :=
  ⟨rfl, _, rfl, rfl⟩

/-- Also for `TbuildOrdersTheArena`, `InternalWeightsNeverDecrease` and `RootWeighsTheTotal`: `TBUILD`
completes, here on three symbols. -/
theorem witness_TbuildMergesTheLeastTwoPending :
    ({ State.reset with w := abcWeights } : State).err = 0#4 ∧
    ∃ t, exec .tbuild { State.reset with w := abcWeights } = .next t ∧ 2 ≤ t.nsym.toNat := by
  refine ⟨rfl, installTree (buildTree abcWeights) { State.reset with w := abcWeights }, rfl, ?_⟩
  rw [installTree_nsym, abc_built]
  decide

theorem witness_TbuildMakesLeavesInSymbolOrder : readSym abcWeights 0x43#8 ≠ 0#32 := by decide

theorem witness_TbuildInstallsATreeOfTheWeights :
    State.reset.err = 0#4 ∧ ∃ u v : State, u.w = State.reset.w ∧ u.err = 0#4 ∧ u ≠ State.reset ∧
      exec .tbuild u = .next v :=
  ⟨rfl, { State.reset with nacc := 1#64 }, _, rfl, rfl,
    fun h => absurd (congrArg State.nacc h) (by decide), rfl⟩

theorem witness_TbuildOfOneSymbol :
    ({ State.reset with w := oneWeight } : State).err = 0#4 ∧ readSym oneWeight 0x41#8 ≠ 0#32 ∧
    ∀ c : Byte, c ≠ 0x41#8 → readSym oneWeight c = 0#32 :=
  ⟨rfl, by decide, fun c h => by simp [oneWeight, readSym_writeSym, h]⟩

theorem witness_TbuildOfNoSymbol :
    State.reset.err = 0#4 ∧ ∀ b : Byte, readSym State.reset.w b = 0#32 :=
  ⟨rfl, fun b => readSym_fillSym 0#32 b⟩

theorem witness_CgenRecordsTheRootToLeafPaths :
    TreeInv abcTree ∧ abcTree.err = 0#4 ∧ abcTree.tv = true ∧
    (∀ bits b, CodePath abcTree.node abcTree.root bits b → bits.length ≤ 64) ∧
    CodePath abcTree.node abcTree.root [false, false] 0x41#8 :=
  ⟨abcTree_tree, rfl, rfl, abc_paths_short, abc_path_A⟩

/-- The first clause at depth 65, the second on R160's example. -/
theorem witness_CgenRaisesCodeTooLongBeyond64 :
    (CountsAgree comb ∧ ChildrenComeFirst comb ∧ RootIsInternal comb ∧ comb.err = 0#4 ∧ comb.tv = true ∧
      ∃ bits b, CodePath comb.node comb.root bits b ∧ 64 < bits.length) ∧
    (CountsAgree abcTree ∧ ChildrenComeFirst abcTree ∧ RootIsInternal abcTree ∧ abcTree.err = 0#4 ∧
      abcTree.tv = true ∧ (∀ bits b, CodePath abcTree.node abcTree.root bits b → bits.length ≤ 64) ∧
      CodePath abcTree.node abcTree.root [true] 0x43#8 ∧
      ∀ other, CodePath abcTree.node abcTree.root other 0x43#8 → other = [true]) :=
  ⟨⟨by decide, comb_children, comb_root, rfl, rfl, _, _, comb_path, by simp⟩,
    abcTree_tree.counts, abcTree_tree.children, abcTree_tree.root, rfl, rfl, abc_paths_short,
    ⟨2#10, path_of_follow rfl, leafNode 0x43#8 4#32, rfl, rfl, rfl, rfl⟩, abc_path_C_only⟩

theorem witness_NoCodePathIsLongerThan57 :
    TreeInv abcTree ∧ abcTree.tv = true ∧ CodePath abcTree.node abcTree.root [false, false] 0x41#8 :=
  ⟨abcTree_tree, rfl, abc_path_A⟩

theorem witness_NoCodeBeginsAnother :
    Inv abcReady ∧ abcReady.cv = true ∧ (0x41#8 : Byte) ≠ 0x43#8 ∧
    readSym abcReady.codeLen 0x41#8 ≠ 0#7 ∧ readSym abcReady.codeLen 0x43#8 ≠ 0#7 :=
  ⟨abcReady_inv, rfl, by decide, by decide, by decide⟩

theorem witness_EveryLongBitStringBeginsWithACode :
    TreeInv abcTree ∧ abcTree.tv = true ∧ 2 ≤ abcTree.nsym.toNat ∧ 511 ≤ (List.replicate 511 true).length :=
  ⟨abcTree_tree, rfl, by decide, le_of_eq (List.length_replicate ..).symm⟩

/-- A code of length 2, and at the boundary one of length 64; no valid table; a byte without a code. -/
theorem witness_PencAppendsTheCode :
    (abcReady.err = 0#4 ∧ abcReady.cv = true ∧ readSym abcReady.codeLen 0x41#8 ≠ 0#7 ∧
      (readSym abcReady.codeLen 0x41#8).toNat ≤ 64 ∧ PackerFits abcReady) ∧
    ({ State.reset with cv := true, codeLen := fillSym 64#7 } : State).err = 0#4 ∧
    readSym (fillSym 64#7) 0x41#8 ≠ 0#7 ∧ (readSym (fillSym 64#7) 0x41#8).toNat ≤ 64 ∧
    (State.reset.err = 0#4 ∧ State.reset.cv = false) ∧
    abcReady.err = 0#4 ∧ abcReady.cv = true ∧ readSym abcReady.codeLen 0x44#8 = 0#7 := by decide

/-- One bit pending, seven, and none. -/
theorem witness_PflushEmitsThePartialByte :
    ({ State.reset with acc := 1#8, nbits := 1#3 } : State).nbits ≠ 0#3 ∧
    ({ State.reset with acc := 1#8, nbits := 7#3 } : State).nbits ≠ 0#3 ∧ State.reset.nbits = 0#3 ∧
    State.reset.err = 0#4 := by decide

/-- With 7 symbols owed and with none. -/
theorem witness_UbyteDecodesItsBits :
    (TreeInv (abcOwing 7#64) ∧ (abcOwing 7#64).err = 0#4 ∧ (abcOwing 7#64).tv = true ∧
      2 ≤ (abcOwing 7#64).nsym.toNat ∧ (abcOwing 7#64).remain ≠ 0#64 ∧
      Path (abcOwing 7#64).node (abcOwing 7#64).root [] (abcOwing 7#64).cur) ∧
    TreeInv (abcOwing 0#64) ∧ (abcOwing 0#64).remain = 0#64 :=
  ⟨⟨abcOwing_tree _, rfl, rfl, by decide, by decide, .here _⟩, abcOwing_tree _, rfl⟩

/-- No symbol; one symbol with byte 0x00 and with byte 0x40 (V48), and with nothing owed. -/
theorem witness_UbyteOnTreesOfNoAndOneSymbol :
    (TreeInv (noSymbol 1#64) ∧ (noSymbol 1#64).err = 0#4 ∧ (noSymbol 1#64).tv = true ∧
      (noSymbol 1#64).nsym.toNat = 0 ∧ (noSymbol 1#64).remain ≠ 0#64) ∧
    (TreeInv (oneSymbol 9#64) ∧ (oneSymbol 9#64).nsym.toNat = 1 ∧
      (∀ k, k < min 8 (oneSymbol 9#64).remain.toNat → (0x00#8 : Byte).getLsbD (7 - k) = false)) ∧
    (TreeInv (oneSymbol 0#64) ∧
      ∀ k, k < min 8 (oneSymbol 0#64).remain.toNat → (0xFF#8 : Byte).getLsbD (7 - k) = false) ∧
    ∃ k, k < min 8 (oneSymbol 2#64).remain.toNat ∧ (0x40#8 : Byte).getLsbD (7 - k) = true :=
  ⟨⟨noSymbol_tree _, rfl, rfl, rfl, by decide⟩, ⟨oneSymbol_tree _, rfl, by decide⟩,
    ⟨oneSymbol_tree _, by decide⟩, 1, by decide⟩

theorem witness_UbyteWithNothingOwedIsIgnored :
    (noSymbol 0#64).err = 0#4 ∧ (noSymbol 0#64).tv = true ∧ (noSymbol 0#64).remain = 0#64 := by decide

/-- An unused entry has null children. -/
theorem witness_UbyteRaisesCorruptStreamAtANullChild :
    ∃ (s : State) (n : Node), s.err = 0#4 ∧ s.tv = true ∧ s.remain ≠ 0#64 ∧
      nodeAt s.node s.cur = .ok n ∧ (if (0x80#8 : Byte).getLsbD 7 then n.right else n.left) = 0x3FF#10 :=
  ⟨{ State.reset with tv := true, remain := 1#64, cur := 0#10 }, Node.fresh, rfl, rfl, by decide, rfl, rfl⟩

theorem witness_UendDetectsMissingSymbols :
    State.reset.err = 0#4 ∧ State.reset.remain = 0#64 ∧ (abcOwing 1#64).err = 0#4 ∧
    (abcOwing 1#64).remain ≠ 0#64 := by decide

theorem witness_WalkOverACodeEmitsItsByte :
    Inv abcReady ∧ abcReady.cv = true ∧ readSym abcReady.codeLen 0x42#8 ≠ 0#7 ∧ (1#64 : Word) ≠ 0#64 :=
  ⟨abcReady_inv, rfl, by decide, by decide⟩

theorem witness_CommandsWriteOnlyTheirColumns :
    exec .nop State.reset = .next State.reset ∧ Instr.nop ≠ .rst := ⟨rfl, by decide⟩

theorem witness_ValidityFlagsFollowTheCommands :
    State.reset.err = 0#4 ∧ ∃ t, exec (.wld 0#8 1#32) State.reset = .next t ∧ t.err = 0#4 :=
  ⟨rfl, _, rfl, rfl⟩

/-- The reserved addresses at the edges of their ranges, and one next to each range that is not. -/
theorem witness_ReadMapShowsEveryElement :
    ∀ a ∈ [0x00B#12, 0x0FF#12, 0x500#12, 0x7FF#12, 0x9FF#12, 0xBFF#12, 0xFFF#12],
      (0x00B#12 ≤ a ∧ a ≤ 0x0FF#12) ∨ (0x500#12 ≤ a ∧ a ≤ 0x7FF#12) ∨ a = 0x9FF#12 ∨ 0xBFF#12 ≤ a := by
  decide

theorem witness_LinkWordPacksTheNarrowFields : State.reset.node[(510 : Fin 511).val] = Node.fresh := by
  simp [State.reset]

theorem witness_ReadPortWorksWhileFaulted :
    State.reset.err = 0#4 ∧ (∃ t, exec .cgen State.reset = .next t ∧ t.err ≠ 0#4) ∧
    (0x003#12 : ReadAddr) ≠ 0x001#12 ∧ (0x003#12 : ReadAddr) ≠ 0x002#12 :=
  ⟨rfl, ⟨_, rfl, by decide⟩, by decide, by decide⟩

/-- The fixed part of a container with the given method id, all else 0; with method 1 it is E4's
container of the empty input. -/
def headerOnly (method : Byte) : List Byte := [0x48#8, 0x46#8, 0x32#8, method] ++ List.replicate 1032 0#8

theorem headerOnly_length (method : Byte) : 1036 ≤ (headerOnly method).length := by
  rw [headerOnly, List.length_append, List.length_replicate]; simp

/-- A buffer for each outcome of the parse. -/
theorem witness_ParseChecksLengthTagMethod :
    (List.replicate 1035 0#8).length < 1036 ∧
    (1036 ≤ (List.replicate 1036 0#8).length ∧
      (List.replicate 1036 0#8).take 3 ≠ [0x48#8, 0x46#8, 0x32#8]) ∧
    (1036 ≤ (headerOnly 2#8).length ∧ (headerOnly 2#8).take 3 = [0x48#8, 0x46#8, 0x32#8] ∧
      ((headerOnly 2#8).drop 3).head? ≠ some 0x01#8) ∧
    (1036 ≤ (headerOnly 1#8).length ∧ (headerOnly 1#8).take 3 = [0x48#8, 0x46#8, 0x32#8] ∧
      ((headerOnly 1#8).drop 3).head? = some 0x01#8) :=
  ⟨by rw [List.length_replicate]; decide, ⟨by rw [List.length_replicate], by decide⟩,
    ⟨headerOnly_length _, rfl, by decide⟩, headerOnly_length _, rfl, by decide⟩

theorem witness_AutoSafeReturnsOnlySmallerContainers : ([] : List Byte).length ≤ 1036 := by decide

/-- A container of one declared symbol with all counts 0 and no bitstream. -/
def owingOne : List Byte :=
  [0x48#8, 0x46#8, 0x32#8, 0x01#8, 0x01#8] ++ List.replicate 1031 0#8

/-- A call of `CGEN` without a tree (R248) from a faulted block, and the decompression of a container
without the byte it owes (R221: it "ends in `TruncatedStream`"). -/
theorem witness_FaultedCallResetsAndReports :
    (∃ t, issue [.rst, .cgen] faulted = .next t ∧ (t.err != 0#4) = true) ∧
    (match parse owingOne with
      | .ok k => k.length != 0#64 &&
          after (issue (decompressCommands k.length k.weights k.stream) State.reset) (fun t => t.err == 1#4)
      | .error _ => false) = true ∧
    (∃ t, issue (compressCommands []) State.reset = .next t ∧ (t.err == 0#4) = true) :=
  ⟨after_next (by decide +kernel), by decide +kernel, after_next (by decide +kernel)⟩

/-- R228: after the fault the block is reset and the error reported. -/
theorem test_call_resets_after_fault :
    (let e := runCall [.rst, .wsat, .cgen] HostError.internalError (fun t => .ok t.out) faulted
     e.block.err == 0#4 && e.block.errinfo == 0#64 && e.block.port == [] &&
      (match e.result with
        | .error (.internalError code) => code == 5#4
        | _ => false)) = true := by decide +kernel

theorem witness_StepKeepsTheInvariants :
    PortsInv abcReady ∧ TreeInv abcReady ∧ CodeInv abcReady ∧ step abcReady = .next abcReady :=
  ⟨abcReady_inv.ports, abcReady_inv.tree, abcReady_inv.codes, rfl⟩

theorem witness_EveryStepCompletes : Inv abcReady := abcReady_inv

end Sys2Proof.Tests
end

section
/-!
PROOFS. The bits of the `STATUS` word (spec 10_state.md R34).
-/

namespace Sys2Proof.Machine

/-- The read port answers the assembled word at address 0x001 (R34, R63). -/
theorem regRead_status (s : State) : regRead 0x001#12 s = statusWord s := rfl

@[simp] theorem treeEmpty_iff (s : State) : treeEmpty s = true ↔ s.tv = true ∧ s.nsym = 0#9 := by
  simp [treeEmpty]

@[simp] theorem packPending_iff (s : State) : packPending s = true ↔ s.nbits ≠ 0#3 := by
  simp [packPending]

@[simp] theorem unpackDone_iff (s : State) : unpackDone s = true ↔ s.remain = 0#64 := by
  simp [unpackDone]

/-- The whole of R34's table: a bit of `STATUS` is a bit of `ERR`, one of the five flags, or 0. -/
theorem getLsbD_statusWord (s : State) (i : Nat) :
    (statusWord s).getLsbD i =
      if i < 4 then s.err.getLsbD i
      else if i = 4 then s.tv
      else if i = 5 then treeEmpty s
      else if i = 6 then s.cv
      else if i = 7 then packPending s
      else if i = 8 then unpackDone s
      else false := by
  simp only [statusWord, BitVec.getLsbD_append, BitVec.getLsbD_ofBool, BitVec.getLsbD_zero]
  obtain hlow | hhigh | rfl | rfl | rfl | rfl | rfl :
      i < 4 ∨ 9 ≤ i ∨ i = 4 ∨ i = 5 ∨ i = 6 ∨ i = 7 ∨ i = 8 := by omega
  · have hlt (k : Nat) (hk : 4 ≤ k) : i < k := by omega
    simp [hlt]
  · have hge (k : Nat) (hk : k ≤ 9) : ¬ i < k := by omega
    have hne (k : Nat) (hk : k < 9) : i ≠ k := by omega
    simp [hge, hne]
  all_goals simp

/-- Bits 3:0 of `STATUS` are `ERR`. -/
theorem statusWord_errBits (s : State) : (statusWord s).extractLsb' 0 4 = s.err := by
  refine BitVec.eq_of_getLsbD_eq fun i hi => ?_
  simp [getLsbD_statusWord, hi]

/-- Bits 63:9 of `STATUS` are 0. -/
theorem statusWord_reservedBits (s : State) : (statusWord s).extractLsb' 9 55 = 0#55 := by
  refine BitVec.eq_of_getLsbD_eq fun i _ => ?_
  have hne (k : Nat) (hk : k < 9) : 9 + i ≠ k := by omega
  simp [getLsbD_statusWord, hne, show ¬ 9 + i < 4 by omega]

/-- After reset only `UD` is set (R34). -/
theorem statusWord_reset : statusWord State.reset = 0x100#64 := rfl

/-- Settles O48: the flags are single rows of `getLsbD_statusWord`, `ERR` and the zeros its two ends. -/
theorem statusWordHoldsTheFlags : Obligations.StatusWordHoldsTheFlags := by
  intro s
  simp only [regRead_status]
  refine ⟨statusWord_errBits s, getLsbD_statusWord s 4, ?te, getLsbD_statusWord s 6, ?pp, ?ud,
    statusWord_reservedBits s, statusWord_reset⟩
  case te => exact getLsbD_statusWord s 5 ▸ treeEmpty_iff s
  case pp => exact getLsbD_statusWord s 7 ▸ packPending_iff s
  case ud => exact getLsbD_statusWord s 8 ▸ unpackDone_iff s

end Sys2Proof.Machine
end

section
/-!
PROOFS. The address map of the read port and the link word (spec 20_memory.md R63 to R65).
-/

namespace Sys2Proof.Machine

/-! ## Addresses: a base plus an offset that stays inside its range -/

theorem toNat_symAddr (base : ReadAddr) (b : Byte) (h : base.toNat ≤ 0xF00) :
    (base + b.setWidth 12).toNat = base.toNat + b.toNat := by
  have hb : (b.setWidth 12).toNat = b.toNat := BitVec.toNat_setWidth_of_le (by decide)
  rw [BitVec.toNat_add_of_lt (by omega), hb]

/-- The low byte of an address in a symbol file is the symbol: every base is a multiple of 256. -/
theorem setWidth_symAddr (base : ReadAddr) (b : Byte) (h : base.setWidth 8 = 0#8) :
    (base + b.setWidth 12).setWidth 8 = b := by
  rw [BitVec.setWidth_add _ _ (by decide), h]
  simp

theorem toNat_nodeAddr (base : ReadAddr) (i : Fin 511) (h : base.toNat ≤ 0xE00) :
    (base + BitVec.ofNat 12 i.val).toNat = base.toNat + i.val := by
  have hi : (BitVec.ofNat 12 i.val).toNat = i.val := by simp; omega
  rw [BitVec.toNat_add_of_lt (by omega), hi]

/-! ## The rows of the map: what the port answers in each range of addresses (R63) -/

section Rows
variable (s : State) {a : ReadAddr}

theorem regRead_low (h : a.toNat < 0x100) : regRead a s = regReadLow a.toNat s := by
  simp [regRead, h]

theorem regRead_freqRange (hl : 0x100 ≤ a.toNat) (hu : a.toNat < 0x200) :
    regRead a s = readSym s.freq (a.setWidth 8) := by
  have hge (k : Nat) (hk : k ≤ 0x100) : ¬ a.toNat < k := by omega
  simp [regRead, hge, hu]

theorem regRead_wRange (hl : 0x200 ≤ a.toNat) (hu : a.toNat < 0x300) :
    regRead a s = (readSym s.w (a.setWidth 8)).setWidth 64 := by
  have hge (k : Nat) (hk : k ≤ 0x200) : ¬ a.toNat < k := by omega
  simp [regRead, hge, hu]

theorem regRead_codeBitsRange (hl : 0x300 ≤ a.toNat) (hu : a.toNat < 0x400) :
    regRead a s = readSym s.codeBits (a.setWidth 8) := by
  have hge (k : Nat) (hk : k ≤ 0x300) : ¬ a.toNat < k := by omega
  simp [regRead, hge, hu]

theorem regRead_codeLenRange (hl : 0x400 ≤ a.toNat) (hu : a.toNat < 0x500) :
    regRead a s = (readSym s.codeLen (a.setWidth 8)).setWidth 64 := by
  have hge (k : Nat) (hk : k ≤ 0x400) : ¬ a.toNat < k := by omega
  simp [regRead, hge, hu]

theorem regRead_gapRange (hl : 0x500 ≤ a.toNat) (hu : a.toNat < 0x800) : regRead a s = 0#64 := by
  have hge (k : Nat) (hk : k ≤ 0x500) : ¬ a.toNat < k := by omega
  simp [regRead, hge, hu]

theorem regRead_weightRange (hl : 0x800 ≤ a.toNat) (hu : a.toNat < 0xA00) :
    regRead a s = arenaRead s.node Node.weight (a.toNat - 0x800) := by
  have hge (k : Nat) (hk : k ≤ 0x800) : ¬ a.toNat < k := by omega
  simp [regRead, hge, hu]

theorem regRead_linkRange (hl : 0xA00 ≤ a.toNat) (hu : a.toNat < 0xC00) :
    regRead a s = arenaRead s.node linkWord (a.toNat - 0xA00) := by
  have hge (k : Nat) (hk : k ≤ 0xA00) : ¬ a.toNat < k := by omega
  simp [regRead, hge, hu]

theorem regRead_highRange (hl : 0xC00 ≤ a.toNat) : regRead a s = 0#64 := by
  have hge (k : Nat) (hk : k ≤ 0xC00) : ¬ a.toNat < k := by omega
  simp [regRead, hge]

end Rows

@[simp] theorem arenaRead_of_lt (n : Arena) (view : Node → Word) {i : Nat} (h : i < 511) :
    arenaRead n view i = view n[i] := by
  simp [arenaRead, h]

@[simp] theorem arenaRead_of_ge (n : Arena) (view : Node → Word) {i : Nat} (h : 511 ≤ i) :
    arenaRead n view i = 0#64 := by
  simp [arenaRead, Nat.not_lt.mpr h]

theorem regReadLow_reserved (s : State) {n : Nat} (h : 0x00B ≤ n) : regReadLow n s = 0#64 := by
  obtain ⟨k, rfl⟩ := Nat.exists_eq_add_of_le' h
  rfl

/-- The reserved addresses are the end of the fixed range, the gap below the arena, the entry past the
last node in either arena view, and everything above. -/
theorem regRead_reserved (s : State) (a : ReadAddr)
    (h : (0x00B#12 ≤ a ∧ a ≤ 0x0FF#12) ∨ (0x500#12 ≤ a ∧ a ≤ 0x7FF#12) ∨ a = 0x9FF#12 ∨ 0xBFF#12 ≤ a) :
    regRead a s = 0#64 := by
  simp only [BitVec.le_def, BitVec.toNat_ofNat] at h
  obtain ⟨hl, hu⟩ | ⟨hl, hu⟩ | rfl | hl := h
  · rw [regRead_low s (by omega), regReadLow_reserved s (by omega)]
  · exact regRead_gapRange s (by omega) (by omega)
  · rw [regRead_weightRange s (by decide) (by decide), arenaRead_of_ge _ _ (by decide)]
  · obtain hlast | habove : a.toNat < 0xC00 ∨ 0xC00 ≤ a.toNat := by omega
    · rw [regRead_linkRange s (by omega) hlast, arenaRead_of_ge _ _ (by omega)]
    · exact regRead_highRange s habove

/-- The output bytes are at no address. -/
theorem regRead_out (s : State) (a : ReadAddr) (bytes : List Byte) :
    regRead a { s with out := bytes } = regRead a s := rfl

/-! ## The elements, each at its own address -/

section Elements
variable (s : State) (b : Byte) (i : Fin 511)

theorem regRead_freq : regRead (0x100#12 + b.setWidth 12) s = readSym s.freq b := by
  have ha : _ = 0x100 + b.toNat := toNat_symAddr 0x100#12 b (by decide)
  rw [regRead_freqRange s (by omega) (by omega), setWidth_symAddr _ b rfl]

theorem regRead_w : regRead (0x200#12 + b.setWidth 12) s = (readSym s.w b).setWidth 64 := by
  have ha : _ = 0x200 + b.toNat := toNat_symAddr 0x200#12 b (by decide)
  rw [regRead_wRange s (by omega) (by omega), setWidth_symAddr _ b rfl]

theorem regRead_codeBits : regRead (0x300#12 + b.setWidth 12) s = readSym s.codeBits b := by
  have ha : _ = 0x300 + b.toNat := toNat_symAddr 0x300#12 b (by decide)
  rw [regRead_codeBitsRange s (by omega) (by omega), setWidth_symAddr _ b rfl]

theorem regRead_codeLen :
    regRead (0x400#12 + b.setWidth 12) s = (readSym s.codeLen b).setWidth 64 := by
  have ha : _ = 0x400 + b.toNat := toNat_symAddr 0x400#12 b (by decide)
  rw [regRead_codeLenRange s (by omega) (by omega), setWidth_symAddr _ b rfl]

theorem regRead_nodeWeight :
    regRead (0x800#12 + BitVec.ofNat 12 i.val) s = s.node[i.val].weight := by
  have ha : _ = 0x800 + i.val := toNat_nodeAddr 0x800#12 i (by decide)
  rw [regRead_weightRange s (by omega) (by omega)]
  simp only [ha, Nat.add_sub_cancel_left, i.isLt, arenaRead_of_lt]

theorem regRead_nodeLink :
    regRead (0xA00#12 + BitVec.ofNat 12 i.val) s = linkWord s.node[i.val] := by
  have ha : _ = 0xA00 + i.val := toNat_nodeAddr 0xA00#12 i (by decide)
  rw [regRead_linkRange s (by omega) (by omega)]
  simp only [ha, Nat.add_sub_cancel_left, i.isLt, arenaRead_of_lt]

end Elements

/-! ## The packed words: no field straddles a boundary (R63, R64) -/

section PackedWords
variable (s : State) (n : Node)

theorem packWord_fields :
    (packWord s).extractLsb' 0 8 = s.acc ∧ (packWord s).extractLsb' 8 3 = s.nbits ∧
    (packWord s).extractLsb' 11 53 = 0#53 := by
  simp (disch := decide) only [packWord, BitVec.extractLsb'_append_eq_of_add_le,
    BitVec.extractLsb'_append_eq_of_le]
  simp

theorem linkWord_fields :
    (linkWord n).extractLsb' 0 10 = n.left ∧ (linkWord n).extractLsb' 10 10 = n.right ∧
    (linkWord n).extractLsb' 20 8 = n.sym ∧ (linkWord n).extractLsb' 30 34 = 0#34 := by
  simp (disch := decide) only [linkWord, BitVec.extractLsb'_append_eq_of_add_le,
    BitVec.extractLsb'_append_eq_of_le]
  simp

theorem linkWord_flags :
    (linkWord n).getLsbD 28 = n.leaf ∧ (linkWord n).getLsbD 29 = n.ph := by
  simp only [linkWord, BitVec.getLsbD_append]
  simp

theorem linkWord_fresh : linkWord Node.fresh = 0xFFFFF#64 := rfl

end PackedWords

/-- Settles O47: the fixed addresses read by computation, each range by its row of the map. -/
theorem readMapShowsEveryElement : Obligations.ReadMapShowsEveryElement := by
  intro s
  obtain ⟨hacc, hnbits, hzero⟩ := packWord_fields s
  exact ⟨rfl, regRead_status s, rfl, rfl, rfl, rfl, rfl, hacc, hnbits, hzero, rfl, rfl, rfl,
    fun b => ⟨regRead_freq s b, regRead_w s b, regRead_codeBits s b, regRead_codeLen s b⟩,
    fun i => ⟨regRead_nodeWeight s i, regRead_nodeLink s i⟩, regRead_reserved s, regRead_out s⟩

/-- Settles O49: the port answers the link word, whose fields are then read one by one. -/
theorem linkWordPacksTheNarrowFields : Obligations.LinkWordPacksTheNarrowFields := by
  intro s i
  simp only [regRead_nodeLink, regRead_nodeWeight]
  obtain ⟨hleft, hright, hsym, hzero⟩ := linkWord_fields s.node[i.val]
  obtain ⟨hleaf, hph⟩ := linkWord_flags s.node[i.val]
  refine ⟨hleft, hright, hsym, hleaf, hph, hzero, fun hfresh => ?unused⟩
  case unused =>
    rw [hfresh]
    exact ⟨linkWord_fresh, rfl⟩

end Sys2Proof.Machine
end

section
/-!
PROOFS. The decoder by its rule, and what the block does with an illegal word (spec 30_encoding.md
R92 to R95).
-/

namespace Sys2Proof

/-- The commands of a format, one for each row of the opcode map (R94); an operand, which no opcode
depends on, is 0. -/
def commandsOf : Format → List Instr
  | .n => [.nop, .rst, .fclr, .wsat, .tbuild, .cgen, .pflush, .uend]
  | .b => [.facc 0#8, .penc 0#8, .ubyte 0#8]
  | .i => [.ulenl 0#32, .ulenh 0#32]
  | .si => [.wld 0#8 0#32]

/-- The opcodes of a format (R94). -/
def opcodesOf (k : Format) : List Byte := (commandsOf k).map opcode

/-- The command with its operands, where its format has any, replaced by those in the fields. -/
def Instr.withOperandsOf (f : Fields) : Instr → Instr
  | .facc _ => .facc f.sym
  | .wld _ _ => .wld f.sym f.imm
  | .penc _ => .penc f.sym
  | .ulenl _ => .ulenl f.imm
  | .ulenh _ => .ulenh f.imm
  | .ubyte _ => .ubyte f.sym
  | c => c

@[simp] theorem opcode_withOperandsOf (f : Fields) (c : Instr) :
    opcode (c.withOperandsOf f) = opcode c := by
  cases c <;> rfl

theorem opcode_mem_opcodesOf {c : Instr} {k : Format} : opcode c ∈ opcodesOf k ↔ formatOf c = k := by
  cases c <;> cases k <;> simp [opcode, opcodesOf, commandsOf, formatOf]

/-! ## The opcode selects the command -/

theorem commandOf_of_op_eq {f : Fields} (c : Instr) (h : f.op = opcode c) :
    commandOf f = some (c.withOperandsOf f) := by
  unfold commandOf
  rw [h]
  cases c <;> rfl

theorem commandOf_eq_none {f : Fields} (h : ∀ c, f.op ≠ opcode c) : commandOf f = none :=
  (if_neg (h .nop)).trans <| (if_neg (h .rst)).trans <| (if_neg (h .fclr)).trans <|
  (if_neg (h (.facc 0#8))).trans <| (if_neg (h .wsat)).trans <| (if_neg (h (.wld 0#8 0#32))).trans <|
  (if_neg (h .tbuild)).trans <| (if_neg (h .cgen)).trans <| (if_neg (h (.penc 0#8))).trans <|
  (if_neg (h .pflush)).trans <| (if_neg (h (.ulenl 0#32))).trans <| (if_neg (h (.ulenh 0#32))).trans <|
  (if_neg (h (.ubyte 0#8))).trans <| if_neg (h .uend)

theorem op_eq_of_commandOf {f : Fields} {c : Instr} (h : commandOf f = some c) : f.op = opcode c := by
  by_cases hop : ∃ d, f.op = opcode d
  · obtain ⟨d, hd⟩ := hop
    obtain rfl := Option.some.inj ((commandOf_of_op_eq d hd).symm.trans h)
    rw [hd, opcode_withOperandsOf]
  · rw [commandOf_eq_none (not_exists.mp hop)] at h
    cases h

theorem op_notMem_of_commandOf_eq_none {f : Fields} (h : commandOf f = none) (k : Format) :
    f.op ∉ opcodesOf k := by
  intro hmem
  obtain ⟨d, -, hd⟩ := List.mem_map.mp hmem
  rw [commandOf_of_op_eq d hd.symm] at h
  cases h

/-! ## The checks after the opcode -/

theorem problem_eq_none_iff {f : Fields} {k : Format} :
    f.problem k = none ↔ f.rsv = 0#16 ∧ (k.usesSym = false → f.sym = 0#8) ∧
      (k.usesImm = false → f.imm = 0#32) := by
  unfold Fields.problem
  split_ifs <;> simp_all

/-! ## The decoder, a case at a time -/

section Decode
variable {w : Word} {c : Instr}

theorem decode_of_commandOf_none (hc : commandOf (fieldsOfWord w) = none) :
    decode w = .error .unassignedOp := by
  simp only [decode, hc]

theorem decode_of_problem {why : Illegal} (hc : commandOf (fieldsOfWord w) = some c)
    (hp : (fieldsOfWord w).problem (formatOf c) = some why) : decode w = .error why := by
  simp only [decode, hc, hp]

theorem decode_of_problem_none (hc : commandOf (fieldsOfWord w) = some c)
    (hp : (fieldsOfWord w).problem (formatOf c) = none) : decode w = .ok c := by
  simp only [decode, hc, hp]

theorem commandOf_of_decode (h : decode w = .ok c) : commandOf (fieldsOfWord w) = some c := by
  cases hc : commandOf (fieldsOfWord w) with
  | none => simp [decode_of_commandOf_none hc] at h
  | some d =>
    cases hp : (fieldsOfWord w).problem (formatOf d) with
    | none => simpa [decode_of_problem_none hc hp] using h
    | some why => simp [decode_of_problem hc hp] at h

theorem exists_decode_error_iff_problem (hc : commandOf (fieldsOfWord w) = some c) :
    (∃ why, decode w = .error why) ↔ (fieldsOfWord w).problem (formatOf c) ≠ none := by
  cases hp : (fieldsOfWord w).problem (formatOf c) with
  | none => simp [decode_of_problem_none hc hp]
  | some why => simp [decode_of_problem hc hp]

/-- A legal word is the command of any row its opcode matches, with the word's own operands. -/
theorem decoded_eq_withOperandsOf (h : decode w = .ok c) (d : Instr)
    (hop : (fieldsOfWord w).op = opcode d) : c = d.withOperandsOf (fieldsOfWord w) :=
  Option.some.inj ((commandOf_of_decode h).symm.trans (commandOf_of_op_eq d hop))

end Decode

/-- The reasons of R95, whole. -/
theorem exists_decode_error_iff (w : Word) :
    (∃ why, decode w = .error why) ↔
      (fieldsOfWord w).op ∉ opcodesOf .n ++ opcodesOf .b ++ opcodesOf .i ++ opcodesOf .si ∨
      (fieldsOfWord w).rsv ≠ 0#16 ∨
      ((fieldsOfWord w).op ∈ opcodesOf .n ++ opcodesOf .i ∧ (fieldsOfWord w).sym ≠ 0#8) ∨
      ((fieldsOfWord w).op ∈ opcodesOf .n ++ opcodesOf .b ∧ (fieldsOfWord w).imm ≠ 0#32) := by
  cases hc : commandOf (fieldsOfWord w) with
  | none => simp [decode_of_commandOf_none hc, op_notMem_of_commandOf_eq_none hc]
  | some c =>
    rw [exists_decode_error_iff_problem hc, Ne, problem_eq_none_iff]
    simp only [List.mem_append, op_eq_of_commandOf hc, opcode_mem_opcodesOf]
    cases formatOf c <;> simp [Format.usesSym, Format.usesImm] <;> tauto

end Sys2Proof

namespace Sys2Proof.Machine

theorem illegalWord_of_unfaulted (word : Word) {s : State} (herr : s.err = 0#4) :
    illegalWord word s = { s with err := 4#4, errinfo := word } := by
  simp [illegalWord, herr, raiseFault, faultCode]

theorem step_of_decode_error {s : State} {w : Word} {rest : List Input} {why : Illegal}
    (hport : s.port = .command w :: rest) (hd : decode w = .error why) :
    step s = .next (illegalWord w { s with port := rest }) := by
  simp only [step, takeInput_cons hport, hd]

/-- Settles O4: the reasons by format, each opcode's row of the map, and the step of an illegal word. -/
theorem decodeFollowsTheRule : Obligations.DecodeFollowsTheRule := by
  intro w
  refine ⟨exists_decode_error_iff w, fun c hc => ?operands, fun s rest why hd herr hport => ?fault⟩
  case operands =>
    have row := decoded_eq_withOperandsOf hc
    exact ⟨row .nop, row .rst, row .fclr, row (.facc 0#8), row .wsat, row (.wld 0#8 0#32), row .tbuild,
      row .cgen, row (.penc 0#8), row .pflush, row (.ulenl 0#32), row (.ulenh 0#32), row (.ubyte 0#8),
      row .uend⟩
  case fault =>
    rw [step_of_decode_error hport hd, illegalWord_of_unfaulted w (s := { s with port := rest }) herr]

end Sys2Proof.Machine
end

section
/-!
PROOFS. The word of a command as a sum of its opcode and operands, each at its place (spec
30_encoding.md R91 to R94).
-/

namespace Sys2Proof

theorem toNat_append_eq_add {m n : Nat} (x : BitVec m) (y : BitVec n) :
    (x ++ y).toNat = x.toNat * 2 ^ n + y.toNat := by
  rw [BitVec.toNat_append, ← Nat.shiftLeft_add_eq_or_of_lt y.isLt, Nat.shiftLeft_eq]

@[simp] theorem fieldsOf_op (c : Instr) : (fieldsOf c).op = opcode c := by
  cases c <;> rfl

@[simp] theorem fieldsOf_rsv (c : Instr) : (fieldsOf c).rsv = 0#16 := by
  cases c <;> rfl

/-- Fields do not overlap, so putting them side by side is adding them with no carry. -/
theorem wordOfFields_eq_add {f : Fields} (hrsv : f.rsv = 0#16) :
    wordOfFields f =
      (f.op.setWidth 64 <<< 56) + (f.sym.setWidth 64 <<< 48) + f.imm.setWidth 64 := by
  apply BitVec.eq_of_toNat_eq
  simp only [wordOfFields, hrsv, toNat_append_eq_add, BitVec.toNat_add, BitVec.toNat_shiftLeft,
    BitVec.toNat_setWidth, BitVec.toNat_ofNat, Nat.shiftLeft_eq]
  omega

/-- The word of a command is its match (R96) with the operands added in their fields. -/
theorem encode_eq_matchOf_add (c : Instr) :
    encode c = matchOf c + ((fieldsOf c).sym.setWidth 64 <<< 48) + (fieldsOf c).imm.setWidth 64 := by
  rw [encode, wordOfFields_eq_add (fieldsOf_rsv c), fieldsOf_op, matchOf]

theorem encode_facc (b : Byte) :
    encode (.facc b) = 0x1100000000000000#64 + (b.setWidth 64 <<< 48) := by
  rw [encode_eq_matchOf_add]
  simp [fieldsOf, matchOf, opcode]

theorem encode_wld (b : Byte) (w : Half) :
    encode (.wld b w) = 0x1300000000000000#64 + (b.setWidth 64 <<< 48) + w.setWidth 64 := by
  rw [encode_eq_matchOf_add]
  simp [fieldsOf, matchOf, opcode]

end Sys2Proof
end

section
/-!
PROOFS. The histogram and the weights: `FCLR`, `FACC`, `WSAT` and `WLD` (spec 40_frequency.md R121 to
R125).
-/

namespace Sys2Proof.Machine

/-- The saturation function is a minimum of numbers (R121). -/
theorem toNat_sat32 (x : Word) : (sat32 x).toNat = min x.toNat (2 ^ 32 - 1) := by
  unfold sat32
  split
  case isTrue hle =>
    have hx : x.toNat ≤ 2 ^ 32 - 1 := hle
    rw [BitVec.toNat_setWidth, Nat.mod_eq_of_lt (by omega), Nat.min_eq_left hx]
  case isFalse hgt =>
    have hx : ¬ x.toNat ≤ 2 ^ 32 - 1 := hgt
    exact (Nat.min_eq_right (by omega)).symm

/-- Settles O19: `WSAT` maps `sat32`, which is a minimum, over the counts. -/
theorem wsatSaturatesEveryCount : Obligations.WsatSaturatesEveryCount := by
  refine ⟨rfl, fun s herr => ⟨_, exec_of_ok (by simp) herr rfl, fun b => ?weight, rfl⟩⟩
  case weight =>
    calc (readSym (mapSym sat32 s.freq) b).toNat
      _ = (sat32 (readSym s.freq b)).toNat := by rw [readSym_mapSym]
      _ = min (readSym s.freq b).toNat (2 ^ 32 - 1) := toNat_sat32 _

/-- Settles O17: every entry of a filled file reads the fill value. -/
theorem fclrClearsTheHistogram : Obligations.FclrClearsTheHistogram :=
  ⟨rfl, fun _ herr => ⟨_, exec_of_ok (by simp) herr rfl, readSym_fillSym 0#64, rfl⟩⟩

/-- Settles O18: one entry of the histogram is written, and the two sums are those of 64-bit words. -/
theorem faccCountsOneByte : Obligations.FaccCountsOneByte := by
  intro b
  refine ⟨encode_facc b, fun s herr =>
    ⟨_, exec_of_ok (by simp) herr rfl, ?count, fun c hc => readSym_writeSym_other _ _ hc,
      BitVec.toNat_add s.nacc 1#64, rfl⟩⟩
  case count => rw [readSym_writeSym_same]; exact BitVec.toNat_add _ 1#64

/-- Settles O20: one entry of the weights is written, and the flags are cleared. -/
theorem wldLoadsOneWeight : Obligations.WldLoadsOneWeight := by
  intro b w
  exact ⟨encode_wld b w, fun s herr =>
    ⟨_, exec_of_ok (by simp) herr rfl, readSym_writeSym_same s.w b w,
      fun c hc => readSym_writeSym_other s.w w hc, rfl⟩⟩

end Sys2Proof.Machine
end

section
/-!
PROOFS. What `TBUILD` installs, and its leaves in symbol order (spec 41_tree.md R141, R142).
-/

namespace Sys2Proof.Machine

/-! ## What `TBUILD` installs (R141) -/

theorem exec_tbuild {s : State} (herr : s.err = 0#4) :
    exec .tbuild s = .next (installTree (buildTree s.w) s) :=
  exec_of_ok (by simp) herr rfl

theorem eq_installTree_of_exec {s t : State} (herr : s.err = 0#4) (h : exec .tbuild s = .next t) :
    t = installTree (buildTree s.w) s := by
  rw [exec_tbuild herr] at h
  cases h
  rfl

theorem treeOfLeaves_of_two_le {leaves : List Node} (h : 2 ≤ leaves.length) :
    treeOfLeaves leaves =
      treeOf (leaves ++ (mergeLoop leaves.length (pendingFrom 0 leaves) leaves.length).1)
        (rootOf (mergeLoop leaves.length (pendingFrom 0 leaves) leaves.length).2) leaves.length := by
  match leaves, h with
  | _ :: _ :: _, _ => rfl

/-- Every node the merge loop creates is internal. -/
theorem mergeLoop_internal (fuel : Nat) (p : List Pending) (n : Nat) :
    ∀ d ∈ (mergeLoop fuel p n).1, d.leaf = false := by
  induction fuel generalizing p n with
  | zero => simp [mergeLoop]
  | succ fuel ih =>
    unfold mergeLoop
    split
    · simp
    · split
      · simp
      · simpa [joinNode] using ih _ _

/-- The arena holds the leaves first, and no real leaf after them. -/
theorem treeOfLeaves_node (leaves : List Node) :
    ∃ inner, (treeOfLeaves leaves).node = arenaOf (leaves ++ inner) ∧
      ∀ d ∈ inner, d.leaf = true → d.ph = true := by
  match leaves with
  | [] => exact ⟨[], rfl, by simp⟩
  | [l] => exact ⟨_, rfl, by simp [placeholderNode, joinNode]⟩
  | a :: b :: ls =>
    refine ⟨_, congrArg Tree.node (treeOfLeaves_of_two_le (by simp)), fun d hd hleaf => ?_⟩
    simp [mergeLoop_internal _ _ _ d hd] at hleaf

/-! ## The leaf of a symbol (R142) -/

/-- An element stands in a filtered list after those that passed before it. -/
theorem getElem?_filter_iff {α : Type} (p : α → Bool) (l : List α) (i : Nat) (x : α) :
    (l.filter p)[i]? = some x ↔ ∃ j, l[j]? = some x ∧ p x = true ∧ i = (l.take j).countP p := by
  induction l generalizing i with
  | nil => simp
  | cons y ys ih =>
    rw [← Nat.or_exists_add_one]
    by_cases hy : p y = true
    · cases i with
      | zero => simpa [hy] using fun h => h ▸ hy
      | succ i => simp [hy, ih]
    · simpa [hy, ih] using fun (h : y = x) hx => absurd (h ▸ hx) hy

theorem allSyms_getElem?_iff (j : Nat) (b : Byte) : allSyms[j]? = some b ↔ j = b.toNat := by
  have hb := b.isLt
  constructor
  · intro h
    obtain ⟨hj, rfl⟩ := List.getElem?_eq_some_iff.mp h
    have hlt : j < 256 := by simpa [allSyms] using hj
    simp [allSyms, Nat.mod_eq_of_lt hlt]
  · rintro rfl
    simp [allSyms, hb]

theorem countP_take_allSyms (w : SymFile Half) (b : Byte) :
    (allSyms.take b.toNat).countP (fun s => readSym w s ≠ 0#32) = rankOf w b := by
  rw [allSyms, ← List.map_take, List.take_range, List.countP_map, Nat.min_eq_left b.isLt.le]
  rfl

/-- The leaves are those of the present symbols, each at the rank of its symbol. -/
theorem leavesOf_getElem?_iff (w : SymFile Half) (i : Nat) (d : Node) :
    (leavesOf w)[i]? = some d ↔
      ∃ b, readSym w b ≠ 0#32 ∧ i = rankOf w b ∧ leafNode b (readSym w b) = d := by
  simp only [leavesOf_eq, List.getElem?_map, Option.map_eq_some_iff, getElem?_filter_iff,
    allSyms_getElem?_iff, ↓existsAndEq, true_and, countP_take_allSyms,
    decide_eq_true_eq, and_assoc]


theorem rankOf_lt_length {w : SymFile Half} {b : Byte} (h : readSym w b ≠ 0#32) :
    rankOf w b < (leavesOf w).length :=
  (List.getElem?_eq_some_iff.mp ((leavesOf_getElem?_iff w _ _).mpr ⟨b, h, rfl, rfl⟩)).1

theorem arenaOf_append_getElem {ds es : List Node} {i : Nat} {d : Node} (h : i < 511)
    (hd : ds[i]? = some d) : (arenaOf (ds ++ es))[i] = d := by
  obtain ⟨hi, rfl⟩ := List.getElem?_eq_some_iff.mp hd
  rw [arenaOf_getElem _ i h, dif_pos (by rw [List.length_append]; omega), List.getElem_append_left hi]

/-- A node of an arena that is neither unused nor among the nodes after `ds` is one of `ds`. -/
theorem getElem?_of_arenaOf_append {ds es : List Node} {i : Nat} (h : i < 511)
    (hfresh : (arenaOf (ds ++ es))[i] ≠ Node.fresh) (hes : (arenaOf (ds ++ es))[i] ∉ es) :
    ds[i]? = some (arenaOf (ds ++ es))[i] := by
  have hi : i < (ds ++ es).length := by
    by_contra hi
    exact hfresh (by rw [arenaOf_getElem _ i h, dif_neg hi])
  rw [arenaOf_getElem _ i h, dif_pos hi] at hes ⊢
  by_cases hlt : i < ds.length
  · rw [List.getElem_append_left hlt, List.getElem?_eq_getElem hlt]
  · rw [List.getElem_append_right (by omega)] at hes
    exact absurd (List.getElem_mem _) hes

/-- A real leaf of the arena `TBUILD` makes is one of the leaves of the weights. -/
theorem leavesOf_getElem?_of_realLeaf {w : SymFile Half} {i : Nat} (h : i < 511)
    (hleaf : (buildTree w).node[i].leaf = true) (hph : (buildTree w).node[i].ph = false) :
    (leavesOf w)[i]? = some (buildTree w).node[i] := by
  obtain ⟨inner, hnode, hinner⟩ := treeOfLeaves_node (leavesOf w)
  simp only [buildTree, hnode] at *
  refine getElem?_of_arenaOf_append h (fun hf => ?_) (fun hmem => ?_)
  · simp [hf, Node.fresh] at hleaf
  · simp [hinner _ hmem hleaf] at hph

theorem nodeAt_rankOf {w : SymFile Half} {b : Byte} (h : readSym w b ≠ 0#32) :
    nodeAt (buildTree w).node (BitVec.ofNat 10 (rankOf w b)) = .ok (leafNode b (readSym w b)) := by
  have hlt := rankOf_lt_length h
  have hlen := leavesOf_length_le w
  obtain ⟨inner, hnode, -⟩ := treeOfLeaves_node (leavesOf w)
  have hix : (BitVec.ofNat 10 (rankOf w b)).toNat = rankOf w b := ixOf_toNat (by omega)
  rw [nodeAt_ok_iff]
  refine ⟨by omega, ?_⟩
  simp only [hix, buildTree, hnode]
  exact arenaOf_append_getElem (by omega) ((leavesOf_getElem?_iff w _ _).mpr ⟨b, h, rfl, rfl⟩)

/-- Settles O22: the leaves are listed by rank, the arena begins with them, and every node after them
is internal, the placeholder or unused. -/
theorem tbuildMakesLeavesInSymbolOrder : Obligations.TbuildMakesLeavesInSymbolOrder := by
  intro s t herr hexec
  obtain rfl := eq_installTree_of_exec herr hexec
  refine ⟨fun b hb => nodeAt_rankOf hb, fun i hleaf hph => ?_⟩
  obtain ⟨b, hb, hi, hd⟩ :=
    (leavesOf_getElem?_iff _ _ _).mp (leavesOf_getElem?_of_realLeaf i.isLt hleaf hph)
  rw [installTree_node, ← hd]
  exact ⟨hb, hi⟩

end Sys2Proof.Machine
end

section
/-!
PROOFS. The code paths from a node, and the tree of one symbol (spec 10_state.md R23, 41_tree.md R146).
-/

namespace Sys2Proof.Machine

/-! ## The code paths from a node (R23) -/

theorem codePath_of_leaf {a : Arena} {i : NodeIx} {n : Node} (hn : nodeAt a i = .ok n)
    (hl : n.leaf = true) (bits : List Bool) (b : Byte) :
    CodePath a i bits b ↔ bits = [] ∧ n.ph = false ∧ n.sym = b := by
  constructor
  · rintro ⟨j, hp, m, hm, -, hph, hs⟩
    obtain ⟨rfl, rfl⟩ := Path.of_leaf hp hn hl
    rw [hn] at hm
    cases hm
    exact ⟨rfl, hph, hs⟩
  · rintro ⟨rfl, hph, hs⟩
    exact ⟨i, .here i, n, hn, hl, hph, hs⟩

theorem codePath_of_internal {a : Arena} {i : NodeIx} {n : Node} (hn : nodeAt a i = .ok n)
    (hl : n.leaf = false) (bits : List Bool) (b : Byte) :
    CodePath a i bits b ↔ ∃ x rest, bits = x :: rest ∧ CodePath a (childOf n x) rest b := by
  constructor
  · rintro ⟨j, hp, hreal⟩
    cases hp with
    | here =>
      obtain ⟨m, hm, hleaf, -⟩ := hreal
      rw [hn] at hm
      cases hm
      simp [hl] at hleaf
    | edge at_ internal rest =>
      rw [hn] at at_
      cases at_
      exact ⟨_, _, rfl, j, rest, hreal⟩
  · rintro ⟨x, rest, rfl, j, hp, hreal⟩
    exact ⟨j, .edge hn hl hp, hreal⟩

/-! ## One symbol (R146) -/

theorem rankOf_of_only {w : SymFile Half} {b : Byte}
    (honly : ∀ c : Byte, c ≠ b → readSym w c = 0#32) : rankOf w b = 0 := by
  refine List.countP_eq_zero.mpr fun k hk => ?_
  have hlt : k < b.toNat := List.mem_range.mp hk
  have hne : BitVec.ofNat 8 k ≠ b := by
    rintro rfl
    exact absurd hlt (by simp [Nat.mod_le])
  simp [honly _ hne]

theorem leavesOf_of_only {w : SymFile Half} {b : Byte} (hb : readSym w b ≠ 0#32)
    (honly : ∀ c : Byte, c ≠ b → readSym w c = 0#32) : leavesOf w = [leafNode b (readSym w b)] := by
  refine List.ext_getElem? fun i => Option.ext fun d => ?_
  rw [leavesOf_getElem?_iff, List.getElem?_singleton, Option.ite_none_right_eq_some, Option.some_inj]
  constructor
  · rintro ⟨c, hc, rfl, rfl⟩
    obtain rfl : c = b := by
      by_contra hne
      exact hc (honly c hne)
    exact ⟨rankOf_of_only honly, rfl⟩
  · rintro ⟨rfl, rfl⟩
    exact ⟨b, hb, (rankOf_of_only honly).symm, rfl⟩

/-- The root of the one-symbol tree: the leaf on bit 0, the placeholder on bit 1. -/
def soleRoot (l : Node) : Node :=
  { weight := l.weight, left := 0#10, right := 1#10, sym := 0#8, leaf := false, ph := false }

/-- The nodes of the one-symbol tree. -/
def soleNodes (l : Node) : List Node := [l, placeholderNode, soleRoot l]

theorem treeOfLeaves_singleton (l : Node) : treeOfLeaves [l] = treeOf (soleNodes l) 2#10 1 := by
  have hroot : joinNode { weight := l.weight, ix := ixOf 0 } { weight := 0#64, ix := ixOf 1 } =
      soleRoot l := by
    simp [joinNode, soleRoot, ixOf]
  simp only [treeOfLeaves, hroot]
  rfl

theorem buildTree_of_only {w : SymFile Half} {b : Byte} (hb : readSym w b ≠ 0#32)
    (honly : ∀ c : Byte, c ≠ b → readSym w c = 0#32) :
    buildTree w = treeOf (soleNodes (leafNode b (readSym w b))) 2#10 1 := by
  rw [buildTree, leavesOf_of_only hb honly, treeOfLeaves_singleton]

/-- Bit 0 leads to the leaf; bit 1 leads to the placeholder, which is no real leaf. -/
theorem codePath_sole {l : Node} (hleaf : l.leaf = true) (hph : l.ph = false) (bits : List Bool)
    (c : Byte) : CodePath (arenaOf (soleNodes l)) 2#10 bits c ↔ bits = [false] ∧ c = l.sym := by
  have hroot := codePath_of_internal (a := arenaOf (soleNodes l)) (i := 2#10) (n := soleRoot l) rfl rfl
  have hleft := codePath_of_leaf (a := arenaOf (soleNodes l)) (i := 0#10) (n := l) rfl hleaf
  have hright := codePath_of_leaf (a := arenaOf (soleNodes l)) (i := 1#10) (n := placeholderNode) rfl rfl
  rw [hroot, Bool.exists_bool]
  simp [childOf, show (soleRoot l).left = 0#10 from rfl, show (soleRoot l).right = 1#10 from rfl,
    show placeholderNode.ph = true from rfl, hleft, hright, hph, eq_comm]

/-- Settles O25: the leaves are the one of `b`, and the tree of a single leaf is written out. -/
theorem tbuildOfOneSymbol : Obligations.TbuildOfOneSymbol := by
  intro s b herr hb honly
  refine ⟨_, exec_tbuild herr, ?_⟩
  rw [installTree_nsym, installTree_nnode, installTree_root, installTree_node,
    buildTree_of_only hb honly]
  exact ⟨rfl, rfl, rfl, rfl, rfl, rfl, codePath_sole rfl rfl⟩

end Sys2Proof.Machine
end

section
/-!
PROOFS. The merge loop of `TBUILD` (spec 41_tree.md R143 to R145): before each round the loop's list
holds exactly the pending nodes of the final arena.
-/

namespace Sys2Proof.Machine

/-! ## Nodes in an arena -/

/-- The nodes `ds` stand in the arena from index `n` on. -/
def StandsAt (a : Arena) (n : Nat) (ds : List Node) : Prop :=
  ∀ i d, ds[i]? = some d → a[n + i]? = some d

theorem standsAt_cons {a : Arena} {n : Nat} {d : Node} {ds : List Node} :
    StandsAt a n (d :: ds) ↔ a[n]? = some d ∧ StandsAt a (n + 1) ds := by
  constructor
  · intro h
    exact ⟨h 0 d rfl, fun i e hi => Nat.add_right_comm n 1 i ▸ h (i + 1) e hi⟩
  · rintro ⟨hd, hds⟩ i e hi
    cases i with
    | zero => cases hi; exact hd
    | succ i => exact Nat.add_right_comm n 1 i ▸ hds i e hi

theorem StandsAt.of_append {a : Arena} {n : Nat} {ds es : List Node} (h : StandsAt a n (ds ++ es)) :
    StandsAt a n ds ∧ StandsAt a (n + ds.length) es := by
  refine ⟨fun i d hd => h i d ?_, fun i d hd => Nat.add_assoc n ds.length i ▸ h _ d ?_⟩
  · exact List.getElem?_append_left (List.getElem?_eq_some_iff.mp hd).1 ▸ hd
  · rw [List.getElem?_append_right (by omega), Nat.add_sub_cancel_left, hd]

theorem standsAt_arenaOf {ds : List Node} (hlen : ds.length ≤ 511) : StandsAt (arenaOf ds) 0 ds := by
  intro i d hd
  obtain ⟨hi, rfl⟩ := List.getElem?_eq_some_iff.mp hd
  rw [Nat.zero_add, Vector.getElem?_eq_getElem (by omega), arenaOf_getElem _ _ (by omega), dif_pos hi]

/-! ## The loop's list against the arena's pending nodes -/

/-- The member of the pending set that stands for entry `j`. -/
def pendingOf (a : Arena) (j : Fin 511) : Pending := { weight := a[j.val].weight, ix := ixOf j.val }

@[simp] theorem pendingOf_ix_toNat (a : Arena) (j : Fin 511) : (pendingOf a j).ix.toNat = j.val :=
  ixOf_toNat (by omega)

theorem pendingOf_inj (a : Arena) {i j : Fin 511} : pendingOf a i = pendingOf a j ↔ i = j := by
  refine ⟨fun h => Fin.ext ?_, fun h => h ▸ rfl⟩
  rw [← pendingOf_ix_toNat a i, h, pendingOf_ix_toNat]

theorem nodeLess_iff_less (a : Arena) (i j : Fin 511) :
    NodeLess a i j ↔ less (pendingOf a i) (pendingOf a j) = true := by
  rw [less_iff, BitVec.lt_def (x := (pendingOf a i).ix), pendingOf_ix_toNat, pendingOf_ix_toNat]
  rfl

/-- What is removed comes before what is left, on distinct indices. -/
theorem nodeLess_of_not_less {a : Arena} {i j : Fin 511}
    (h : less (pendingOf a j) (pendingOf a i) = false) (hne : i ≠ j) : NodeLess a i j := by
  have hix : (pendingOf a i).ix ≠ (pendingOf a j).ix := fun he =>
    hne (Fin.ext (by rw [← pendingOf_ix_toNat a i, he, pendingOf_ix_toNat]))
  rw [nodeLess_iff_less]
  exact (less_total hix).resolve_right (by simp [h])

/-- The list holds the nodes pending before node `n` is created, each once (R143). -/
structure ListsPending (a : Arena) (k n : Nat) (p : List Pending) : Prop where
  /-- no node is listed twice -/
  nodup : p.Nodup
  /-- every member is an entry's -/
  isNode : ∀ x ∈ p, ∃ j, pendingOf a j = x
  /-- the entries listed are those pending -/
  mem_iff : ∀ j, pendingOf a j ∈ p ↔ PendingAt a k n j

/-- Node `n` joins the two least nodes pending before it, the least as left child (R145). -/
def JoinsLeastTwo (a : Arena) (k : Nat) (n : Fin 511) : Prop :=
  ∃ l r : Fin 511,
    a[n.val] =
      { weight := a[l.val].weight + a[r.val].weight, left := BitVec.ofNat 10 l.val,
        right := BitVec.ofNat 10 r.val, sym := 0#8, leaf := false, ph := false } ∧
    PendingAt a k n.val l ∧ PendingAt a k n.val r ∧ NodeLess a l r ∧
    ∀ j : Fin 511, PendingAt a k n.val j → j ≠ l → j ≠ r → NodeLess a r j

theorem PendingAt.toNat_ofNat_lt {a : Arena} {k n : Nat} {j : Fin 511} (h : PendingAt a k n j) :
    (BitVec.ofNat 10 j.val).toNat < n :=
  (pendingOf_ix_toNat a j).trans_lt h.1

theorem JoinsLeastTwo.children_lt {a : Arena} {k : Nat} {n : Fin 511} (h : JoinsLeastTwo a k n) :
    a[n.val].left.toNat < n.val ∧ a[n.val].right.toNat < n.val := by
  obtain ⟨l, r, hn, hl, hr, -⟩ := h
  rw [hn]
  exact ⟨hl.toNat_ofNat_lt, hr.toNat_ofNat_lt⟩

/-- The nodes pending after a round: those that were and are not its children, and the new one, which
is a child of no node yet. -/
theorem pendingAt_succ_iff {a : Arena} {k : Nat} {n : Fin 511} (hk : k ≤ n.val)
    (hjoins : ∀ m : Fin 511, k ≤ m.val → m.val < n.val + 1 → JoinsLeastTwo a k m) (j : Fin 511) :
    PendingAt a k (n.val + 1) j ↔
      j = n ∨
        (PendingAt a k n.val j ∧ a[n.val].left.toNat ≠ j.val ∧ a[n.val].right.toNat ≠ j.val) := by
  constructor
  · rintro ⟨hj, hnone⟩
    obtain hlt | heq : j.val < n.val ∨ j.val = n.val := by omega
    · exact .inr ⟨⟨hlt, fun m hkm hm => hnone m hkm (by omega)⟩, hnone n hk (by omega)⟩
    · exact .inl (Fin.ext heq)
  · rintro (rfl | ⟨⟨hj, hnone⟩, hlast⟩)
    · refine ⟨by omega, fun m hkm hm => ?_⟩
      have := (hjoins m hkm hm).children_lt
      omega
    · refine ⟨by omega, fun m hkm hm => ?_⟩
      obtain hlt | heq : m.val < n.val ∨ m.val = n.val := by omega
      · exact hnone m hkm hlt
      · obtain rfl : m = n := Fin.ext heq
        exact hlast

section Round
variable {a : Arena} {k : Nat} {n : Fin 511} {p p1 p2 : List Pending} {x y : Pending}

/-- The two removed in a round and those left are together what was pending. -/
theorem removeLeast_twice_perm (hx : removeLeast p = some (x, p1))
    (hy : removeLeast p1 = some (y, p2)) : p.Perm (x :: y :: p2) :=
  (removeLeast_perm hx).trans ((removeLeast_perm hy).cons x)

theorem mem_left_iff (hp : p.Nodup) (hx : removeLeast p = some (x, p1))
    (hy : removeLeast p1 = some (y, p2)) (z : Pending) : z ∈ p2 ↔ z ∈ p ∧ z ≠ x ∧ z ≠ y := by
  have hperm := removeLeast_twice_perm hx hy
  have hnodup : x ∉ y :: p2 ∧ y ∉ p2 := by
    obtain ⟨hxy, hyr⟩ := List.nodup_cons.mp (hperm.nodup hp)
    exact ⟨hxy, (List.nodup_cons.mp hyr).1⟩
  rw [hperm.mem_iff, List.mem_cons, List.mem_cons]
  grind

/-- The two removed in a round are two of the nodes pending. -/
theorem ListsPending.removed (hp : ListsPending a k n.val p)
    (hx : removeLeast p = some (x, p1)) (hy : removeLeast p1 = some (y, p2)) :
    ∃ l r, pendingOf a l = x ∧ pendingOf a r = y ∧ PendingAt a k n.val l ∧ PendingAt a k n.val r ∧
      l ≠ r := by
  have hperm := removeLeast_twice_perm hx hy
  have hxp : x ∈ p := hperm.mem_iff.mpr (by simp)
  have hyp : y ∈ p := hperm.mem_iff.mpr (by simp)
  obtain ⟨l, rfl⟩ := hp.isNode x hxp
  obtain ⟨r, rfl⟩ := hp.isNode y hyp
  refine ⟨l, r, rfl, rfl, (hp.mem_iff l).mp hxp, (hp.mem_iff r).mp hyp, ?_⟩
  rintro rfl
  simpa using hperm.nodup hp.nodup

/-- A round creates the node that joins the two least. -/
theorem ListsPending.joinsLeastTwo (hp : ListsPending a k n.val p)
    (hx : removeLeast p = some (x, p1)) (hy : removeLeast p1 = some (y, p2))
    (hn : a[n.val] = joinNode x y) : JoinsLeastTwo a k n := by
  obtain ⟨l, r, rfl, rfl, hl, hr, hlr⟩ := hp.removed hx hy
  refine ⟨l, r, hn, hl, hr, nodeLess_of_not_less ?_ hlr, fun j hj hjl hjr => ?_⟩
  · exact removeLeast_least hx _ ((removeLeast_perm hy).mem_iff.mpr (by simp))
  · have hmem : pendingOf a j ∈ p2 := by
      rw [mem_left_iff hp.nodup hx hy, hp.mem_iff, Ne, Ne, pendingOf_inj, pendingOf_inj]
      exact ⟨hj, hjl, hjr⟩
    exact nodeLess_of_not_less (removeLeast_least hy _ hmem) hjr.symm

/-- A round hands on the list of the pending nodes. -/
theorem ListsPending.succ (hp : ListsPending a k n.val p) (hk : k ≤ n.val)
    (hx : removeLeast p = some (x, p1)) (hy : removeLeast p1 = some (y, p2))
    (hn : a[n.val] = joinNode x y)
    (hjoins : ∀ m : Fin 511, k ≤ m.val → m.val < n.val + 1 → JoinsLeastTwo a k m) :
    ListsPending a k (n.val + 1) (p2 ++ [{ weight := x.weight + y.weight, ix := ixOf n.val }]) := by
  have hnew : ({ weight := x.weight + y.weight, ix := ixOf n.val } : Pending) = pendingOf a n := by
    rw [pendingOf, hn]
    rfl
  have hleft := mem_left_iff hp.nodup hx hy
  have hp2 : p2.Nodup := ((removeLeast_twice_perm hx hy).nodup hp.nodup).of_cons.of_cons
  have hfresh : pendingOf a n ∉ p2 := fun hmem =>
    absurd ((hp.mem_iff n).mp ((hleft _).mp hmem).1).1 (by omega)
  obtain ⟨l, r, rfl, rfl, -⟩ := hp.removed hx hy
  rw [hnew]
  refine ⟨?_, fun z hz => ?_, fun j => ?_⟩
  · exact hp2.append (List.nodup_singleton _) (by simpa using hfresh)
  · obtain hz | hz := List.mem_append.mp hz
    · exact hp.isNode z ((hleft z).mp hz).1
    · exact ⟨n, (List.mem_singleton.mp hz).symm⟩
  · have hchild : a[n.val].left.toNat = l.val ∧ a[n.val].right.toNat = r.val := by
      rw [hn]
      exact ⟨pendingOf_ix_toNat a l, pendingOf_ix_toNat a r⟩
    rw [List.mem_append, List.mem_singleton, hleft, hp.mem_iff, pendingAt_succ_iff hk hjoins,
      pendingOf_inj, Ne, Ne, pendingOf_inj, pendingOf_inj, hchild.1, hchild.2, or_comm]
    simp [Fin.ext_iff, eq_comm]

end Round

/-! ## The loop -/

/-- A loop that creates the nodes `ds` of the arena from `n` on joins the two least pending in every
one, if every node created before is so made. -/
def LoopJoins (a : Arena) (k : Nat) (p : List Pending) (n : Nat) (ds : List Node) : Prop :=
  k ≤ n → StandsAt a n ds → ListsPending a k n p →
    (∀ m : Fin 511, k ≤ m.val → m.val < n → JoinsLeastTwo a k m) →
    ∀ m : Fin 511, k ≤ m.val → m.val < n + ds.length → JoinsLeastTwo a k m

theorem loopJoins_cons {a : Arena} {k n : Nat} {p p1 p2 : List Pending} {x y : Pending}
    {ds : List Node} (hx : removeLeast p = some (x, p1)) (hy : removeLeast p1 = some (y, p2))
    (ih : LoopJoins a k (p2 ++ [{ weight := x.weight + y.weight, ix := ixOf n }]) (n + 1) ds) :
    LoopJoins a k p n (joinNode x y :: ds) := by
  intro hk hstands hp hbefore
  obtain ⟨hn, hds⟩ := standsAt_cons.mp hstands
  obtain ⟨hlt, hn⟩ := Vector.getElem?_eq_some_iff.mp hn
  have hnow : ∀ m : Fin 511, k ≤ m.val → m.val < n + 1 → JoinsLeastTwo a k m := by
    intro m hkm hm
    obtain hlt | rfl : m.val < n ∨ m.val = n := by omega
    · exact hbefore m hkm hlt
    · exact hp.joinsLeastTwo hx hy hn
  have hp' := ListsPending.succ (n := ⟨n, hlt⟩) hp hk hx hy hn hnow
  intro m hkm hm
  exact ih (by omega) hds hp' hnow m hkm (by simp at hm; omega)

theorem mergeLoop_joins (a : Arena) (k fuel : Nat) (p : List Pending) (n : Nat)
    (hf : p.length ≤ fuel + 1) : LoopJoins a k p n (mergeLoop fuel p n).1 :=
  mergeLoop_induct (fun p n ds _ => LoopJoins a k p n ds) (fun _ _ _ _ _ _ hbefore => hbefore)
    (fun _ _ _ _ _ _ _ _ hx hy ih => loopJoins_cons hx hy ih) fuel p n hf

/-- Before the first round the leaves are pending. -/
theorem listsPending_leaves {a : Arena} {ds : List Node} (h : StandsAt a 0 ds) :
    ListsPending a ds.length ds.length (pendingFrom 0 ds) := by
  have hget : ∀ i (hi : i < ds.length), ∃ j : Fin 511, j.val = i ∧
      (pendingFrom 0 ds)[i]'(by simpa using hi) = pendingOf a j := by
    intro i hi
    obtain ⟨hlt, hai⟩ := Vector.getElem?_eq_some_iff.mp (h i ds[i] (List.getElem?_eq_getElem hi))
    refine ⟨⟨0 + i, hlt⟩, Nat.zero_add i, ?_⟩
    rw [pendingFrom_getElem _ _ _ hi, pendingOf, hai]
  refine ⟨List.pairwise_iff_getElem.mpr fun i j hi hj hij heq => ?_, fun x hx => ?_, fun j => ?_⟩
  · obtain ⟨_, rfl, hi'⟩ := hget i (by simpa using hi)
    obtain ⟨_, rfl, hj'⟩ := hget j (by simpa using hj)
    rw [hi', hj', pendingOf_inj] at heq
    exact absurd hij (by simp [heq])
  · obtain ⟨i, hi, rfl⟩ := List.mem_iff_getElem.mp hx
    obtain ⟨j, -, hj⟩ := hget i (by simpa using hi)
    exact ⟨j, hj.symm⟩
  · have hpending : PendingAt a ds.length ds.length j ↔ j.val < ds.length :=
      and_iff_left fun m hkm hm => absurd hkm (by omega)
    rw [hpending, List.mem_iff_getElem]
    constructor
    · rintro ⟨i, hi, heq⟩
      obtain ⟨_, rfl, hi'⟩ := hget i (by simpa using hi)
      rw [hi', pendingOf_inj] at heq
      simpa [heq] using hi
    · intro hj
      obtain ⟨_, hval, hj'⟩ := hget j.val hj
      exact ⟨j.val, by simpa using hj, by rw [hj', Fin.ext hval]⟩

theorem treeOfLeaves_nsym (leaves : List Node) :
    (treeOfLeaves leaves).nsym = BitVec.ofNat 9 leaves.length := by
  match leaves with
  | [] | [_] | _ :: _ :: _ => rfl

theorem buildTree_nsym_toNat (w : SymFile Half) : (buildTree w).nsym.toNat = (leavesOf w).length := by
  have hlen := leavesOf_length_le w
  rw [buildTree, treeOfLeaves_nsym, BitVec.toNat_ofNat, Nat.mod_eq_of_lt (by omega)]

/-- Over two or more leaves every node after them joins the two least pending. -/
theorem treeOfLeaves_joins {leaves : List Node} (htwo : 2 ≤ leaves.length) (hmax : leaves.length ≤ 256)
    (n : Fin 511) (hkn : leaves.length ≤ n.val) (hn : n.val < (treeOfLeaves leaves).nnode.toNat) :
    JoinsLeastTwo (treeOfLeaves leaves).node leaves.length n := by
  have hcreated := (mergeLoop_length (p := pendingFrom 0 leaves) leaves.length leaves.length
    (by simp [← List.length_pos_iff]; omega) (by simp)).1
  rw [treeOfLeaves_of_two_le htwo] at hn ⊢
  generalize hds : (mergeLoop leaves.length (pendingFrom 0 leaves) leaves.length).1 = ds at *
  rw [pendingFrom_length] at hcreated
  have hnnode : (BitVec.ofNat 10 (leaves ++ ds).length).toNat = leaves.length + ds.length := by
    rw [List.length_append]
    exact ixOf_toNat (by omega)
  obtain ⟨hleaves, hinner⟩ := (standsAt_arenaOf (ds := leaves ++ ds) (by simp; omega)).of_append
  have hjoins := hds ▸ mergeLoop_joins (arenaOf (leaves ++ ds)) leaves.length leaves.length
    (pendingFrom 0 leaves) leaves.length (by simp)
  exact hjoins le_rfl (by simpa using hinner) (listsPending_leaves hleaves)
    (fun m hkm hm => absurd hkm (by omega)) n hkn (hn.trans_eq hnnode)

/-- Settles O24: the merge loop starts from the leaves and each of its rounds creates such a node. -/
theorem tbuildMergesTheLeastTwoPending : Obligations.TbuildMergesTheLeastTwoPending := by
  intro s t herr hexec htwo n hkn hn
  obtain rfl := eq_installTree_of_exec herr hexec
  simp only [installTree_nsym, installTree_nnode, installTree_node, buildTree_nsym_toNat] at *
  exact treeOfLeaves_joins htwo (leavesOf_length_le s.w) n hkn hn

end Sys2Proof.Machine
end

section
/-!
PROOFS. What `CGEN` answers on an arena whose children come first: it runs to its end unless a real
leaf is deeper than 64, and records the symbols with a single path (spec 42_codetable.md R160 to R163).
-/

namespace Sys2Proof.Machine

/-! ## The command (R160) -/

theorem encode_cgen : encode .cgen = 0x2100000000000000#64 := by decide

theorem exec_cgen_of_ok {s : State} {u : CodeTable} (herr : s.err = 0#4) (htv : s.tv = true)
    (hu : codesOf s.node s.root = .ok u) : exec .cgen s = .next (installCodes u s) :=
  exec_of_ok (by simp) herr (by simp [bodyOf, requireTree, htv, hu])

theorem exec_cgen_of_raise {s : State} {f : FaultName} (herr : s.err = 0#4) (htv : s.tv = true)
    (hf : codesOf s.node s.root = .error (.raise f)) :
    exec .cgen s = .next (raiseFault f (encode .cgen) s) :=
  exec_of_raise (by simp) herr (by simp [bodyOf, requireTree, htv, hf])

/-! ## A visit that completes (R160, R163) -/

/-- A visit that has come down the edges `pre` records a symbol with a single path below the node at
the whole of its path from the root. -/
theorem visit_records_only_path {a : Arena} {fuel : Nat} {i : NodeIx} {pre bits : List Bool}
    {t u : CodeTable} {b : Byte} (h : visit a fuel i (patternOf pre) pre.length t = .ok u)
    (hpath : CodePath a i bits b) (honly : ∀ other, CodePath a i other b → other = bits) :
    (readSym u.len b).toNat = (pre ++ bits).length ∧ readSym u.bits b = patternOf (pre ++ bits) := by
  induction fuel generalizing i pre bits t u with
  | zero => simp [visit] at h
  | succ fuel ih =>
    obtain ⟨_, n, ⟨⟩, hn, ⟨hl, hph, -⟩ | ⟨hl, -, hd, rfl⟩ | ⟨hl, m, hleft, hright⟩⟩ := visit_ok h
    · obtain ⟨-, hreal, -⟩ := (codePath_of_leaf hn hl bits b).mp hpath
      simp [hph] at hreal
    · obtain ⟨rfl, -, rfl⟩ := (codePath_of_leaf hn hl bits b).mp hpath
      simp [setCode, Nat.mod_eq_of_lt (show pre.length < 128 by omega)]
    · have hchild := codePath_of_internal hn hl
      obtain ⟨x, rest, rfl, hrest⟩ := (hchild bits b).mp hpath
      have honlyRest : ∀ other, CodePath a (childOf n x) other b → other = rest := fun other ho =>
        List.tail_eq_of_cons_eq (honly _ ((hchild _ b).mpr ⟨x, other, rfl, ho⟩))
      replace hleft : visit a fuel n.left (patternOf (pre ++ [false])) (pre ++ [false]).length t = .ok m := by
        simpa [patternOf_append, bitWord] using hleft
      replace hright : visit a fuel n.right (patternOf (pre ++ [true])) (pre ++ [true]).length m = .ok u := by
        simpa [patternOf_append, bitWord] using hright
      rw [List.append_cons pre x rest]
      cases x with
      | false =>
        have hnone : ∀ other, ¬ CodePath a n.right other b := fun other ho =>
          absurd (honly _ ((hchild _ b).mpr ⟨true, other, rfl, ho⟩)) (by simp)
        obtain ⟨hbits, hlen⟩ := visit_other hright hnone
        rw [hbits, hlen]
        exact ih hleft hrest honlyRest
      | true => exact ih hright hrest honlyRest

/-! ## A visit that does not complete (R163) -/

theorem nnode_le_of_countsAgree {s : State} (h : CountsAgree s) : s.nnode.toNat ≤ 511 := by
  obtain ⟨hmax, hzero, hone, hmore⟩ := h
  omega

theorem child_lt_of_childrenComeFirst {s : State} (h : ChildrenComeFirst s) {i : NodeIx} {n : Node}
    (hi : i.toNat < s.nnode.toNat) (hn : nodeAt s.node i = .ok n) (hl : n.leaf = false) (x : Bool) :
    (childOf n x).toNat < i.toNat := by
  obtain ⟨hlt, rfl⟩ := (nodeAt_ok_iff _ _ _).mp hn
  obtain ⟨hleft, hright⟩ := (h ⟨i.toNat, hlt⟩ hi).1 hl
  cases x
  · exact hleft
  · exact hright

/-- Where children come first the nodes on a path go down, so the bound of the recursion is not met, and
nothing but a real leaf deeper than 64 ends a visit early. -/
theorem visit_error_of_childrenComeFirst {s : State} (hcounts : CountsAgree s)
    (hchildren : ChildrenComeFirst s) {fuel : Nat} {i : NodeIx} {p : Word} {d : Nat} {t : CodeTable}
    {e : Stop} (hi : i.toNat < s.nnode.toNat) (hfuel : i.toNat < fuel)
    (h : visit s.node fuel i p d t = .error e) :
    e = .raise .codeTooLong ∧ ∃ bits b, CodePath s.node i bits b ∧ 64 < d + bits.length := by
  induction fuel generalizing i p d t with
  | zero => omega
  | succ fuel ih =>
    have hn := nodeAt_of_lt s.node (hi.trans_le (nnode_le_of_countsAgree hcounts))
    generalize s.node[i.toNat] = n at hn
    cases hl : n.leaf with
    | true =>
      have hpath := (codePath_of_leaf hn hl [] n.sym).mpr
      cases hph : n.ph with
      | true => simp [visit, hn, hl, hph] at h
      | false =>
        by_cases hd : d > 64
        · have he : e = .raise .codeTooLong := by simpa [visit, hn, hl, hph, hd, eq_comm] using h
          exact ⟨he, [], n.sym, hpath ⟨rfl, hph, rfl⟩, hd⟩
        · simp [visit, hn, hl, hph, hd] at h
    | false =>
      have hfail : ∃ x q m, visit s.node fuel (childOf n x) q (d + 1) m = .error e := by
        rw [visit_internal p d t hn hl] at h
        split at h
        · next hleft => cases h; exact ⟨false, _, _, hleft⟩
        · exact ⟨true, _, _, h⟩
      obtain ⟨x, q, m, hx⟩ := hfail
      have hlt := child_lt_of_childrenComeFirst hchildren hi hn hl x
      obtain ⟨he, bits, b, hpath, hdeep⟩ := ih (by omega) (by omega) hx
      exact ⟨he, x :: bits, b, (codePath_of_internal hn hl _ b).mpr ⟨x, bits, rfl, hpath⟩,
        by rw [List.length_cons]; omega⟩

/-! ## The code table of a tree -/

theorem not_codePath_nil (a : Arena) (bits : List Bool) (b : Byte) : ¬ CodePath a Config.nil bits b := by
  rintro ⟨_, hp, n, hn, -⟩
  cases hp with
  | here => simp [nodeAt_nil] at hn
  | edge at_ => simp [nodeAt_nil] at at_

/-- A table that comes about is the result of a visit of the root whenever there is a code path. -/
theorem visit_of_codesOf_ok {a : Arena} {root : NodeIx} {u : CodeTable} {bits : List Bool} {b : Byte}
    (hu : codesOf a root = .ok u) (hpath : CodePath a root bits b) :
    visit a Config.arena root (patternOf []) ([] : List Bool).length emptyCodes = .ok u := by
  have hroot : root ≠ Config.nil := by
    rintro rfl
    exact not_codePath_nil a bits b hpath
  rwa [codesOf, if_neg hroot] at hu

theorem codesOf_ok_length_le {a : Arena} {root : NodeIx} {u : CodeTable} {bits : List Bool} {b : Byte}
    (hu : codesOf a root = .ok u) (hpath : CodePath a root bits b) : bits.length ≤ 64 := by
  simpa using visit_ok_depth (visit_of_codesOf_ok hu hpath) hpath

theorem codesOf_ok_records_only_path {a : Arena} {root : NodeIx} {u : CodeTable} {bits : List Bool}
    {b : Byte} (hu : codesOf a root = .ok u) (hpath : CodePath a root bits b)
    (honly : ∀ other, CodePath a root other b → other = bits) :
    (readSym u.len b).toNat = bits.length ∧ readSym u.bits b = patternOf bits :=
  visit_records_only_path (visit_of_codesOf_ok hu hpath) hpath honly

/-- On an arena of the shape of R40 items 3 and 4 a table fails to come about only through a real leaf
deeper than 64 (R163). -/
theorem codesOf_error {s : State} (hcounts : CountsAgree s) (hchildren : ChildrenComeFirst s)
    (hinternal : RootIsInternal s) {e : Stop} (h : codesOf s.node s.root = .error e) :
    e = .raise .codeTooLong ∧ ∃ bits b, CodePath s.node s.root bits b ∧ 64 < bits.length := by
  have hroot : s.root ≠ Config.nil := fun hnil => by simp [codesOf, hnil] at h
  rw [codesOf, if_neg hroot] at h
  have hsome : s.nsym.toNat ≠ 0 := fun hzero => by
    obtain ⟨-, hempty, -⟩ := hcounts
    exact hroot (hempty hzero).2
  obtain ⟨i, hix, hused, -⟩ := hinternal hsome
  simpa using visit_error_of_childrenComeFirst hcounts hchildren (hix ▸ hused)
    (show s.root.toNat < 511 by omega) h

/-- Settles O30: a table that comes about has met no leaf deeper than 64, and one that does not has met
nothing else. -/
theorem cgenRaisesCodeTooLongBeyond64 : Obligations.CgenRaisesCodeTooLongBeyond64 := by
  intro s hcounts hchildren hroot herr htv
  cases hcodes : codesOf s.node s.root with
  | error e =>
    obtain ⟨rfl, bits, b, hpath, hdeep⟩ := codesOf_error hcounts hchildren hroot hcodes
    refine ⟨fun _ => ?_, fun hshort => absurd (hshort bits b hpath) (by omega)⟩
    rw [exec_cgen_of_raise herr htv hcodes, encode_cgen]
    rfl
  | ok u =>
    refine ⟨fun ⟨bits, b, hpath, hdeep⟩ => ?_, fun _ => ?_⟩
    · exact absurd (codesOf_ok_length_le hcodes hpath) (by omega)
    · exact ⟨_, exec_cgen_of_ok herr htv hcodes, herr, rfl,
        fun bits b hpath honly => codesOf_ok_records_only_path hcodes hpath honly⟩

end Sys2Proof.Machine
end

section
/-!
PROOFS. What `PENC` appends and emits, and what `PFLUSH` emits (spec 43_bitpacker.md R170, R171).
-/

namespace Sys2Proof.Machine

/-! ## What appending bits writes (R172) -/

/-- The state after the packer has emitted some bytes, each of them counted, and holds other bits. -/
def packerMoved (s : State) (acc : Byte) (nbits : BitVec 3) (emitted : List Byte) : State :=
  { s with acc := acc, nbits := nbits, out := s.out ++ emitted,
           outcnt := s.outcnt + BitVec.ofNat 64 emitted.length }

/-- Two moves of the packer are one, which emits the bytes of both. -/
theorem packerMoved_packerMoved (s : State) (a a' : Byte) (n n' : BitVec 3) (xs ys : List Byte) :
    packerMoved (packerMoved s a n xs) a' n' ys = packerMoved s a' n' (xs ++ ys) := by
  simp [packerMoved, BitVec.ofNat_add, BitVec.add_assoc]

theorem appendBit_eq_packerMoved (x : Bool) (s : State) :
    ∃ a n emitted, appendBit x s = packerMoved s a n emitted := by
  unfold appendBit
  dsimp only
  split
  case isTrue => exact ⟨0#8, 0#3, [_], rfl⟩
  case isFalse => exact ⟨(s.acc <<< 1) ||| bitByte x, s.nbits + 1#3, [], by simp [packerMoved]⟩

theorem appendBits_eq_packerMoved (xs : List Bool) (s : State) :
    ∃ a n emitted, appendBits xs s = packerMoved s a n emitted := by
  induction xs generalizing s with
  | nil => exact ⟨s.acc, s.nbits, [], by simp [appendBits, packerMoved]⟩
  | cons x xs ih =>
    obtain ⟨a, n, first, hfirst⟩ := appendBit_eq_packerMoved x s
    obtain ⟨a', n', rest, hrest⟩ := ih (appendBit x s)
    exact ⟨a', n', first ++ rest, by rw [appendBits, hrest, hfirst, packerMoved_packerMoved]⟩

/-- Appending at most 64 bits emits at most 8 bytes: at most 7 bits were pending (R66). -/
theorem length_emitted_le {xs : List Bool} {s : State} {a : Byte} {n : BitVec 3} {emitted : List Byte}
    (h : appendBits xs s = packerMoved s a n emitted) (hxs : xs.length ≤ 64) : emitted.length ≤ 8 := by
  have hpending : s.nbits.toNat < 8 := s.nbits.isLt
  have hgathered := appendBits_gathered xs s
  have hout : (appendBits xs s).out.length = s.out.length + emitted.length := by
    rw [h]
    exact List.length_append
  omega

/-! ## The command `PENC` (R170) -/

theorem bitsDown_eq_map_range {k : Nat} (v : BitVec k) (n : Nat) :
    bitsDown v n = (List.range n).reverse.map v.getLsbD := by
  induction n with
  | zero => rfl
  | succ n ih => simp [bitsDown, ih, List.range_succ]

theorem encode_penc (b : Byte) :
    encode (.penc b) = 0x3000000000000000#64 + (b.setWidth 64 <<< 48) := by
  rw [encode_eq_matchOf_add]
  simp [fieldsOf, matchOf, opcode]

theorem bodyOf_penc_of_invalid {s : State} (b : Byte) (hcv : s.cv = false) :
    bodyOf (.penc b) s = .error (.raise .sequenceError) := by
  simp [bodyOf, requireCodes, hcv]

theorem bodyOf_penc_of_noCode {s : State} {b : Byte} (hcv : s.cv = true)
    (hlen : readSym s.codeLen b = 0#7) : bodyOf (.penc b) s = .error (.raise .noCode) := by
  simp [bodyOf, requireCodes, encodeByte, hcv, hlen]

theorem bodyOf_penc_of_code {s : State} {b : Byte} (hcv : s.cv = true)
    (hlen : readSym s.codeLen b ≠ 0#7) (hmax : (readSym s.codeLen b).toNat ≤ 64) :
    bodyOf (.penc b) s = .ok (appendBits (codeOf s b) s) := by
  have hfits : ¬ (readSym s.codeLen b).toNat > Config.maxLen := Nat.not_lt.mpr hmax
  simp [bodyOf, requireCodes, encodeByte, hcv, hlen, hfits]

/-- Settles O34: the code is its pattern's bits downwards, and appending bits only moves the packer. -/
theorem pencAppendsTheCode : Obligations.PencAppendsTheCode := by
  intro b
  refine ⟨encode_penc b,
    fun s herr hcv => exec_of_raise (by simp) herr (bodyOf_penc_of_invalid b hcv),
    fun s herr hcv hlen => exec_of_raise (by simp) herr (bodyOf_penc_of_noCode hcv hlen),
    fun s herr hcv hlen hmax => ?_⟩
  obtain ⟨a, n, emitted, hmoved⟩ := appendBits_eq_packerMoved (codeOf s b) s
  have hcode : (codeOf s b).length ≤ 64 := (bitsDown_length _ _).trans_le hmax
  refine ⟨appendBits (codeOf s b) s, emitted,
    exec_of_ok (by simp) herr (bodyOf_penc_of_code hcv hlen hmax), ?stream, ?frame,
    length_emitted_le hmoved hcode, packerFits_appendBits _⟩
  case stream => rw [streamBits_appendBits, codeOf, bitsDown_eq_map_range]
  case frame =>
    rw [hmoved]
    rfl

/-! ## The command `PFLUSH` (R171) -/

theorem flushPacker_of_pending {s : State} (h : s.nbits ≠ 0#3) :
    flushPacker s = emit (s.acc <<< (8 - s.nbits.toNat)) { s with acc := 0#8, nbits := 0#3 } :=
  if_neg h

theorem flushPacker_of_empty {s : State} (h : s.nbits = 0#3) : flushPacker s = s := if_pos h

theorem exec_pflush {s : State} (herr : s.err = 0#4) : exec .pflush s = .next (flushPacker s) :=
  exec_of_ok (by simp) herr rfl

/-- Settles O35: `PFLUSH` runs `flushPacker`, whose two cases are those of the statement. -/
theorem pflushEmitsThePartialByte : Obligations.PflushEmitsThePartialByte := by
  refine ⟨by decide, fun s herr => ⟨fun hpending => ?_, fun hempty => ?_⟩⟩
  · rw [exec_pflush herr, flushPacker_of_pending hpending]
    rfl
  · rw [exec_pflush herr, flushPacker_of_empty hempty]

end Sys2Proof.Machine
end

section
/-!
PROOFS. The commands of the unpacker: the declared count, the end of the bitstream, and `UBYTE` on the
trees of no and of one symbol (spec 44_unpacker.md R186 to R190).
-/

namespace Sys2Proof.Machine

/-! ## The declared count and the end of the bitstream (R186, R187, R189) -/

theorem encode_ulenl (n : Half) : encode (.ulenl n) = 0x4000000000000000#64 + n.setWidth 64 := by
  rw [encode_eq_matchOf_add]
  simp [fieldsOf, matchOf, opcode]

theorem encode_ulenh (n : Half) : encode (.ulenh n) = 0x4100000000000000#64 + n.setWidth 64 := by
  rw [encode_eq_matchOf_add]
  simp [fieldsOf, matchOf, opcode]

theorem encode_uend : encode .uend = 0x4300000000000000#64 := by decide

theorem toNat_zextHalf (n : Half) : (zextHalf n).toNat = n.toNat :=
  BitVec.toNat_setWidth_of_le (by decide)

theorem toNat_withHighHalf (hi : Half) (lo : Word) :
    (withHighHalf hi lo).toNat = hi.toNat * 2 ^ 32 + lo.toNat % 2 ^ 32 := by
  rw [withHighHalf, toNat_append_eq_add, BitVec.toNat_setWidth]

/-- Settles O37: `ULENL` declares the immediate, and zero-extending keeps its value. -/
theorem ulenlDeclaresTheLowHalf : Obligations.UlenlDeclaresTheLowHalf := fun n =>
  ⟨encode_ulenl n, fun _ herr => ⟨_, exec_of_ok (by simp) herr rfl, toNat_zextHalf n, rfl⟩⟩

/-- Settles O38: `ULENH` declares the immediate put before the old low half. -/
theorem ulenhReplacesTheHighHalf : Obligations.UlenhReplacesTheHighHalf := fun n =>
  ⟨encode_ulenh n, fun s herr =>
    ⟨_, exec_of_ok (by simp) herr rfl, toNat_withHighHalf n s.remain, rfl⟩⟩

/-- Settles O43: the effect of `UEND` is a choice on `REMAIN`, between no change and a fault. -/
theorem uendDetectsMissingSymbols : Obligations.UendDetectsMissingSymbols := by
  refine ⟨encode_uend, fun s herr => ⟨fun hdone => ?_, fun howed => ?_⟩⟩
  · exact exec_of_ok (by simp) herr (if_pos hdone)
  · have hraise : bodyOf .uend s = .error (.raise .truncatedStream) := if_neg howed
    rw [exec_of_raise (by simp) herr hraise, encode_uend]
    rfl

/-! ## What `UBYTE` makes of its walk (R188) -/

theorem emitAll_eq (bs : List Byte) (s : State) :
    emitAll bs s =
      { s with out := s.out ++ bs, outcnt := s.outcnt + BitVec.ofNat 64 bs.length } := by
  apply State.ext_fields <;> simp

/-- The walk of a `UBYTE` before its first bit. -/
def Walk.ofState (s : State) : Walk := { cur := s.cur, rem := s.remain, emitted := [] }

theorem exec_ubyte_of_walk_ok {b : Byte} {s : State} {k : Walk} (herr : s.err = 0#4) (htv : s.tv = true)
    (hwalk : walkBits s.node s.root (byteBits b) (.ofState s) = .ok k) :
    exec (.ubyte b) s = .next { s with
      out := s.out ++ k.emitted, outcnt := s.outcnt + BitVec.ofNat 64 k.emitted.length,
      remain := k.rem, cur := k.cur } := by
  rw [Walk.ofState] at hwalk
  refine exec_of_ok (by simp) herr ?_
  simp [bodyOf, requireTree, htv, decodeByte, hwalk, emitAll_eq]

theorem exec_ubyte_of_walk_raise {b : Byte} {s : State} {f : FaultName} (herr : s.err = 0#4)
    (htv : s.tv = true)
    (hwalk : walkBits s.node s.root (byteBits b) (.ofState s) = .error (.raise f)) :
    exec (.ubyte b) s = .next (raiseFault f (encode (.ubyte b)) s) := by
  rw [Walk.ofState] at hwalk
  exact exec_of_raise (by simp) herr (by simp [bodyOf, requireTree, htv, decodeByte, hwalk])

/-- The first bits of a byte in stream order are those from bit 7 down (R67). -/
theorem mem_take_byteBits {b : Byte} {n : Nat} {x : Bool} :
    x ∈ (byteBits b).take n ↔ ∃ k, k < min 8 n ∧ b.getLsbD (7 - k) = x := by
  simp [List.mem_take_iff_getElem, byteBits, bitsDown_eq_map_range, Nat.min_comm n]

/-! ## The empty tree (R190 a) -/

theorem walkBits_of_cur_nil {a : Arena} {root : NodeIx} {k : Walk} (x : Bool) (xs : List Bool)
    (hcur : k.cur = Config.nil) (howed : k.rem ≠ 0#64) :
    walkBits a root (x :: xs) k = .error (.raise .corruptStream) := by
  simp [walkBits, walkBit, hcur, howed]

theorem cur_eq_nil_of_nsym_zero {s : State} (hinv : TreeInv s) (htv : s.tv = true)
    (hzero : s.nsym.toNat = 0) : s.cur = Config.nil := by
  obtain ⟨-, hempty, -⟩ := hinv.counts
  obtain ⟨hnnode, hroot⟩ := hempty hzero
  obtain hcur | ⟨i, -, hused, -⟩ := hinv.cursor htv
  · exact hcur.trans hroot
  · omega

/-! ## The tree of one symbol (R190 b) -/

theorem leavesOf_of_length_eq_one {w : SymFile Half} (hlen : (leavesOf w).length = 1) :
    ∃ x, readSym w x ≠ 0#32 ∧ leavesOf w = [leafNode x (readSym w x)] := by
  obtain ⟨l, hl⟩ := List.length_eq_one_iff.mp hlen
  obtain ⟨x, hx, -, rfl⟩ := (leavesOf_getElem?_iff w 0 l).mp (by rw [hl]; rfl)
  exact ⟨x, hx, hl⟩

theorem internal_index_of_sole {x : Byte} {v : Half} {i : Nat} (hi : i < 3)
    (hinternal : (arenaOf (soleNodes (leafNode x v)))[i].leaf = false) : i = 2 := by
  match i, hi, hinternal with
  | 0, _, hleaf => cases hleaf
  | 1, _, hplaceholder => cases hplaceholder
  | 2, _, _ => rfl

/-- The tree of one symbol, whose only internal node is the root, so the cursor is there. -/
theorem tree_of_nsym_one {s : State} (hinv : TreeInv s) (htv : s.tv = true) (hone : s.nsym.toNat = 1) :
    ∃ x, readSym s.w x ≠ 0#32 ∧ s.node = arenaOf (soleNodes (leafNode x (readSym s.w x))) ∧
      s.root = 2#10 ∧ s.cur = 2#10 := by
  have htree := hinv.ofWeights htv
  have hlen : (leavesOf s.w).length = 1 := by rw [← buildTree_nsym_toNat, ← htree, hone]
  obtain ⟨x, hx, hleaves⟩ := leavesOf_of_length_eq_one hlen
  rw [buildTree, hleaves, treeOfLeaves_singleton] at htree
  obtain ⟨hnode, hroot, -, hnnode⟩ := Tree.mk.inj htree
  refine ⟨x, hx, hnode, hroot, ?_⟩
  obtain hcur | ⟨i, hcur, hused, hl⟩ := hinv.cursor htv
  · exact hcur.trans hroot
  · rw [hnnode] at hused
    simp only [hnode] at hl
    exact BitVec.eq_of_toNat_eq (hcur.trans (internal_index_of_sole hused hl))

/-- Bit 0 at the root of the one-symbol tree emits the symbol and is back at the root. -/
theorem walkBit_sole_false (x : Byte) (v : Half) (rem : Word) (emitted : List Byte) :
    walkBit (arenaOf (soleNodes (leafNode x v))) 2#10 false ⟨2#10, rem, emitted⟩ =
      .ok ⟨2#10, rem - 1#64, emitted ++ [x]⟩ := rfl

/-- Bit 1 at the root of the one-symbol tree meets the placeholder. -/
theorem walkBit_sole_true (x : Byte) (v : Half) (rem : Word) (emitted : List Byte) :
    walkBit (arenaOf (soleNodes (leafNode x v))) 2#10 true ⟨2#10, rem, emitted⟩ =
      .error (.raise .corruptStream) := rfl

/-- A walk from the root of the one-symbol tree meets a 1 among the bits owed, or each of them emits
the symbol. -/
theorem walkBits_sole (x : Byte) (v : Half) (bits : List Bool) (rem : Word) (emitted : List Byte) :
    walkBits (arenaOf (soleNodes (leafNode x v))) 2#10 bits ⟨2#10, rem, emitted⟩ =
      if true ∈ bits.take rem.toNat then .error (.raise .corruptStream)
      else .ok ⟨2#10, rem - BitVec.ofNat 64 (min bits.length rem.toNat),
        emitted ++ List.replicate (min bits.length rem.toNat) x⟩ := by
  induction bits generalizing rem emitted with
  | nil => simp
  | cons y ys ih =>
    by_cases howed : rem = 0#64
    · simp [howed, walkBits_done]
    obtain ⟨m, hrem, hrest⟩ : ∃ m, rem.toNat = m + 1 ∧ (rem - 1#64).toNat = m :=
      ⟨(rem - 1#64).toNat, by bv_omega, rfl⟩
    cases y with
    | true => simp [walkBits, howed, walkBit_sole_true, hrem]
    | false =>
      have hsub (c : Word) : rem - 1#64 - c = rem - (c + 1#64) := by bv_omega
      rw [walkBits_cons ys howed (walkBit_sole_false x v rem emitted), ih, hrem, hrest, hsub]
      simp [List.replicate_succ, BitVec.ofNat_add]

/-- What the walk of `UBYTE` comes to in the tree of one symbol. -/
theorem walk_of_nsym_one {s : State} (hinv : TreeInv s) (htv : s.tv = true) (hone : s.nsym.toNat = 1)
    (b : Byte) : ∃ x, readSym s.w x ≠ 0#32 ∧
      walkBits s.node s.root (byteBits b) (.ofState s) =
        if ∃ k, k < min 8 s.remain.toNat ∧ b.getLsbD (7 - k) = true then .error (.raise .corruptStream)
        else .ok ⟨s.cur, s.remain - BitVec.ofNat 64 (min 8 s.remain.toNat),
          List.replicate (min 8 s.remain.toNat) x⟩ := by
  obtain ⟨x, hx, hnode, hroot, hcur⟩ := tree_of_nsym_one hinv htv hone
  refine ⟨x, hx, ?_⟩
  rw [Walk.ofState, hnode, hroot, hcur, walkBits_sole, byteBits, bitsDown_length, List.nil_append,
    ← byteBits]
  simp only [mem_take_byteBits]

/-- Settles O40: the cursor is on `NIL` in the empty tree and on the root in the tree of one symbol,
where each bit 0 is a code and bit 1 leads to the placeholder. -/
theorem ubyteOnTreesOfNoAndOneSymbol : Obligations.UbyteOnTreesOfNoAndOneSymbol := by
  intro b s hinv herr htv
  refine ⟨fun hzero howed => ?empty, fun hone => ?sole⟩
  case empty =>
    exact exec_ubyte_of_walk_raise herr htv
      (walkBits_of_cur_nil _ _ (cur_eq_nil_of_nsym_zero hinv htv hzero) howed)
  case sole =>
    obtain ⟨x, hx, hwalk⟩ := walk_of_nsym_one hinv htv hone b
    refine ⟨fun hzeros => ⟨x, hx, ?_⟩, fun hbit => ?_⟩
    · rw [if_neg (by simpa using hzeros)] at hwalk
      rw [exec_ubyte_of_walk_ok herr htv hwalk, List.length_replicate]
    · rw [if_pos hbit] at hwalk
      exact exec_ubyte_of_walk_raise herr htv hwalk

end Sys2Proof.Machine
end

section
/-!
PROOFS. The two control commands, which read no flag: `NOP` and `RST` (spec 45_control.md R205, R206).
-/

namespace Sys2Proof.Machine

theorem encode_nop : encode .nop = 0x0000000000000000#64 := by decide

theorem encode_rst : encode .rst = 0x0100000000000000#64 := by decide

/-- A clear block runs `NOP`'s empty effect, a faulted one ignores the command. -/
theorem exec_nop (s : State) : exec .nop s = .next s := by
  by_cases herr : s.err = 0#4
  · exact exec_of_ok (by decide) herr rfl
  · exact exec_faulted (by decide) herr

/-- No element that `STATUS` shows survives a reset. -/
theorem statusWord_resetBlock (s : State) : statusWord (resetBlock s) = 0x100#64 :=
  statusWord_reset

/-- Settles O15. -/
theorem nopChangesNothing : Obligations.NopChangesNothing :=
  ⟨encode_nop, exec_nop⟩

/-- Settles O16: `exec .rst` is `resetBlock` with no test of `ERR`, and any other command is ignored by
a faulted block. -/
theorem rstReturnsEveryElementToReset : Obligations.RstReturnsEveryElementToReset := by
  refine ⟨encode_rst, fun s => ⟨resetBlock s, exec_rst s, rfl, ?status⟩, fun _ _ herr hc => ?ignored⟩
  case status => rw [regRead_status, statusWord_resetBlock]
  case ignored => exact exec_faulted hc herr

end Sys2Proof.Machine
end

section
/-!
PROOFS. The checks of the container's parse, and the number its length field holds
(spec 46_host_sequences.md R216, R218).
-/

namespace Sys2Proof.Machine

theorem ofLittleEndian_lt (bs : List Byte) : ofLittleEndian bs < 256 ^ bs.length := by
  induction bs with
  | nil => decide
  | cons b bs ih =>
    have hb : b.toNat < 256 := b.isLt
    rw [ofLittleEndian, List.length_cons, pow_succ]
    omega

/-- Byte `i` weighs `256 ^ i`; positions past the end count as 0. -/
theorem ofLittleEndian_take (bs : List Byte) (n : Nat) :
    ofLittleEndian (bs.take n) = ((List.range n).map fun i => (bs.getD i 0#8).toNat * 256 ^ i).sum := by
  induction n generalizing bs with
  | zero => rfl
  | succ n ih =>
    cases bs with
    | nil => simp [ofLittleEndian]
    | cons b bs =>
      rw [List.take_succ_cons, ofLittleEndian, ih, ← List.sum_map_mul_left,
        List.range_succ_eq_map]
      simp [Function.comp_def, pow_succ', Nat.mul_left_comm]

/-- The length field's eight bytes always fit the 64-bit `L`. -/
theorem toNat_lengthField (c : List Byte) :
    (BitVec.ofNat 64 (ofLittleEndian ((c.drop 4).take 8))).toNat =
      ((List.range 8).map fun i => (c.getD (4 + i) 0#8).toNat * 256 ^ i).sum := by
  have hfit : ofLittleEndian ((c.drop 4).take 8) < 2 ^ 64 := by
    calc ofLittleEndian ((c.drop 4).take 8)
        < 256 ^ ((c.drop 4).take 8).length := ofLittleEndian_lt _
      _ ≤ 256 ^ 8 := Nat.pow_le_pow_right (by decide) (List.length_take_le _ _)
      _ = 2 ^ 64 := by decide
  rw [BitVec.toNat_ofNat, Nat.mod_eq_of_lt hfit, ofLittleEndian_take]
  simp only [List.getD_eq_getElem?_getD, List.getElem?_drop]

/-- The parse compares the method id as a list of one byte. -/
theorem methodBytes_eq_iff (c : List Byte) :
    (c.drop 3).take 1 = containerHead.drop 3 ↔ (c.drop 3).head? = some 0x01#8 := by
  rw [List.take_one, containerHead]
  cases (c.drop 3).head? <;> simp

section Checks

variable {c : List Byte}

theorem parse_of_short (hlen : c.length < fixedLength) : parse c = .error .truncatedHeader :=
  if_pos hlen

variable (hlen : fixedLength ≤ c.length)
include hlen

theorem parse_of_wrong_tag (htag : c.take 3 ≠ containerHead.take 3) : parse c = .error .badMagic := by
  rw [parse, if_neg (Nat.not_lt.mpr hlen), if_pos htag]

variable (htag : c.take 3 = containerHead.take 3)
include htag

theorem parse_of_wrong_method (hmethod : (c.drop 3).head? ≠ some 0x01#8) :
    parse c = .error .unsupportedMethod := by
  rw [parse, if_neg (Nat.not_lt.mpr hlen), if_neg (not_not.mpr htag),
    if_pos (mt (methodBytes_eq_iff c).mp hmethod)]

theorem parse_of_header (hmethod : (c.drop 3).head? = some 0x01#8) :
    ∃ weights, parse c = .ok
      { length := BitVec.ofNat 64 (ofLittleEndian ((c.drop 4).take 8))
        weights := weights
        stream := c.drop fixedLength } := by
  rw [parse, if_neg (Nat.not_lt.mpr hlen), if_neg (not_not.mpr htag),
    if_neg (not_not.mpr ((methodBytes_eq_iff c).mpr hmethod))]
  exact ⟨_, rfl⟩

end Checks

theorem decompress_of_length_zero {c : List Byte} {k : Container} (hparse : parse c = .ok k)
    (hzero : k.length = 0#64) (s : State) : decompress c s = { result := .ok [], block := s } := by
  simp only [decompress, hparse, if_pos hzero]

/-- Settles O52: one lemma per outcome of the parse; `ofLittleEndian` of eight bytes is not cut. -/
theorem parseChecksLengthTagMethod : Obligations.ParseChecksLengthTagMethod := by
  intro c
  refine ⟨parse_of_short, parse_of_wrong_tag, parse_of_wrong_method, fun hlen htag hmethod => ?parsed⟩
  case parsed =>
    obtain ⟨weights, hparse⟩ := parse_of_header hlen htag hmethod
    exact ⟨_, hparse, rfl, toNat_lengthField c, decompress_of_length_zero hparse⟩

end Sys2Proof.Machine
end

section
/-!
PROOFS. The only word of a command (spec 30_encoding.md R91 to R95).
-/

namespace Sys2Proof

/-- The four fields cover the word, each bit once (R91). -/
theorem wordOfFields_fieldsOfWord (w : Word) : wordOfFields (fieldsOfWord w) = w := by
  simp only [wordOfFields, fieldsOfWord]
  rw [BitVec.extractLsb'_append_extractLsb'_eq_extractLsb' (by rfl),
    BitVec.extractLsb'_append_extractLsb'_eq_extractLsb' (by rfl),
    BitVec.extractLsb'_append_extractLsb'_eq_extractLsb' (by rfl)]
  exact BitVec.extractLsb'_eq_self

/-- Fields that pass the checks of a command's format are the fields of that command. -/
theorem fieldsOf_withOperandsOf {f : Fields} {c : Instr} (hop : f.op = opcode c)
    (hp : f.problem (formatOf c) = none) : fieldsOf (c.withOperandsOf f) = f := by
  obtain ⟨hrsv, hsym, himm⟩ := problem_eq_none_iff.mp hp
  obtain ⟨op, sym, rsv, imm⟩ := f
  dsimp only at hop hrsv hsym himm
  subst hop hrsv
  cases c with
  | nop | rst | fclr | wsat | tbuild | cgen | pflush | uend => rw [hsym rfl, himm rfl]; rfl
  | facc | penc | ubyte => rw [himm rfl]; rfl
  | ulenl | ulenh => rw [hsym rfl]; rfl
  | wld => rfl

theorem problem_of_decode {w : Word} {c : Instr} (h : decode w = .ok c) :
    (fieldsOfWord w).problem (formatOf c) = none := by
  cases hp : (fieldsOfWord w).problem (formatOf c) with
  | none => rfl
  | some why => simp [decode_of_problem (commandOf_of_decode h) hp] at h

/-- A legal word is the word of the command it decodes to: the decoder ignores no bit. -/
theorem encode_of_decode {w : Word} {c : Instr} (h : decode w = .ok c) : encode c = w := by
  have hop := op_eq_of_commandOf (commandOf_of_decode h)
  calc encode c
    _ = wordOfFields (fieldsOf (c.withOperandsOf (fieldsOfWord w))) := by
      rw [encode, ← decoded_eq_withOperandsOf h c hop]
    _ = w := by rw [fieldsOf_withOperandsOf hop (problem_of_decode h), wordOfFields_fieldsOfWord]

end Sys2Proof
end

section
/-!
PROOFS. What raises a fault and what the fault changes, and what a faulted block still accepts
(spec 60_exceptions.md R246 to R253).
-/

namespace Sys2Proof.Machine

/-! ## A word the block does not run, and one it does -/

theorem illegalWord_of_faulted (word : Word) {s : State} (herr : s.err ≠ 0#4) :
    illegalWord word s = s :=
  if_neg herr

theorem step_of_decode_ok {s : State} {w : Word} {rest : List Input} {c : Instr}
    (hport : s.port = .command w :: rest) (hd : decode w = .ok c) :
    step s = exec c { s with port := rest } := by
  simp only [step, takeInput_cons hport, hd]

/-- Settles O7: the fault clause of `decodeFollowsTheRule`. -/
theorem illegalWordRaisesIllegalCommand : Obligations.IllegalWordRaisesIllegalCommand := by
  intro s w rest why hport hd herr
  obtain ⟨-, -, hfault⟩ := decodeFollowsTheRule w
  exact hfault s rest why hd herr hport

/-- Settles O8: a legal word other than that of `RST` is a command other than `RST`. -/
theorem faultedBlockIgnoresAllButReset : Obligations.FaultedBlockIgnoresAllButReset := by
  intro s w rest hport herr
  refine ⟨fun hw => ?reset, fun hw => ?ignored⟩
  case reset =>
    have hd : decode w = .ok .rst := by rw [hw]; decide
    rw [step_of_decode_ok hport hd, exec_rst]
    rfl
  case ignored =>
    cases hd : decode w with
    | error why =>
      rw [step_of_decode_error hport hd, illegalWord_of_faulted w (s := { s with port := rest }) herr]
    | ok c =>
      have hc : c ≠ .rst := by
        rintro rfl
        exact hw ((encode_of_decode hd).symm.trans encode_rst)
      exact (step_of_decode_ok hport hd).trans (exec_faulted hc herr)

/-! ## A fault changes `ERR` and `ERRINFO` only (R250, R251) -/

theorem eq_ok_of_requireTree {s t : State} {body : Except Stop State}
    (h : requireTree s body = .ok t) : body = .ok t := by
  unfold requireTree at h
  split at h
  · exact h
  · cases h

theorem eq_ok_of_requireCodes {s t : State} {body : Except Stop State}
    (h : requireCodes s body = .ok t) : body = .ok t := by
  unfold requireCodes at h
  split at h
  · exact h
  · cases h

/-- `RST` aside, a command that completes leaves `ERR` alone. -/
theorem bodyOf_ok_err {c : Instr} {s t : State} (hc : c ≠ .rst) (h : bodyOf c s = .ok t) :
    t.err = s.err := by
  cases c with
  | rst => exact absurd rfl hc
  | cgen =>
    have hcodes := eq_ok_of_requireTree h
    split at hcodes <;> cases hcodes
    rfl
  | penc b =>
    have hencode := eq_ok_of_requireCodes h
    unfold encodeByte at hencode
    split_ifs at hencode
    cases hencode
    exact appendBits_err _ s
  | ubyte b =>
    have hdecode := eq_ok_of_requireTree h
    unfold decodeByte at hdecode
    split at hdecode <;> cases hdecode
    exact emitAll_err _ _
  | uend =>
    unfold bodyOf at h
    split_ifs at h
    cases h
    rfl
  | pflush =>
    cases h
    exact flushPacker_err s
  | nop | fclr | facc | wsat | wld | tbuild | ulenl | ulenh => cases h; rfl

/-- An unfaulted block that a command leaves faulted has taken the fault of the command's effect. -/
theorem exec_raised {c : Instr} {s t : State} (herr : s.err = 0#4) (h : exec c s = .next t)
    (hfault : t.err ≠ 0#4) :
    ∃ f, bodyOf c s = .error (.raise f) ∧ t = raiseFault f (encode c) s := by
  rcases exec_next h with ⟨-, rfl⟩ | ⟨-, hne, -⟩ | ⟨hc, -, hb⟩ | ⟨-, -, hraise⟩
  · exact absurd rfl hfault
  · exact absurd herr hne
  · exact absurd ((bodyOf_ok_err hc hb).trans herr) hfault
  · exact hraise

/-- A word that leaves an unfaulted block faulted, legal or not, has raised a fault with itself as
`ERRINFO`. -/
theorem step_raised {s t : State} {w : Word} {rest : List Input} (hport : s.port = .command w :: rest)
    (herr : s.err = 0#4) (h : step s = .next t) (hfault : t.err ≠ 0#4) :
    ∃ f, t = raiseFault f w { s with port := rest } := by
  cases hd : decode w with
  | error why =>
    rw [step_of_decode_error hport hd, illegalWord_of_unfaulted w (s := { s with port := rest }) herr] at h
    cases h
    exact ⟨.illegalCommand, rfl⟩
  | ok c =>
    rw [step_of_decode_ok hport hd] at h
    obtain ⟨f, -, ht⟩ := exec_raised (s := { s with port := rest }) herr h hfault
    exact ⟨f, encode_of_decode hd ▸ ht⟩

theorem faultCode_cases (f : FaultName) :
    faultCode f = 1#4 ∨ faultCode f = 2#4 ∨ faultCode f = 3#4 ∨ faultCode f = 4#4 ∨
      faultCode f = 5#4 ∨ faultCode f = 6#4 := by
  cases f <;> decide

/-- Settles O12: the state left is `raiseFault` of one of the six faults, with the word itself. -/
theorem faultsChangeOnlyErrAndErrinfo : Obligations.FaultsChangeOnlyErrAndErrinfo := by
  intro s t w rest hport herr h hfault
  obtain ⟨f, rfl⟩ := step_raised hport herr h hfault
  exact ⟨rfl, faultCode_cases f⟩

/-! ## The precondition of a command (R248) -/

theorem bodyOf_cgen_of_invalid {s : State} (htv : s.tv = false) :
    bodyOf .cgen s = .error (.raise .sequenceError) := by
  simp [bodyOf, requireTree, htv]

theorem bodyOf_ubyte_of_invalid {s : State} (b : Byte) (htv : s.tv = false) :
    bodyOf (.ubyte b) s = .error (.raise .sequenceError) := by
  simp [bodyOf, requireTree, htv]

theorem bodyOf_eq_sequenceError_iff {c : Instr} {s : State} :
    bodyOf c s = .error (.raise .sequenceError) ↔
      (c = .cgen ∧ s.tv = false) ∨ (∃ b, c = .penc b ∧ s.cv = false) ∨
      (∃ b, c = .ubyte b ∧ s.tv = false) := by
  constructor
  · intro h
    obtain ⟨hc, htv, -⟩ | ⟨-, -, ⟨⟩⟩ | ⟨b, hc, hcv, -⟩ | ⟨-, -, -, -, ⟨⟩⟩ | ⟨b, hc, htv, -⟩ |
      ⟨-, -, -, ⟨⟩⟩ | ⟨-, -, ⟨⟩⟩ := bodyOf_raise h
    · exact .inl ⟨hc, htv⟩
    · exact .inr (.inl ⟨b, hc, hcv⟩)
    · exact .inr (.inr ⟨b, hc, htv⟩)
  · rintro (⟨rfl, htv⟩ | ⟨b, rfl, hcv⟩ | ⟨b, rfl, htv⟩)
    · exact bodyOf_cgen_of_invalid htv
    · exact bodyOf_penc_of_invalid b hcv
    · exact bodyOf_ubyte_of_invalid b htv

/-- Code 5 is left only by `SequenceError`, since no two faults share a code. -/
theorem exec_raised_sequenceError {c : Instr} {s t : State} (herr : s.err = 0#4)
    (h : exec c s = .next t) (hcode : t.err = 5#4) :
    bodyOf c s = .error (.raise .sequenceError) ∧ t = raiseFault .sequenceError (encode c) s := by
  obtain ⟨f, hbody, rfl⟩ := exec_raised herr h (by rw [hcode]; decide)
  obtain rfl : f = .sequenceError := faultCode_injective hcode
  exact ⟨hbody, rfl⟩

/-- Settles O14: `exec` raises what the command's own effect raises. -/
theorem sequenceErrorExactlyWithoutTheFlag : Obligations.SequenceErrorExactlyWithoutTheFlag := by
  intro c s herr
  rw [← bodyOf_eq_sequenceError_iff]
  refine ⟨⟨fun h => ?raised, fun hbody => ?raises⟩, fun t h hcode => ?frame⟩
  case raised => exact (exec_raised_sequenceError herr h rfl).1
  case raises =>
    have hc : c ≠ .rst := by
      rintro rfl
      cases hbody
    exact exec_of_raise hc herr hbody
  case frame => exact (exec_raised_sequenceError herr h hcode).2

end Sys2Proof.Machine
end

section
/-!
PROOFS. Decoder and encoder are inverse, and the masks and matches of the opcode table (spec
30_encoding.md R91 to R97).
-/

namespace Sys2Proof

/-! ## Decoding what was encoded -/

/-- Each field of a command word stands where the decoder cuts it out (R91). -/
theorem fieldsOfWord_wordOfFields (f : Fields) : fieldsOfWord (wordOfFields f) = f := by
  obtain ⟨op, sym, rsv, imm⟩ := f
  simp (disch := decide) only [fieldsOfWord, wordOfFields, BitVec.extractLsb'_append_eq_of_add_le,
    BitVec.extractLsb'_append_eq_of_le]
  simp

theorem withOperandsOf_fieldsOf (c : Instr) : c.withOperandsOf (fieldsOf c) = c := by
  cases c <;> rfl

/-- The fields the encoder writes pass every check of R95. -/
theorem problem_fieldsOf (c : Instr) : (fieldsOf c).problem (formatOf c) = none := by
  refine Option.isNone_iff_eq_none.mp ?_
  open Laws.FieldsPass in
  cases c
  exacts [nop, rst, fclr, facc _, wsat, wld _ _, tbuild, cgen, penc _, pflush, ulenl _, ulenh _, ubyte _,
    uend]

theorem decode_encode (c : Instr) : decode (encode c) = .ok c := by
  have hfields : fieldsOfWord (encode c) = fieldsOf c := fieldsOfWord_wordOfFields (fieldsOf c)
  refine decode_of_problem_none ?_ (hfields ▸ problem_fieldsOf c)
  rw [hfields, commandOf_of_op_eq c (fieldsOf_op c), withOperandsOf_fieldsOf]

/-- Settles O1: the decoder cuts the word into the fields the encoder put together, which pass its
checks. -/
theorem decodeInvertsEncode : Obligations.DecodeInvertsEncode := decode_encode

/-- Settles O2: the fields of a legal word are those of its command. -/
theorem legalWordIsTheCommandsOnlyWord : Obligations.LegalWordIsTheCommandsOnlyWord :=
  fun _ _ => encode_of_decode

/-- Settles O5. -/
theorem sampleWordsDecode : Obligations.SampleWordsDecode := by
  unfold Obligations.SampleWordsDecode
  decide

/-! ## Masks and matches (R96) -/

/-- The mask of a field: all ones where the field carries no operand. -/
def fieldMask (n : Nat) (carriesOperand : Bool) : BitVec n :=
  if carriesOperand then 0#n else BitVec.allOnes n

theorem maskOf_eq_wordOfFields (k : Format) :
    maskOf k = wordOfFields { op := BitVec.allOnes 8, sym := fieldMask 8 k.usesSym,
                              rsv := BitVec.allOnes 16, imm := fieldMask 32 k.usesImm } := by
  cases k <;> decide

theorem matchOf_eq_wordOfFields (c : Instr) :
    matchOf c = wordOfFields { op := opcode c, sym := 0#8, rsv := 0#16, imm := 0#32 } := by
  rw [wordOfFields_eq_add rfl]
  simp [matchOf]

theorem append_and_append {m n : Nat} (x x' : BitVec m) (y y' : BitVec n) :
    (x ++ y) &&& (x' ++ y') = (x &&& x') ++ (y &&& y') := by
  refine BitVec.eq_of_getLsbD_eq fun i _ => ?_
  simp only [BitVec.getLsbD_and, BitVec.getLsbD_append]
  split <;> rfl

/-- A word is masked field by field. -/
theorem wordOfFields_and (f g : Fields) :
    wordOfFields f &&& wordOfFields g =
      wordOfFields { op := f.op &&& g.op, sym := f.sym &&& g.sym, rsv := f.rsv &&& g.rsv,
                     imm := f.imm &&& g.imm } := by
  refine (append_and_append f.op g.op _ _).trans ?_
  rw [append_and_append, append_and_append]
  rfl

theorem wordOfFields_inj {f g : Fields} : wordOfFields f = wordOfFields g ↔ f = g := by
  refine ⟨fun h => ?_, fun h => h ▸ rfl⟩
  rw [← fieldsOfWord_wordOfFields f, h, fieldsOfWord_wordOfFields]

theorem and_fieldMask_eq_zero {n : Nat} (x : BitVec n) (carriesOperand : Bool) :
    x &&& fieldMask n carriesOperand = 0#n ↔ (carriesOperand = false → x = 0#n) := by
  cases carriesOperand <;> simp [fieldMask]

/-- A masked word is a command's match exactly when it has the opcode and passes the checks. -/
theorem and_maskOf_eq_matchOf_iff (w : Word) (c : Instr) :
    w &&& maskOf (formatOf c) = matchOf c ↔
      (fieldsOfWord w).op = opcode c ∧ (fieldsOfWord w).problem (formatOf c) = none := by
  rw [problem_eq_none_iff, ← and_fieldMask_eq_zero, ← and_fieldMask_eq_zero]
  conv_lhs => rw [← wordOfFields_fieldsOfWord w]
  rw [maskOf_eq_wordOfFields, matchOf_eq_wordOfFields, wordOfFields_and, wordOfFields_inj,
    Fields.mk.injEq, BitVec.and_allOnes, BitVec.and_allOnes]
  tauto

/-- The rule of R96: the words with a command's match decode to that command, with some operands. -/
theorem exists_decode_opcode_iff (w : Word) (c : Instr) :
    (∃ d, decode w = .ok d ∧ opcode d = opcode c) ↔ w &&& maskOf (formatOf c) = matchOf c := by
  rw [and_maskOf_eq_matchOf_iff]
  constructor
  · rintro ⟨d, hd, hop⟩
    have hc : (fieldsOfWord w).op = opcode c := (op_eq_of_commandOf (commandOf_of_decode hd)).trans hop
    have hformat : formatOf d = formatOf c :=
      opcode_mem_opcodesOf.mp (hop ▸ opcode_mem_opcodesOf.mpr rfl)
    exact ⟨hc, hformat ▸ problem_of_decode hd⟩
  · rintro ⟨hop, hp⟩
    have hformat : formatOf (c.withOperandsOf (fieldsOfWord w)) = formatOf c := by cases c <;> rfl
    exact ⟨_, decode_of_problem_none (commandOf_of_op_eq c hop) (hformat ▸ hp), opcode_withOperandsOf _ c⟩

/-- A row of the opcode table: its commands are those that have the opcode of `c`, one for each operand. -/
theorem row_iff {α : Type} (w : Word) (c : Instr) (row : α → Instr)
    (hrow : ∀ d, opcode d = opcode c ↔ ∃ a, d = row a) :
    (∃ a, decode w = .ok (row a)) ↔ w &&& maskOf (formatOf c) = matchOf c := by
  simp only [← exists_decode_opcode_iff, hrow]
  constructor
  · rintro ⟨a, ha⟩
    exact ⟨row a, ha, a, rfl⟩
  · rintro ⟨_, hd, a, rfl⟩
    exact ⟨a, hd⟩

/-- A row whose command has no operand. -/
theorem row_of_command_iff (w : Word) (c : Instr) (hrow : ∀ d, opcode d = opcode c ↔ d = c) :
    decode w = .ok c ↔ w &&& maskOf (formatOf c) = matchOf c := by
  rw [← row_iff w c (fun _ : Unit => c) (by simpa using hrow)]
  simp

/-- Settles O3: every row is `row_iff` of its command. -/
theorem maskAndMatchSelectTheCommand : Obligations.MaskAndMatchSelectTheCommand := by
  refine ⟨fun w => ⟨row_of_command_iff w .nop ?_, row_of_command_iff w .rst ?_,
    row_of_command_iff w .fclr ?_, row_iff w (.facc 0#8) .facc ?_, row_of_command_iff w .wsat ?_,
    ?wld, row_of_command_iff w .tbuild ?_, row_of_command_iff w .cgen ?_,
    row_iff w (.penc 0#8) .penc ?_, row_of_command_iff w .pflush ?_,
    row_iff w (.ulenl 0#32) .ulenl ?_, row_iff w (.ulenh 0#32) .ulenh ?_,
    row_iff w (.ubyte 0#8) .ubyte ?_, row_of_command_iff w .uend ?_⟩, by decide⟩
  case wld =>
    rw [← Prod.exists (p := fun x : Byte × Half => decode w = .ok (.wld x.1 x.2))]
    refine row_iff w (.wld 0#8 0#32) (fun x : Byte × Half => .wld x.1 x.2) ?_
    rintro (_ | _) <;> simp [opcode]
  all_goals rintro (_ | _) <;> simp [opcode]

end Sys2Proof
end

section
/-!
PROOFS. A step of the block, both resets, and what the read port returns after reset (spec
20_memory.md R61 to R65, 60_exceptions.md R262, 70_reset_and_hazards.md R280, R281).
-/

namespace Sys2Proof.Machine

/-! ## One step -/

theorem decode_of_decodeTableWord {n w : Nat} {c : Instr} (h : decodeTableWord n w = some c) :
    decode (tableWord n w) = .ok c := by
  unfold decodeTableWord at h
  split at h
  case h_1 hd => rw [hd, Option.some.inj h]
  case h_2 => cases h

/-- Settles O6: presenting a word first and taking it off the port leaves the port as it was. -/
theorem stepRunsTheDecodedCommand : Obligations.StepRunsTheDecodedCommand :=
  ⟨fun _ _ _ _ hport hd => step_of_decode_ok hport hd,
    fun s w _ hd => step_of_decode_ok (s := s.withFetchWord 64 w) (rest := s.port) rfl
      (decode_of_decodeTableWord hd)⟩

theorem step_of_idle {s : State} (h : s.port = []) : step s = .next s := by
  simp only [step, takeInput_nil h]

theorem step_of_hardReset {s : State} {rest : List Input} (h : s.port = .hardReset :: rest) :
    step s = .next (resetBlock { s with port := rest }) := by
  simp only [step, takeInput_cons h]

/-- Settles O9. -/
theorem idleBlockKeepsItsState : Obligations.IdleBlockKeepsItsState := fun _ => step_of_idle

/-! ## The reset state -/

@[simp] theorem reset_freq : State.reset.freq = fillSym 0#64 := rfl
@[simp] theorem reset_w : State.reset.w = fillSym 0#32 := rfl
@[simp] theorem reset_codeBits : State.reset.codeBits = fillSym 0#64 := rfl
@[simp] theorem reset_codeLen : State.reset.codeLen = fillSym 0#7 := rfl

@[simp] theorem reset_node_getElem (i : Nat) (h : i < 511) : State.reset.node[i] = Node.fresh :=
  Vector.getElem_replicate h

/-- Settles O10: both resets are `resetBlock`, and every element of the reset state is written out. -/
theorem bothResetsLeaveTheResetState : Obligations.BothResetsLeaveTheResetState :=
  ⟨fun _ _ hport => step_of_hardReset hport, exec_rst,
    fun b => ⟨readSym_fillSym 0#64 b, readSym_fillSym 0#32 b, readSym_fillSym 0#64 b,
      readSym_fillSym 0#7 b⟩,
    fun i => reset_node_getElem i.val i.isLt,
    rfl, rfl, rfl, rfl, rfl, rfl, rfl, rfl, rfl, rfl, rfl, rfl, rfl, rfl⟩

/-! ## Reads after reset (R281) -/

theorem regReadLow_reset (n : Nat) :
    regReadLow n State.reset =
      if n = 0 then 0x1324648#64 else if n = 1 then 0x100#64
      else if n = 6 ∨ n = 10 then 0x3FF#64 else 0#64 := by
  match n with
  | 0 | 1 | 2 | 3 | 4 | 5 | 6 | 7 | 8 | 9 | 10 => rfl
  | n + 11 => simp [regReadLow_reserved]

/-- An arena view after reset shows an unused entry at each of its 511 addresses. -/
theorem arenaRead_reset (view : Node → Word) (i : Nat) :
    arenaRead State.reset.node view i = if i < 511 then view Node.fresh else 0#64 := by
  split
  case isTrue h => rw [arenaRead_of_lt _ _ h, reset_node_getElem]
  case isFalse h => exact arenaRead_of_ge _ _ (Nat.not_lt.mp h)

/-- Above the registers only the link words of the arena do not read 0. -/
theorem regRead_reset_of_ge {a : ReadAddr} (h : 0x100 ≤ a.toNat) :
    regRead a State.reset = if 0xA00 ≤ a.toNat ∧ a.toNat ≤ 0xBFE then 0xFFFFF#64 else 0#64 := by
  have hzero (h : a.toNat < 0xA00 ∨ 0xBFE < a.toNat) :
      (if 0xA00 ≤ a.toNat ∧ a.toNat ≤ 0xBFE then 0xFFFFF#64 else 0#64) = 0#64 := if_neg (by omega)
  obtain hr | hr | hr | hr | hr | hr | hr | hr :
      a.toNat < 0x200 ∨ (0x200 ≤ a.toNat ∧ a.toNat < 0x300) ∨ (0x300 ≤ a.toNat ∧ a.toNat < 0x400) ∨
      (0x400 ≤ a.toNat ∧ a.toNat < 0x500) ∨ (0x500 ≤ a.toNat ∧ a.toNat < 0x800) ∨
      (0x800 ≤ a.toNat ∧ a.toNat < 0xA00) ∨ (0xA00 ≤ a.toNat ∧ a.toNat < 0xC00) ∨ 0xC00 ≤ a.toNat := by
    omega
  · rw [regRead_freqRange _ h hr, hzero (by omega), reset_freq, readSym_fillSym]
  · rw [regRead_wRange _ hr.1 hr.2, hzero (by omega), reset_w, readSym_fillSym, BitVec.setWidth_zero]
  · rw [regRead_codeBitsRange _ hr.1 hr.2, hzero (by omega), reset_codeBits, readSym_fillSym]
  · rw [regRead_codeLenRange _ hr.1 hr.2, hzero (by omega), reset_codeLen, readSym_fillSym,
      BitVec.setWidth_zero]
  · rw [regRead_gapRange _ hr.1 hr.2, hzero (by omega)]
  · rw [regRead_weightRange _ hr.1 hr.2, hzero (by omega), arenaRead_reset]
    exact ite_self _
  · rw [regRead_linkRange _ hr.1 hr.2, arenaRead_reset, linkWord_fresh]
    exact if_congr (by omega) rfl rfl
  · rw [regRead_highRange _ hr, hzero (by omega)]

/-- Settles O11: the eleven registers one by one, the ranges above by `regRead_reset_of_ge`. -/
theorem readsAfterReset : Obligations.ReadsAfterReset := by
  intro a
  simp only [BitVec.le_def, ← BitVec.toNat_inj, BitVec.toNat_ofNat, Nat.reducePow, Nat.reduceMod]
  obtain hlow | hhigh : a.toNat < 0x100 ∨ 0x100 ≤ a.toNat := by omega
  · rw [regRead_low _ hlow, regReadLow_reset,
      if_neg (c := 0xA00 ≤ a.toNat ∧ a.toNat ≤ 0xBFE) (by omega)]
  · rw [regRead_reset_of_ge hhigh, if_neg (c := a.toNat = 0) (by omega),
      if_neg (c := a.toNat = 1) (by omega), if_neg (c := a.toNat = 6 ∨ a.toNat = 10) (by omega)]

end Sys2Proof.Machine
end

section
/-!
PROOFS. Which word raises which fault, and what the read port shows of it (spec 60_exceptions.md R246 to
R253, 20_memory.md R65); `UBYTE` with nothing owed and at a null child (44_unpacker.md R188, R191).
-/

namespace Sys2Proof.Machine

/-! ## The ends of a walk -/

/-- Settles O41: the walk ends before its first bit. -/
theorem ubyteWithNothingOwedIsIgnored : Obligations.UbyteWithNothingOwedIsIgnored := by
  intro b s herr htv hdone
  rw [exec_ubyte_of_walk_ok herr htv (walkBits_done _ _ _ hdone)]
  simp [Walk.ofState]

theorem walkBit_of_null_child {a : Arena} {root : NodeIx} {x : Bool} {k : Walk} {n : Node}
    (hn : nodeAt a k.cur = .ok n) (hnull : childOf n x = Config.nil) :
    walkBit a root x k = .error (.raise .corruptStream) := by
  simp [walkBit, hn, hnull]

theorem walkBits_cons_error {a : Arena} {root : NodeIx} {x : Bool} {k : Walk} {e : Stop} (xs : List Bool)
    (hr : k.rem ≠ 0#64) (h : walkBit a root x k = .error e) : walkBits a root (x :: xs) k = .error e := by
  simp [walkBits, hr, h]

/-- Settles O42: the first bit of the byte is bit 7, and its walk meets the null child. -/
theorem ubyteRaisesCorruptStreamAtANullChild : Obligations.UbyteRaisesCorruptStreamAtANullChild := by
  intro b s n herr htv howed hn hnull
  have hfirst : byteBits b = b.getLsbD 7 :: bitsDown b 7 := rfl
  have hbit := walkBit_of_null_child (root := s.root) (k := .ofState s) hn hnull
  have hwalk : walkBits s.node s.root (byteBits b) (.ofState s) = .error (.raise .corruptStream) := by
    rw [hfirst, walkBits_cons_error _ howed hbit]
  exact exec_ubyte_of_walk_raise herr htv hwalk

/-! ## The cause of each fault -/

/-- Settles O13: a step that faults has taken a word, and each word raises the faults of its command. -/
theorem eachFaultCodeHasItsCause : Obligations.EachFaultCodeHasItsCause := by
  intro s t herr h hfault
  obtain ⟨-, hs⟩ | ⟨xs, -, hs⟩ | ⟨w, xs, c, hport, hd, hs⟩ | ⟨w, xs, why, hport, hd, hs⟩ := step_cases s
  · cases hs.symm.trans h
    exact absurd herr hfault
  · cases hs.symm.trans h
    exact absurd rfl hfault
  · refine ⟨w, xs, hport, ?_⟩
    rw [hs] at h
    obtain ⟨f, hbody, rfl⟩ := exec_raised (s := { s with port := xs }) herr h hfault
    obtain ⟨rfl, htv, rfl⟩ | ⟨rfl, htv, rfl⟩ | ⟨b, rfl, hcv, rfl⟩ | ⟨b, rfl, hcv, hlen, rfl⟩ |
      ⟨b, rfl, htv, rfl⟩ | ⟨b, rfl, htv, rfl⟩ | ⟨rfl, howed, rfl⟩ := bodyOf_raise hbody
    · exact .inr (.inr (.inr (.inr (.inl ⟨rfl, .inl ⟨hd, htv⟩⟩))))
    · exact .inr (.inr (.inl ⟨rfl, hd, htv⟩))
    · exact .inr (.inr (.inr (.inr (.inl ⟨rfl, .inr (.inl ⟨b, hd, hcv⟩)⟩))))
    · exact .inr (.inr (.inr (.inr (.inr ⟨rfl, b, hd, hcv, hlen⟩))))
    · exact .inr (.inr (.inr (.inr (.inl ⟨rfl, .inr (.inr ⟨b, hd, htv⟩)⟩))))
    · refine .inr (.inl ⟨rfl, b, hd, htv, fun hdone => ?_⟩)
      have hsame := ubyteWithNothingOwedIsIgnored b { s with port := xs } herr htv hdone
      exact hfault ((congrArg State.err (Host.Outcome.next.inj (h.symm.trans hsame))).trans herr)
    · exact .inl ⟨rfl, hd, howed⟩
  · refine ⟨w, xs, hport, .inr (.inr (.inr (.inl ⟨?_, why, hd⟩)))⟩
    rw [illegalWord_of_unfaulted w (s := { s with port := xs }) herr] at hs
    cases hs.symm.trans h
    rfl

/-! ## Reads of a faulted block -/

theorem regReadLow_raiseFault {n : Nat} (hstatus : n ≠ 1) (hinfo : n ≠ 2) (f : FaultName) (v : Word)
    (s : State) : regReadLow n (raiseFault f v s) = regReadLow n s := by
  match n with
  | 1 => exact absurd rfl hstatus
  | 2 => exact absurd rfl hinfo
  | 0 | 3 | 4 | 5 | 6 | 7 | 8 | 9 | 10 => rfl
  | n + 11 => rfl

/-- Settles O50: only the two registers show the two elements a fault writes. -/
theorem readPortWorksWhileFaulted : Obligations.ReadPortWorksWhileFaulted := by
  intro c s t a herr h hfault hstatus hinfo
  obtain ⟨f, -, rfl⟩ := exec_raised herr h hfault
  by_cases hlow : a.toNat < 0x100
  · rw [regRead_low _ hlow, regRead_low _ hlow]
    exact regReadLow_raiseFault (fun e => hstatus (BitVec.eq_of_toNat_eq e))
      (fun e => hinfo (BitVec.eq_of_toNat_eq e)) f _ s
  · simp only [regRead, if_neg hlow, raiseFault_freq, raiseFault_w, raiseFault_codeBits,
      raiseFault_codeLen, raiseFault_node]

end Sys2Proof.Machine
end

section
/-!
PROOFS. What the merge loop comes to: one pending node, the last one created, that weighs what all the
leaves weigh (spec 41_tree.md R143, R148).
-/

namespace Sys2Proof.Machine

/-! ## Weights: a round keeps the sum of the pending weights -/

/-- What the nodes of a pending set weigh together, as a number. -/
def pendingSum (p : List Pending) : Nat := (p.map fun x => x.weight.toNat).sum

/-- What nodes weigh together. -/
def weightSum (ds : List Node) : Nat := (ds.map fun d => d.weight.toNat).sum

theorem pendingSum_pendingFrom (n : Nat) (ds : List Node) :
    pendingSum (pendingFrom n ds) = weightSum ds := by
  induction ds generalizing n with
  | nil => rfl
  | cons d ds ih => simpa [pendingSum, pendingFrom, weightSum] using ih (n + 1)

/-- No addition of the loop wraps when the whole fits: no node created weighs more than the whole, and
the whole is kept. -/
theorem mergeLoop_weights (fuel : Nat) (p : List Pending) (n : Nat) (hf : p.length ≤ fuel + 1)
    (hfits : pendingSum p < 2 ^ 64) :
    pendingSum (mergeLoop fuel p n).2 = pendingSum p ∧
      ∀ d ∈ (mergeLoop fuel p n).1, d.weight.toNat ≤ pendingSum p := by
  refine mergeLoop_induct (fun p _ ds q => pendingSum p < 2 ^ 64 →
    pendingSum q = pendingSum p ∧ ∀ d ∈ ds, d.weight.toNat ≤ pendingSum p)
    (fun p _ _ _ => ⟨rfl, by simp⟩) (fun p p1 p2 x y n ds q hx hy ih hfits => ?_) fuel p n hf hfits
  have hsum : pendingSum p = x.weight.toNat + (y.weight.toNat + pendingSum p2) := by
    have hperm := (removeLeast_twice_perm hx hy).map fun z => z.weight.toNat
    simpa [pendingSum] using hperm.sum_eq
  have hadd : (x.weight + y.weight).toNat = x.weight.toNat + y.weight.toNat :=
    BitVec.toNat_add_of_lt (by omega)
  have hnext : pendingSum (p2 ++ [{ weight := x.weight + y.weight, ix := ixOf n }]) = pendingSum p := by
    rw [hsum]
    simp [pendingSum, hadd]
    omega
  rw [hnext] at ih
  obtain ⟨hq, hds⟩ := ih hfits
  refine ⟨hq, List.forall_mem_cons.mpr ⟨?_, hds⟩⟩
  change (x.weight + y.weight).toNat ≤ _
  omega

/-! ## The end of the loop -/

/-- The loop ends with a list of the nodes then pending. -/
theorem mergeLoop_listsPending (a : Arena) (k fuel : Nat) (p : List Pending) (n : Nat)
    (hf : p.length ≤ fuel + 1) (hk : k ≤ n) (hstands : StandsAt a n (mergeLoop fuel p n).1)
    (hp : ListsPending a k n p)
    (hjoins : ∀ m : Fin 511, k ≤ m.val → m.val < n + (mergeLoop fuel p n).1.length →
      JoinsLeastTwo a k m) :
    ListsPending a k (n + (mergeLoop fuel p n).1.length) (mergeLoop fuel p n).2 := by
  refine mergeLoop_induct (fun p n ds q => k ≤ n → StandsAt a n ds → ListsPending a k n p →
    (∀ m : Fin 511, k ≤ m.val → m.val < n + ds.length → JoinsLeastTwo a k m) →
    ListsPending a k (n + ds.length) q) (fun _ _ _ _ _ hp _ => hp) ?_ fuel p n hf hk hstands hp hjoins
  intro p p1 p2 x y n ds q hx hy ih hk hstands hp hjoins
  obtain ⟨hn, hds⟩ := standsAt_cons.mp hstands
  obtain ⟨hlt, hn⟩ := Vector.getElem?_eq_some_iff.mp hn
  have hlen : n + (joinNode x y :: ds).length = n + 1 + ds.length := by
    rw [List.length_cons]
    omega
  rw [hlen] at hjoins ⊢
  exact ih (by omega) hds
    (hp.succ (n := ⟨n, hlt⟩) hk hx hy hn fun m hkm hm => hjoins m hkm (by dsimp at hm; omega)) hjoins

/-- The last node created is no node's child. -/
theorem pendingAt_last {a : Arena} {k : Nat} {n : Fin 511}
    (hjoins : ∀ m : Fin 511, k ≤ m.val → m.val < n.val + 1 → JoinsLeastTwo a k m) :
    PendingAt a k (n.val + 1) n := by
  refine ⟨by omega, fun m hkm hm => ?_⟩
  have := (hjoins m hkm hm).children_lt
  omega

/-! ## The tree of two or more leaves -/

/-- The merge over the `k` leaves of an arena: `2 k - 1` nodes, of which each after the leaves joins the
least two pending, and the last alone is no node's child. -/
structure IsMerge (a : Arena) (k : Nat) : Prop where
  /-- there is something to merge -/
  two_le : 2 ≤ k
  /-- one leaf for each byte value at most -/
  le : k ≤ 256
  /-- R145 -/
  joins : ∀ n : Fin 511, k ≤ n.val → n.val < 2 * k - 1 → JoinsLeastTwo a k n
  /-- one node is pending at the end -/
  pending_iff : ∀ j : Fin 511, PendingAt a k (2 * k - 1) j ↔ j.val = 2 * k - 2

/-- The nodes the merge loop creates over the leaves. -/
def createdOver (leaves : List Node) : List Node :=
  (mergeLoop leaves.length (pendingFrom 0 leaves) leaves.length).1

/-- What the merge loop over the leaves leaves pending. -/
def leftPending (leaves : List Node) : List Pending :=
  (mergeLoop leaves.length (pendingFrom 0 leaves) leaves.length).2

section Merge
variable {leaves : List Node} (htwo : 2 ≤ leaves.length)
include htwo

theorem treeOfLeaves_eq_treeOf :
    treeOfLeaves leaves =
      treeOf (leaves ++ createdOver leaves) (rootOf (leftPending leaves)) leaves.length :=
  treeOfLeaves_of_two_le htwo

theorem createdOver_length :
    (createdOver leaves).length + 1 = leaves.length ∧ (leftPending leaves).length = 1 := by
  have hne : pendingFrom 0 leaves ≠ [] := by
    rw [← List.length_pos_iff, pendingFrom_length]
    omega
  simpa [createdOver, leftPending] using mergeLoop_length leaves.length leaves.length hne (by simp)

theorem treeNodes_length : (leaves ++ createdOver leaves).length = 2 * leaves.length - 1 := by
  have := (createdOver_length htwo).1
  rw [List.length_append]
  omega

variable (hmax : leaves.length ≤ 256)
include hmax

theorem treeOfLeaves_nnode : (treeOfLeaves leaves).nnode.toNat = 2 * leaves.length - 1 := by
  rw [treeOfLeaves_eq_treeOf htwo, treeOf, treeNodes_length htwo]
  exact ixOf_toNat (by omega)

theorem joinsLeastTwo_of_lt (n : Fin 511) (hk : leaves.length ≤ n.val)
    (hn : n.val < 2 * leaves.length - 1) : JoinsLeastTwo (treeOfLeaves leaves).node leaves.length n :=
  treeOfLeaves_joins htwo hmax n hk (by rwa [treeOfLeaves_nnode htwo hmax])

theorem listsPending_leftPending :
    ListsPending (treeOfLeaves leaves).node leaves.length (2 * leaves.length - 1) (leftPending leaves) := by
  have hlen := treeNodes_length htwo
  have hjoins := joinsLeastTwo_of_lt htwo hmax
  rw [treeOfLeaves_eq_treeOf htwo] at hjoins ⊢
  obtain ⟨hleaves, hstands⟩ := (standsAt_arenaOf (ds := leaves ++ createdOver leaves) (by omega)).of_append
  rw [Nat.zero_add] at hstands
  rw [← hlen, List.length_append] at hjoins ⊢
  exact mergeLoop_listsPending _ _ _ _ _ (by simp) le_rfl hstands (listsPending_leaves hleaves) hjoins

/-- The one node left pending is the last one created. -/
theorem leftPending_eq {root : Fin 511} (hroot : root.val = 2 * leaves.length - 2) :
    leftPending leaves = [pendingOf (treeOfLeaves leaves).node root] := by
  obtain ⟨x, hx⟩ := List.length_eq_one_iff.mp (createdOver_length htwo).2
  have hlast := pendingAt_last (n := root) fun m hkm hm =>
    joinsLeastTwo_of_lt htwo hmax m hkm (by omega)
  rw [show root.val + 1 = 2 * leaves.length - 1 by omega] at hlast
  have hmem := ((listsPending_leftPending htwo hmax).mem_iff root).mpr hlast
  rw [hx, List.mem_singleton] at hmem
  rw [hx, hmem]

theorem treeOfLeaves_root : (treeOfLeaves leaves).root = ixOf (2 * leaves.length - 2) := by
  have hleft := leftPending_eq htwo hmax (root := ⟨2 * leaves.length - 2, by omega⟩) rfl
  rw [treeOfLeaves_eq_treeOf htwo, hleft]
  rfl

theorem treeOfLeaves_isMerge : IsMerge (treeOfLeaves leaves).node leaves.length where
  two_le := htwo
  le := hmax
  joins := joinsLeastTwo_of_lt htwo hmax
  pending_iff j := by
    have hlt : 2 * leaves.length - 2 < 511 := by omega
    rw [← (listsPending_leftPending htwo hmax).mem_iff, leftPending_eq htwo hmax (root := ⟨_, hlt⟩) rfl,
      List.mem_singleton, pendingOf_inj, Fin.ext_iff]

end Merge

section Weights
variable {leaves : List Node} (hfits : weightSum leaves < 2 ^ 64)
include hfits

theorem mergeLoop_weights_leaves :
    pendingSum (leftPending leaves) = weightSum leaves ∧
      ∀ d ∈ createdOver leaves, d.weight.toNat ≤ weightSum leaves := by
  have h := mergeLoop_weights leaves.length (pendingFrom 0 leaves) leaves.length (by simp)
  rw [pendingSum_pendingFrom] at h
  exact h hfits

/-- The last node created weighs the whole. -/
theorem treeOfLeaves_root_weight (htwo : 2 ≤ leaves.length) (hmax : leaves.length ≤ 256) {root : Fin 511}
    (hroot : root.val = 2 * leaves.length - 2) :
    (treeOfLeaves leaves).node[root.val].weight.toNat = weightSum leaves := by
  rw [← (mergeLoop_weights_leaves hfits).1, leftPending_eq htwo hmax hroot]
  simp [pendingSum, pendingOf]

end Weights

end Sys2Proof.Machine
end

section
/-!
PROOFS. What stands where after `TBUILD`, for any number of symbols, and what the entries weigh (spec
10_state.md R26, R27, 41_tree.md R142 to R149).
-/

namespace Sys2Proof.Machine

/-! ## The leaves: how many, what they weigh, in which order -/

theorem map_readSym_allSyms {α : Type} (f : SymFile α) : allSyms.map (readSym f) = f.toList := by
  refine List.ext_getElem (by simp [allSyms]) fun i hi _ => ?_
  have hlt : i < 256 := by simpa [allSyms] using hi
  simp [allSyms, readSym, Nat.mod_eq_of_lt hlt]

theorem leavesOf_length (w : SymFile Half) : (leavesOf w).length = presentCount w := by
  rw [leavesOf_eq, List.length_map, ← List.countP_eq_length_filter, presentCount, ← map_readSym_allSyms,
    List.countP_map]
  rfl

/-- What all the weights come to. -/
def totalWeight (w : SymFile Half) : Nat := (w.toList.map BitVec.toNat).sum

@[simp] theorem leafNode_weight_toNat (b : Byte) (v : Half) : (leafNode b v).weight.toNat = v.toNat :=
  toNat_zextHalf v

/-- A symbol without a leaf weighs nothing. -/
theorem weightSum_leavesOf (w : SymFile Half) : weightSum (leavesOf w) = totalWeight w := by
  rw [weightSum, totalWeight, ← map_readSym_allSyms, leavesOf]
  induction allSyms with
  | nil => rfl
  | cons b bs ih =>
    simp only [List.map_map] at ih ⊢
    by_cases hb : readSym w b = 0#32 <;> simp [hb, ih]

theorem totalWeight_le (w : SymFile Half) : totalWeight w ≤ 256 * (2 ^ 32 - 1) := by
  have hle : ∀ x ∈ w.toList.map BitVec.toNat, x ≤ 2 ^ 32 - 1 := by
    simp only [List.mem_map]
    rintro _ ⟨v, -, rfl⟩
    exact Nat.le_sub_one_of_lt v.isLt
  simpa [totalWeight] using List.sum_le_card_nsmul _ _ hle

theorem weightSum_lt (w : SymFile Half) : weightSum (leavesOf w) < 2 ^ 64 := by
  have := totalWeight_le w
  rw [weightSum_leavesOf]
  omega

theorem leaf_weight_le {w : SymFile Half} {d : Node} (h : d ∈ leavesOf w) :
    d.weight.toNat ≤ totalWeight w :=
  weightSum_leavesOf w ▸ List.single_le_sum (by simp) _ (List.mem_map_of_mem h)

theorem rankOf_mono (w : SymFile Half) {b c : Byte} (h : b ≤ c) : rankOf w b ≤ rankOf w c :=
  (List.range_sublist.mpr h).countP_le

/-! ## The arena by the number of symbols (R26, R27) -/

/-- How many nodes `TBUILD` makes beside the leaves of `k` symbols. -/
def innerCount : Nat → Nat
  | 0 => 0
  | 1 => 2
  | k + 2 => k + 1

/-- Where the root of a tree of `k` symbols stands. -/
def rootIndex : Nat → NodeIx
  | 0 => Config.nil
  | 1 => ixOf 2
  | k + 2 => ixOf (2 * k + 2)

/-- The nodes of the tree: the leaves in symbol order, then the others, of which none weighs more than
the whole. -/
theorem buildTree_layout (w : SymFile Half) :
    ∃ inner, buildTree w =
        treeOf (leavesOf w ++ inner) (rootIndex (leavesOf w).length) (leavesOf w).length ∧
      inner.length = innerCount (leavesOf w).length ∧
      ∀ d ∈ inner, d.weight.toNat ≤ totalWeight w := by
  have hsum := weightSum_leavesOf w
  have hfits := weightSum_lt w
  have hmax := leavesOf_length_le w
  unfold buildTree
  generalize leavesOf w = leaves at *
  match leaves with
  | [] => exact ⟨[], rfl, rfl, by simp⟩
  | [l] =>
    refine ⟨[placeholderNode, soleRoot l], treeOfLeaves_singleton l, rfl, ?_⟩
    simpa [placeholderNode, soleRoot, weightSum] using hsum.le
  | l :: m :: ls =>
    have htwo : 2 ≤ (l :: m :: ls).length := by simp
    have hroot := treeOfLeaves_root htwo hmax
    rw [treeOfLeaves_eq_treeOf htwo] at hroot ⊢
    refine ⟨createdOver (l :: m :: ls), congrArg (treeOf _ · _) hroot,
      Nat.succ.inj (createdOver_length htwo).1, ?_⟩
    rw [← hsum]
    exact (mergeLoop_weights_leaves hfits).2

section Layout
variable (w : SymFile Half)

theorem innerCount_add_le {k : Nat} (h : k ≤ 256) : k + innerCount k ≤ 511 := by
  match k with
  | 0 | 1 => decide
  | k + 2 =>
    rw [innerCount]
    omega

theorem buildTree_root : (buildTree w).root = rootIndex (leavesOf w).length := by
  obtain ⟨inner, htree, -⟩ := buildTree_layout w
  rw [htree]
  rfl

theorem buildTree_nnode_toNat :
    (buildTree w).nnode.toNat = (leavesOf w).length + innerCount (leavesOf w).length := by
  have hle := innerCount_add_le (leavesOf_length_le w)
  obtain ⟨inner, htree, hlen, -⟩ := buildTree_layout w
  rw [htree, ← hlen, ← List.length_append]
  exact ixOf_toNat (by rw [List.length_append]; omega)

variable {w} {i : Nat}

theorem buildTree_node_of_leaf (h : i < (leavesOf w).length) (hi : i < 511) :
    (buildTree w).node[i] = (leavesOf w)[i] := by
  obtain ⟨inner, htree, -⟩ := buildTree_layout w
  simp only [htree, treeOf]
  exact arenaOf_append_getElem hi (List.getElem?_eq_getElem h)

theorem buildTree_node_unused (h : (buildTree w).nnode.toNat ≤ i) (hi : i < 511) :
    (buildTree w).node[i] = Node.fresh := by
  rw [buildTree_nnode_toNat] at h
  obtain ⟨inner, htree, hlen, -⟩ := buildTree_layout w
  simp only [htree, treeOf]
  rw [arenaOf_getElem _ i hi, dif_neg (by rw [List.length_append]; omega)]

theorem buildTree_weight_le (hi : i < 511) : (buildTree w).node[i].weight.toNat ≤ totalWeight w := by
  obtain ⟨inner, htree, -, hinner⟩ := buildTree_layout w
  simp only [htree, treeOf]
  refine arenaOf_forall (P := fun _ d => d.weight.toNat ≤ totalWeight w) (fun j hj => ?_)
    (fun _ _ => Nat.zero_le _) ⟨i, hi⟩
  obtain hd | hd := List.mem_append.mp (List.getElem_mem hj)
  · exact leaf_weight_le hd
  · exact hinner _ hd

/-- With two or more symbols the arena is a merge over the leaves. -/
theorem buildTree_isMerge (h : 2 ≤ (leavesOf w).length) :
    IsMerge (buildTree w).node (leavesOf w).length :=
  treeOfLeaves_isMerge h (leavesOf_length_le w)

theorem nnode_of_two_le (h : 2 ≤ (leavesOf w).length) :
    (buildTree w).nnode.toNat = 2 * (leavesOf w).length - 1 :=
  treeOfLeaves_nnode h (leavesOf_length_le w)

end Layout

theorem JoinsLeastTwo.internal {a : Arena} {k : Nat} {n : Fin 511} (h : JoinsLeastTwo a k n) :
    a[n.val].leaf = false := by
  obtain ⟨l, r, hn, -⟩ := h
  rw [hn]

/-- With two or more symbols no entry after the leaves is a leaf: internal nodes, then unused ones. -/
theorem buildTree_internal {w : SymFile Half} {i : Nat} (htwo : 2 ≤ (leavesOf w).length)
    (h : (leavesOf w).length ≤ i) (hi : i < 511) : (buildTree w).node[i].leaf = false := by
  obtain hused | hunused := Nat.lt_or_ge i (buildTree w).nnode.toNat
  · exact ((buildTree_isMerge htwo).joins ⟨i, hi⟩ h (nnode_of_two_le htwo ▸ hused)).internal
  · rw [buildTree_node_unused hunused hi]
    rfl

/-! ## `TBUILD` (R141) -/

/-- Settles O21: what is installed is `buildTree` of the weights, which counts the leaves. -/
theorem tbuildInstallsATreeOfTheWeights : Obligations.TbuildInstallsATreeOfTheWeights := by
  refine ⟨by decide, fun s herr => ⟨_, exec_tbuild herr, rfl, ?count, fun u v hw hv hu => ?same⟩⟩
  case count => rw [installTree_nsym, buildTree_nsym_toNat, leavesOf_length]
  case same =>
    obtain rfl := eq_installTree_of_exec hu hv
    rw [hw]
    exact ⟨rfl, rfl, rfl, rfl⟩

theorem countsAgree_installTree (w : SymFile Half) (s : State) :
    CountsAgree (installTree (buildTree w) s) := by
  have hmax := leavesOf_length_le w
  simp only [CountsAgree, installTree_nsym, installTree_nnode, installTree_root, buildTree_nsym_toNat,
    buildTree_nnode_toNat, buildTree_root]
  generalize (leavesOf w).length = k at *
  match k with
  | 0 => decide
  | 1 => decide
  | k + 2 =>
    have hroot : (rootIndex (k + 2)).toNat = 2 * k + 2 := ixOf_toNat (by omega)
    rw [innerCount, hroot]
    omega

theorem unusedAreFresh_installTree (w : SymFile Half) (s : State) :
    UnusedAreFresh (installTree (buildTree w) s) :=
  fun i hi => buildTree_node_unused hi i.isLt

theorem sym_lt_of_lt {w : SymFile Half} {i j : Nat} (hij : i < j) (hj : j < (leavesOf w).length) :
    (leavesOf w)[i].sym < (leavesOf w)[j].sym := by
  obtain ⟨b, -, hi, hb⟩ := (leavesOf_getElem?_iff w i _).mp (List.getElem?_eq_getElem (hij.trans hj))
  obtain ⟨c, -, hj, hc⟩ := (leavesOf_getElem?_iff w j _).mp (List.getElem?_eq_getElem hj)
  rw [← hb, ← hc]
  change b < c
  by_contra hge
  have := rankOf_mono w (BitVec.not_lt.mp hge)
  omega

theorem leaf_of_mem_leavesOf {w : SymFile Half} {d : Node} (h : d ∈ leavesOf w) :
    ∃ b, readSym w b ≠ 0#32 ∧ d = leafNode b (readSym w b) := by
  obtain ⟨i, hi, rfl⟩ := List.mem_iff_getElem.mp h
  obtain ⟨b, hb, -, hd⟩ := (leavesOf_getElem?_iff w i _).mp (List.getElem?_eq_getElem hi)
  exact ⟨b, hb, hd.symm⟩

/-- Settles O23: the layout, in which the leaves stand in the order of their ranks. -/
theorem tbuildOrdersTheArena : Obligations.TbuildOrdersTheArena := by
  intro s t herr hexec
  obtain rfl := eq_installTree_of_exec herr hexec
  refine ⟨countsAgree_installTree s.w s, unusedAreFresh_installTree s.w s, fun i j hij hj => ?ascending,
    fun i hi => ?leaf, fun htwo i hi => ?internal⟩
  all_goals simp only [installTree_nsym, installTree_node, buildTree_nsym_toNat] at *
  case ascending =>
    rw [buildTree_node_of_leaf (lt_trans hij hj) i.isLt, buildTree_node_of_leaf hj j.isLt]
    exact sym_lt_of_lt hij hj
  case leaf =>
    rw [buildTree_node_of_leaf hi i.isLt]
    obtain ⟨b, -, hd⟩ := leaf_of_mem_leavesOf (List.getElem_mem hi)
    rw [hd]
    exact ⟨rfl, rfl⟩
  case internal => exact buildTree_internal htwo hi i.isLt

/-! ## No symbol (R147) -/

theorem leavesOf_of_none {w : SymFile Half} (h : ∀ b, readSym w b = 0#32) : leavesOf w = [] := by
  refine List.eq_nil_iff_forall_not_mem.mpr fun d hd => ?_
  obtain ⟨b, hb, -⟩ := leaf_of_mem_leavesOf hd
  exact hb (h b)

theorem getLsbD_statusWord_te (s : State) : (statusWord s).getLsbD 5 = treeEmpty s :=
  getLsbD_statusWord s 5

/-- Settles O26: without a leaf the tree has no node, and its code table no code. -/
theorem tbuildOfNoSymbol : Obligations.TbuildOfNoSymbol := by
  intro s herr hnone
  have htree : buildTree s.w = treeOf [] Config.nil 0 := by
    rw [buildTree, leavesOf_of_none hnone]
    rfl
  refine ⟨_, exec_tbuild herr, ?_⟩
  rw [htree]
  refine ⟨rfl, rfl, rfl, rfl, fun i => arenaOf_getElem [] i.val i.isLt, rfl, ?empty, _,
    exec_cgen_of_ok herr rfl (if_pos rfl), rfl, fun b => ⟨readSym_fillSym 0#7 b, readSym_fillSym 0#64 b⟩,
    rfl⟩
  case empty =>
    rw [regRead_status, getLsbD_statusWord_te, treeEmpty_iff]
    exact ⟨rfl, rfl⟩

/-! ## The weights of the arena (R148) -/

/-- The root weighs the whole, whether it is the root of a merge or of the one-symbol tree. -/
theorem buildTree_root_weight {w : SymFile Half} (h : (leavesOf w).length ≠ 0) :
    ∃ n, nodeAt (buildTree w).node (buildTree w).root = .ok n ∧ n.weight.toNat = totalWeight w := by
  have hsum := weightSum_leavesOf w
  have hfits := weightSum_lt w
  have hmax := leavesOf_length_le w
  unfold buildTree
  generalize leavesOf w = leaves at *
  match leaves with
  | [] => exact absurd rfl h
  | [l] =>
    rw [treeOfLeaves_singleton]
    exact ⟨soleRoot l, rfl, by simpa [soleRoot, weightSum] using hsum⟩
  | l :: m :: ls =>
    have htwo : 2 ≤ (l :: m :: ls).length := by simp
    have hroot := treeOfLeaves_root htwo hmax
    have hix : (treeOfLeaves (l :: m :: ls)).root.toNat = 2 * (l :: m :: ls).length - 2 := by
      rw [hroot]
      exact ixOf_toNat (by omega)
    have hlt : (treeOfLeaves (l :: m :: ls)).root.toNat < 511 := by omega
    exact ⟨_, nodeAt_of_lt _ hlt,
      (treeOfLeaves_root_weight hfits htwo hmax (root := ⟨_, hlt⟩) hix).trans hsum⟩

/-- Settles O28: no node weighs more than the whole, which the root weighs. -/
theorem rootWeighsTheTotal : Obligations.RootWeighsTheTotal := by
  intro s t herr hexec
  obtain rfl := eq_installTree_of_exec herr hexec
  refine ⟨fun i => (buildTree_weight_le i.isLt).trans (totalWeight_le s.w), fun hsome => ?_⟩
  rw [installTree_nsym, buildTree_nsym_toNat] at hsome
  exact buildTree_root_weight hsome

end Sys2Proof.Machine
end

section
/-!
PROOFS. The weights in the tree of two or more symbols (spec 41_tree.md R148, R149 c, R150): no sum wraps,
internal nodes do not get lighter, and a deep leaf makes a heavy node.
-/

namespace Sys2Proof.Machine

/-- A merge over real leaves of some weight, in which every sum fits its 64 bits. -/
structure IsHuffman (a : Arena) (k : Nat) : Prop extends IsMerge a k where
  /-- the first entries are the leaves of present symbols -/
  leaf : ∀ i : Fin 511, i.val < k → ∃ (b : Byte) (v : Half), v ≠ 0#32 ∧ a[i.val] = leafNode b v
  /-- R40 item 5 -/
  fits : ∀ i : Fin 511, a[i.val].weight.toNat < 2 ^ 40

theorem buildTree_weight_lt {w : SymFile Half} {i : Nat} (hi : i < 511) :
    (buildTree w).node[i].weight.toNat < 2 ^ 40 := by
  have := (buildTree_weight_le (w := w) hi).trans (totalWeight_le w)
  omega

theorem buildTree_isHuffman {w : SymFile Half} (h : 2 ≤ (leavesOf w).length) :
    IsHuffman (buildTree w).node (leavesOf w).length where
  toIsMerge := buildTree_isMerge h
  leaf i hi := by
    rw [buildTree_node_of_leaf hi i.isLt]
    obtain ⟨b, hb, hd⟩ := leaf_of_mem_leavesOf (List.getElem_mem hi)
    exact ⟨b, _, hb, hd⟩
  fits i := buildTree_weight_lt i.isLt

theorem nodeAt_ixOf (a : Arena) (j : Fin 511) : nodeAt a (ixOf j.val) = .ok a[j.val] := by
  have hj : (ixOf j.val).toNat = j.val := ixOf_toNat (by omega)
  simpa [hj] using nodeAt_of_lt a (i := ixOf j.val) (by omega)

theorem ixOf_inj {i j : Fin 511} : ixOf i.val = ixOf j.val ↔ i = j := by
  refine ⟨fun h => Fin.ext ?_, fun h => h ▸ rfl⟩
  rw [← ixOf_toNat (n := i.val) (by omega), h, ixOf_toNat (by omega)]

/-- Entry `n` joins the entries `l`, on the left, and `r`, the two lightest pending, and weighs what they
weigh together. -/
structure JoinedFrom (a : Arena) (k : Nat) (n l r : Fin 511) : Prop where
  /-- the entry is internal -/
  internal : a[n.val].leaf = false
  /-- the child on bit 0 -/
  left : a[n.val].left = ixOf l.val
  /-- the child on bit 1 -/
  right : a[n.val].right = ixOf r.val
  /-- the sum does not wrap -/
  weight : a[n.val].weight.toNat = a[l.val].weight.toNat + a[r.val].weight.toNat
  /-- the left child was pending -/
  left_pending : PendingAt a k n.val l
  /-- so was the right child -/
  right_pending : PendingAt a k n.val r
  /-- the children are two -/
  ne : l ≠ r
  /-- the left child is the lightest -/
  left_le : a[l.val].weight.toNat ≤ a[r.val].weight.toNat
  /-- the right child is the lightest of the others -/
  right_le : ∀ j, PendingAt a k n.val j → j ≠ l → j ≠ r → a[r.val].weight.toNat ≤ a[j.val].weight.toNat

theorem NodeLess.weight_le {a : Arena} {i j : Fin 511} (h : NodeLess a i j) :
    a[i.val].weight.toNat ≤ a[j.val].weight.toNat := by
  obtain hlt | ⟨heq, -⟩ := h
  · exact Nat.le_of_lt hlt
  · rw [heq]

theorem NodeLess.ne {a : Arena} {i j : Fin 511} (h : NodeLess a i j) : i ≠ j := by
  rintro rfl
  obtain hlt | ⟨-, hlt⟩ := h
  · exact Nat.lt_irrefl _ hlt
  · exact lt_irrefl _ hlt

section Tree
variable {a : Arena} {k : Nat} (h : IsHuffman a k)
include h

theorem IsHuffman.joinedFrom {n : Fin 511} (hk : k ≤ n.val) (hn : n.val < 2 * k - 1) :
    ∃ l r, JoinedFrom a k n l r := by
  obtain ⟨l, r, hnode, hl, hr, hlr, hleast⟩ := h.joins n hk hn
  have hfits := h.fits l
  have hfits' := h.fits r
  refine ⟨l, r, ⟨by rw [hnode], by rw [hnode]; rfl, by rw [hnode]; rfl, ?_, hl, hr, hlr.ne, hlr.weight_le,
    fun j hj hjl hjr => (hleast j hj hjl hjr).weight_le⟩⟩
  rw [hnode]
  exact BitVec.toNat_add_of_lt (by omega)

theorem IsHuffman.le_of_internal {n : Fin 511} (hl : a[n.val].leaf = false) : k ≤ n.val := by
  by_contra hlt
  obtain ⟨b, v, -, hn⟩ := h.leaf n (Nat.lt_of_not_le hlt)
  simp [hn, leafNode] at hl

/-- Every node weighs something. -/
theorem IsHuffman.weight_pos (n : Fin 511) (hn : n.val < 2 * k - 1) : 1 ≤ a[n.val].weight.toNat := by
  induction n using WellFoundedLT.induction with
  | _ n ih =>
    obtain hleaf | hk := Nat.lt_or_ge n.val k
    · obtain ⟨b, v, hv, hnode⟩ := h.leaf n hleaf
      rw [hnode, leafNode_weight_toNat]
      exact Nat.one_le_iff_ne_zero.mpr fun hzero => hv (BitVec.eq_of_toNat_eq hzero)
    · obtain ⟨l, r, hj⟩ := h.joinedFrom hk hn
      have hl := hj.left_pending.1
      rw [hj.weight]
      exact Nat.le_add_right_of_le (ih l hl (by omega))

end Tree

section Joined
variable {a : Arena} {k : Nat} {n l r : Fin 511} (hj : JoinedFrom a k n l r)
include hj

theorem JoinedFrom.left_toNat : a[n.val].left.toNat = l.val := by
  rw [hj.left]
  exact ixOf_toNat (by omega)

theorem JoinedFrom.right_toNat : a[n.val].right.toNat = r.val := by
  rw [hj.right]
  exact ixOf_toNat (by omega)

/-- An entry that is still pending later was passed over: it is no lighter than the two joined. -/
theorem JoinedFrom.right_le_of_pending_later {j : Fin 511} {m : Nat} (hk : k ≤ n.val) (hm : n.val < m)
    (hp : PendingAt a k m j) (hlt : j.val < n.val) : a[r.val].weight.toNat ≤ a[j.val].weight.toNat := by
  obtain ⟨-, hnone⟩ := hp
  have hchild := hnone n hk hm
  refine hj.right_le j ⟨hlt, fun m' hkm hm' => hnone m' hkm (by omega)⟩ ?_ ?_
  · rintro rfl
    exact hchild.1 hj.left_toNat
  · rintro rfl
    exact hchild.2 hj.right_toNat

/-- The child on a bit and the other child. -/
theorem JoinedFrom.child (x : Bool) :
    ∃ c d, childOf a[n.val] x = ixOf c.val ∧ c ≠ d ∧ PendingAt a k n.val c ∧ PendingAt a k n.val d ∧
      a[n.val].weight.toNat = a[c.val].weight.toNat + a[d.val].weight.toNat ∧
      a[c.val].weight.toNat ≤ a[r.val].weight.toNat := by
  cases x with
  | false =>
    exact ⟨l, r, hj.left, hj.ne, hj.left_pending, hj.right_pending, hj.weight, hj.left_le⟩
  | true =>
    exact ⟨r, l, hj.right, hj.ne.symm, hj.right_pending, hj.left_pending,
      hj.weight.trans (Nat.add_comm _ _), le_rfl⟩

end Joined

/-- The first node of a longer path is internal, and the rest is a path from a child. -/
theorem codePath_cons {a : Arena} {i : Fin 511} {x : Bool} {bits : List Bool} {b : Byte}
    (hpath : CodePath a (ixOf i.val) (x :: bits) b) :
    a[i.val].leaf = false ∧ CodePath a (childOf a[i.val] x) bits b := by
  have hn := nodeAt_ixOf a i
  cases hl : a[i.val].leaf with
  | true =>
    obtain ⟨⟨⟩, -⟩ := (codePath_of_leaf hn hl _ b).mp hpath
  | false =>
    obtain ⟨_, _, ⟨⟩, hrest⟩ := (codePath_of_internal hn hl _ b).mp hpath
    exact ⟨rfl, hrest⟩

section Tree
variable {a : Arena} {k : Nat} (h : IsHuffman a k)
include h

/-! ## Internal nodes in creation order (R149 c) -/

/-- The next node joins two that were passed over, or the node just made and another. -/
theorem IsHuffman.weight_le_succ {n m : Fin 511} (hk : k ≤ n.val) (hnm : m.val = n.val + 1)
    (hm : m.val < 2 * k - 1) : a[n.val].weight.toNat ≤ a[m.val].weight.toNat := by
  obtain ⟨l, r, hn⟩ := h.joinedFrom hk (by omega)
  obtain ⟨l', r', hj⟩ := h.joinedFrom (n := m) (by omega) hm
  have hpassed (c : Fin 511) (hc : PendingAt a k m.val c) :
      c = n ∨ a[r.val].weight.toNat ≤ a[c.val].weight.toNat := by
    obtain heq | hlt : c.val = n.val ∨ c.val < n.val := by
      have := hc.1
      omega
    · exact .inl (Fin.ext heq)
    · exact .inr (hn.right_le_of_pending_later hk (by omega) hc hlt)
  have hweight := hn.weight
  have hle := hn.left_le
  rw [hj.weight]
  obtain rfl | hl := hpassed l' hj.left_pending
  · exact Nat.le_add_right _ _
  · obtain rfl | hr := hpassed r' hj.right_pending
    · exact Nat.le_add_left _ _
    · omega

theorem IsHuffman.weight_mono {n : Fin 511} (hk : k ≤ n.val) (d : Nat) {m : Fin 511}
    (hnm : m.val = n.val + d) (hm : m.val < 2 * k - 1) :
    a[n.val].weight.toNat ≤ a[m.val].weight.toNat := by
  induction d generalizing m with
  | zero =>
    obtain rfl : m = n := Fin.ext hnm
    rfl
  | succ d ih =>
    have hlt : n.val + d < 511 := by omega
    exact (ih (m := ⟨n.val + d, hlt⟩) rfl (by dsimp; omega)).trans
      (h.weight_le_succ (n := ⟨n.val + d, hlt⟩) (by dsimp; omega) hnm hm)

/-! ## A deep leaf (R150) -/

/-- A child of a node is no heavier than the node's sibling: the sibling was passed over when the child
was joined, or was made later than the node. -/
theorem IsHuffman.right_le_sibling {n c d g g' : Fin 511} (hn : n.val < 2 * k - 1) (hcd : c ≠ d)
    (hc : PendingAt a k n.val c) (hd : PendingAt a k n.val d) (hk : k ≤ c.val)
    (hj : JoinedFrom a k c g g') : a[g'.val].weight.toNat ≤ a[d.val].weight.toNat := by
  have hcn := hc.1
  have hdn := hd.1
  obtain hlt | hgt := Nat.lt_or_gt_of_ne (Fin.val_ne_of_ne hcd)
  · have := h.weight_mono hk (d.val - c.val) (m := d) (by omega) (by omega)
    have := hj.weight
    omega
  · exact hj.right_le_of_pending_later hk hcn hd hgt

/-- A node above a leaf at depth `d` weighs at least the Fibonacci number of `d + 2`. -/
theorem IsHuffman.fib_le_weight (bits : List Bool) {i : Fin 511} {b : Byte} (hi : i.val < 2 * k - 1)
    (hpath : CodePath a (ixOf i.val) bits b) :
    Nat.fib (bits.length + 2) ≤ a[i.val].weight.toNat := by
  induction bits using List.twoStepInduction generalizing i with
  | nil => exact h.weight_pos i hi
  | singleton x =>
    obtain ⟨hl, -⟩ := codePath_cons hpath
    obtain ⟨l, r, hj⟩ := h.joinedFrom (h.le_of_internal hl) hi
    have hln := hj.left_pending.1
    have hrn := hj.right_pending.1
    calc Nat.fib 3
      _ = 1 + 1 := rfl
      _ ≤ a[l.val].weight.toNat + a[r.val].weight.toNat :=
        Nat.add_le_add (h.weight_pos l (by omega)) (h.weight_pos r (by omega))
      _ = a[i.val].weight.toNat := hj.weight.symm
  | cons_cons x y rest ihRest ihChild =>
    obtain ⟨hl, hchild⟩ := codePath_cons hpath
    obtain ⟨l, r, hj⟩ := h.joinedFrom (h.le_of_internal hl) hi
    obtain ⟨c, d, hcx, hcd, hc, hd, hweight, -⟩ := hj.child x
    rw [hcx] at hchild
    obtain ⟨hlc, hgrand⟩ := codePath_cons hchild
    have hkc := h.le_of_internal hlc
    have hci : c.val < 2 * k - 1 := hc.1.trans hi
    obtain ⟨g, g', hjc⟩ := h.joinedFrom hkc hci
    obtain ⟨e, -, hey, -, he, -, -, hle⟩ := hjc.child y
    rw [hey] at hgrand
    calc Nat.fib (rest.length + 2 + 2)
      _ = Nat.fib (rest.length + 2) + Nat.fib (rest.length + 1 + 2) := Nat.fib_add_two
      _ ≤ a[d.val].weight.toNat + a[c.val].weight.toNat :=
        Nat.add_le_add
          ((ihRest (he.1.trans hci) hgrand).trans
            (hle.trans (h.right_le_sibling hi hcd hc hd hkc hjc)))
          (ihChild y hci hchild)
      _ = a[i.val].weight.toNat := by rw [hweight, Nat.add_comm]

theorem IsHuffman.length_le {bits : List Bool} {i : Fin 511} {b : Byte} (hi : i.val < 2 * k - 1)
    (hpath : CodePath a (ixOf i.val) bits b) : bits.length ≤ 57 := by
  by_contra hlong
  have hmono : Nat.fib 60 ≤ Nat.fib (bits.length + 2) := Nat.fib_mono (by omega)
  have hfib : 2 ^ 40 ≤ Nat.fib 60 := by norm_num
  have := h.fib_le_weight bits hi hpath
  have := h.fits i
  omega

end Tree

/-! ## `TBUILD` -/

/-- Settles O27: with two or more symbols by the order of creation; the one-symbol tree has one internal
node. -/
theorem internalWeightsNeverDecrease : Obligations.InternalWeightsNeverDecrease := by
  intro s t herr hexec m n hkm hmn hn hl
  obtain rfl := eq_installTree_of_exec herr hexec
  simp only [installTree_nsym, installTree_nnode, installTree_node, buildTree_nsym_toNat] at *
  have hmn : m.val ≤ n.val := hmn
  obtain hzero | hone | htwo : (leavesOf s.w).length = 0 ∨ (leavesOf s.w).length = 1 ∨
      2 ≤ (leavesOf s.w).length := by omega
  · rw [buildTree_nnode_toNat, hzero] at hn
    exact absurd hn (Nat.not_lt_zero _)
  · rw [buildTree_nnode_toNat, hone] at hn
    obtain ⟨x, -, hleaves⟩ := leavesOf_of_length_eq_one hone
    simp only [buildTree, hleaves, treeOfLeaves_singleton, treeOf] at *
    have hm := internal_index_of_sole (hmn.trans_lt hn) hl
    rw [Fin.ext (show m.val = n.val by simp [innerCount] at hn; omega)]
  · rw [nnode_of_two_le htwo] at hn
    exact (buildTree_isHuffman htwo).weight_mono hkm (n.val - m.val) (by omega) hn

end Sys2Proof.Machine
end

section
/-!
PROOFS. What `TBUILD` builds meets the tree invariants (spec 10_state.md R40), and so does the reset state.
-/

namespace Sys2Proof.Machine

/-! ## Children come before their parent, and a leaf has none (R40 item 4) -/

/-- What R40 item 4 asks of the node at index `i`. -/
def ChildrenBefore (i : Nat) (n : Node) : Prop :=
  (n.leaf = false → n.left.toNat < i ∧ n.right.toNat < i) ∧
  (n.leaf = true → n.left = Config.nil ∧ n.right = Config.nil)

theorem childrenComeFirst_iff (s : State) :
    ChildrenComeFirst s ↔ ∀ i : Fin 511, i.val < s.nnode.toNat → ChildrenBefore i.val s.node[i.val] :=
  Iff.rfl

theorem childrenBefore_leafNode (i : Nat) (b : Byte) (v : Half) : ChildrenBefore i (leafNode b v) :=
  ⟨nofun, fun _ => ⟨rfl, rfl⟩⟩

theorem childrenBefore_soleNodes (b : Byte) (v : Half) (i : Nat) (hi : i < 3) :
    ChildrenBefore i (arenaOf (soleNodes (leafNode b v)))[i] := by
  match i, hi with
  | 0, _ => exact childrenBefore_leafNode 0 b v
  | 1, _ => exact ⟨nofun, fun _ => ⟨rfl, rfl⟩⟩
  | 2, _ => exact ⟨fun _ => ⟨Nat.zero_lt_two, Nat.one_lt_two⟩, nofun⟩

theorem IsHuffman.childrenBefore {a : Arena} {k : Nat} (h : IsHuffman a k) (i : Fin 511)
    (hi : i.val < 2 * k - 1) : ChildrenBefore i.val a[i.val] := by
  obtain hleaf | hk := Nat.lt_or_ge i.val k
  · obtain ⟨b, v, -, hn⟩ := h.leaf i hleaf
    exact hn ▸ childrenBefore_leafNode i.val b v
  · have hj := h.joins i hk hi
    exact ⟨fun _ => hj.children_lt, fun hl => by simp [hj.internal] at hl⟩

theorem childrenComeFirst_installTree (w : SymFile Half) (s : State) :
    ChildrenComeFirst (installTree (buildTree w) s) := by
  refine (childrenComeFirst_iff _).mpr fun i hi => ?_
  rw [installTree_nnode] at hi
  simp only [installTree_node]
  obtain hzero | hone | htwo : (leavesOf w).length = 0 ∨ (leavesOf w).length = 1 ∨
      2 ≤ (leavesOf w).length := by omega
  · rw [buildTree_nnode_toNat, hzero] at hi
    exact absurd hi (Nat.not_lt_zero _)
  · rw [buildTree_nnode_toNat, hone] at hi
    obtain ⟨x, -, hleaves⟩ := leavesOf_of_length_eq_one hone
    simp only [buildTree, hleaves, treeOfLeaves_singleton, treeOf]
    exact childrenBefore_soleNodes x _ i.val hi
  · rw [nnode_of_two_le htwo] at hi
    exact (buildTree_isHuffman htwo).childrenBefore i hi

theorem rootIsInternal_installTree (w : SymFile Half) (s : State) :
    RootIsInternal (installTree (buildTree w) s) := by
  intro hsome
  rw [installTree_nsym, buildTree_nsym_toNat] at hsome
  simp only [installTree_root, installTree_nnode, installTree_node]
  obtain hone | htwo : (leavesOf w).length = 1 ∨ 2 ≤ (leavesOf w).length := by omega
  · obtain ⟨x, -, hleaves⟩ := leavesOf_of_length_eq_one hone
    rw [buildTree, hleaves, treeOfLeaves_singleton]
    exact ⟨⟨2, by omega⟩, rfl, (by decide : 2 < 3), rfl⟩
  · obtain ⟨-, -, -, hcounts⟩ := countsAgree_installTree w s
    simp only [installTree_nsym, installTree_nnode, installTree_root, buildTree_nsym_toNat] at hcounts
    obtain ⟨hnnode, hroot⟩ := hcounts htwo
    have hmax := leavesOf_length_le w
    exact ⟨⟨2 * (leavesOf w).length - 2, by omega⟩, by dsimp; omega, by dsimp; omega,
      buildTree_internal htwo (by dsimp; omega) (by omega)⟩

/-- `TBUILD` gives a tree of the shape and the weights the invariants ask for, with the cursor on its
root. -/
theorem treeInv_installTree (s : State) : TreeInv (installTree (buildTree s.w) s) where
  counts := countsAgree_installTree s.w s
  children := childrenComeFirst_installTree s.w s
  root := rootIsInternal_installTree s.w s
  unused := unusedAreFresh_installTree s.w s
  weights i := buildTree_weight_lt i.isLt
  ofWeights _ := rfl
  cursor _ := .inl rfl

/-! ## The reset state -/

theorem treeInv_reset (xs : List Input) : TreeInv { State.reset with port := xs } where
  counts := by
    change CountsAgree State.reset
    decide
  children i hi := absurd hi (Nat.not_lt_zero _)
  root h := absurd rfl h
  unused i _ := reset_node_getElem i.val i.isLt
  weights i := by simp [Node.fresh]
  ofWeights h := nomatch h
  cursor h := nomatch h

theorem codeInv_reset (xs : List Input) : CodeInv { State.reset with port := xs } where
  flags h := nomatch h
  ofTree h := nomatch h
  fit b := by simp

theorem portsInv_reset (xs : List Input) : PortsInv { State.reset with port := xs } :=
  ⟨(by decide : PackerFits State.reset), fun _ => rfl, (by decide : ErrIsAssigned State.reset), rfl⟩

/-- Settles O54. -/
theorem resetMeetsTheInvariants : Obligations.ResetMeetsTheInvariants :=
  ⟨portsInv_reset [], treeInv_reset [], codeInv_reset []⟩

end Sys2Proof.Machine
end

section
/-!
PROOFS. Paths in the tree of a state that meets the tree invariants (spec 10_state.md R23, R40,
41_tree.md R150, 42_codetable.md R164).
-/

namespace Sys2Proof.Machine

/-! ## Paths in an arena whose children come first -/

/-- The last edge of a path. -/
theorem Path.snoc_inv {a : Arena} {i j : NodeIx} {p : List Bool} {x : Bool} (h : Path a i (p ++ [x]) j) :
    ∃ m n, Path a i p m ∧ nodeAt a m = .ok n ∧ n.leaf = false ∧ childOf n x = j := by
  induction p generalizing i with
  | nil =>
    cases h with
    | edge at_ internal rest =>
      cases rest
      exact ⟨i, _, .here i, at_, internal, rfl⟩
  | cons y p ih =>
    cases h with
    | edge at_ internal rest =>
      obtain ⟨m, n, hp, hn⟩ := ih rest
      exact ⟨m, n, .edge at_ internal hp, hn⟩

/-- Every edge of a path leads to an earlier entry. -/
theorem path_toNat_add_length_le {s : State} (hchildren : ChildrenComeFirst s) {i j : NodeIx}
    {p : List Bool} (hi : i.toNat < s.nnode.toNat) (h : Path s.node i p j) :
    j.toNat + p.length ≤ i.toNat := by
  induction h with
  | here i => exact le_rfl
  | @edge _ _ _ x _ at_ internal _ ih =>
    have hlt := child_lt_of_childrenComeFirst hchildren hi at_ internal x
    have := ih (hlt.trans hi)
    rw [List.length_cons]
    omega

/-! ## Every node of a merge is on one path from the root -/

theorem PendingAt.not_child {a : Arena} {k n : Nat} {c m : Fin 511} (hp : PendingAt a k n c)
    (hk : k ≤ m.val) (hm : m.val < n) (x : Bool) : childOf a[m.val] x ≠ ixOf c.val := by
  obtain ⟨hleft, hright⟩ := hp.2 m hk hm
  have hc : (ixOf c.val).toNat = c.val := ixOf_toNat (by omega)
  intro heq
  cases x with
  | false => exact hleft (hc ▸ congrArg BitVec.toNat heq)
  | true => exact hright (hc ▸ congrArg BitVec.toNat heq)

section Merge
variable {a : Arena} {k : Nat} (h : IsHuffman a k)
include h

/-- A node is the child of one node only, and on one bit. -/
theorem IsHuffman.parent_unique {m m' : Fin 511} {x x' : Bool} (hm : m.val < 2 * k - 1)
    (hm' : m'.val < 2 * k - 1) (hl : a[m.val].leaf = false) (hl' : a[m'.val].leaf = false)
    (heq : childOf a[m.val] x = childOf a[m'.val] x') : m = m' ∧ x = x' := by
  have hk := h.le_of_internal hl
  have hk' := h.le_of_internal hl'
  obtain ⟨l, r, hj⟩ := h.joinedFrom hk hm
  obtain ⟨l', r', hj'⟩ := h.joinedFrom hk' hm'
  obtain ⟨c, -, hc, -, hp, -⟩ := hj.child x
  obtain ⟨c', -, hc', -, hp', -⟩ := hj'.child x'
  obtain hlt | hmm | hgt := Nat.lt_trichotomy m.val m'.val
  · exact absurd (heq.trans hc') (hp'.not_child hk hlt x)
  · obtain rfl : m = m' := Fin.ext hmm
    refine ⟨rfl, ?_⟩
    have hne : childOf a[m.val] false ≠ childOf a[m.val] true := fun hlr =>
      hj.ne (ixOf_inj.mp (hj.left.symm.trans (hlr.trans hj.right)))
    match x, x', heq with
    | false, false, _ | true, true, _ => rfl
    | false, true, heq => exact absurd heq hne
    | true, false, heq => exact absurd heq.symm hne
  · exact absurd (heq.symm.trans hc) (hp.not_child hk' hgt x')

/-- Every node is below the root: it is the last one, or the child of a later one. -/
theorem IsHuffman.exists_path {root : Fin 511} (hroot : root.val = 2 * k - 2) (d : Nat) (j : Fin 511)
    (hd : j.val + d = 2 * k - 2) : ∃ p, Path a (ixOf root.val) p (ixOf j.val) := by
  have hk := h.two_le
  induction d using Nat.strong_induction_on generalizing j with
  | h d ih =>
    by_cases hlast : j.val = 2 * k - 2
    · obtain rfl : j = root := Fin.ext (hlast.trans hroot.symm)
      exact ⟨[], .here _⟩
    · have hchild : ¬ PendingAt a k (2 * k - 1) j := fun hp => hlast ((h.pending_iff j).mp hp)
      obtain ⟨m, hkm, hm, x, hx⟩ : ∃ m : Fin 511, k ≤ m.val ∧ m.val < 2 * k - 1 ∧
          ∃ x, (childOf a[m.val] x).toNat = j.val := by
        by_contra hnone
        refine hchild ⟨by omega, fun m hkm hm => ⟨fun hx => hnone ⟨m, hkm, hm, false, hx⟩,
          fun hx => hnone ⟨m, hkm, hm, true, hx⟩⟩⟩
      have hjoins := h.joins m hkm hm
      have hjm : j.val < m.val := by
        obtain ⟨hl, hr⟩ := hjoins.children_lt
        cases x
        · exact hx ▸ hl
        · exact hx ▸ hr
      obtain ⟨p, hp⟩ := ih (2 * k - 2 - m.val) (by omega) m (by omega)
      have hix : childOf a[m.val] x = ixOf j.val :=
        BitVec.eq_of_toNat_eq (hx.trans (ixOf_toNat (by omega)).symm)
      exact ⟨p ++ [x], hix ▸ hp.snoc (nodeAt_ixOf a m) hjoins.internal⟩

end Merge

/-! ## The tree of a state -/

section State
variable {s : State} (hinv : TreeInv s) (htv : s.tv = true)
include hinv htv

theorem leavesOf_length_of_treeInv : (leavesOf s.w).length = s.nsym.toNat := by
  rw [← buildTree_nsym_toNat, ← hinv.ofWeights htv]

theorem node_of_treeInv : s.node = (buildTree s.w).node :=
  congrArg Tree.node (hinv.ofWeights htv)

theorem isHuffman_of_treeInv (htwo : 2 ≤ s.nsym.toNat) : IsHuffman s.node s.nsym.toNat := by
  rw [node_of_treeInv hinv htv, ← leavesOf_length_of_treeInv hinv htv]
  exact buildTree_isHuffman (by rwa [leavesOf_length_of_treeInv hinv htv])

end State

theorem nnode_le_of_treeInv {s : State} (hinv : TreeInv s) : s.nnode.toNat ≤ 511 :=
  nnode_le_of_countsAgree hinv.counts

theorem root_of_treeInv {s : State} (hinv : TreeInv s) (htwo : 2 ≤ s.nsym.toNat) :
    ∃ root : Fin 511, s.root = ixOf root.val ∧ root.val = 2 * s.nsym.toNat - 2 ∧
      s.nnode.toNat = 2 * s.nsym.toNat - 1 := by
  obtain ⟨hmax, -, -, hmore⟩ := hinv.counts
  obtain ⟨hnnode, hroot⟩ := hmore htwo
  exact ⟨⟨s.root.toNat, by omega⟩, BitVec.eq_of_toNat_eq (ixOf_toNat (by omega)).symm,
    by dsimp; omega, hnnode⟩

/-- In a tree of two or more symbols two paths from the root to one node are the same. -/
theorem path_unique {s : State} (hinv : TreeInv s) (htv : s.tv = true) (htwo : 2 ≤ s.nsym.toNat)
    {p q : List Bool} {j : NodeIx} (hp : Path s.node s.root p j) (hq : Path s.node s.root q j) :
    p = q := by
  have hmerge := isHuffman_of_treeInv hinv htv htwo
  obtain ⟨root, hroot, hval, hnnode⟩ := root_of_treeInv hinv htwo
  have hused : s.root.toNat < s.nnode.toNat := by
    rw [hroot, ixOf_toNat (by omega)]
    omega
  have hlen {p : List Bool} {j : NodeIx} (hp : Path s.node s.root p j) :
      j.toNat + p.length ≤ s.root.toNat := path_toNat_add_length_le hinv.children hused hp
  have hnil {p : List Bool} (hp : Path s.node s.root p s.root) : p = [] := by
    have := hlen hp
    exact List.length_eq_zero_iff.mp (by omega)
  induction p using List.reverseRecOn generalizing q j with
  | nil =>
    cases hp
    exact (hnil hq).symm
  | append_singleton p x ih =>
    induction q using List.reverseRecOn with
    | nil =>
      cases hq
      exact hnil hp
    | append_singleton q y =>
      obtain ⟨m, n, hpm, hn, hl, hx⟩ := hp.snoc_inv
      obtain ⟨m', n', hqm, hn', hl', hy⟩ := hq.snoc_inv
      obtain ⟨hlt, rfl⟩ := (nodeAt_ok_iff _ _ _).mp hn
      obtain ⟨hlt', rfl⟩ := (nodeAt_ok_iff _ _ _).mp hn'
      have := hlen hpm
      have := hlen hqm
      obtain ⟨hmm, rfl⟩ := hmerge.parent_unique (m := ⟨m.toNat, hlt⟩) (m' := ⟨m'.toNat, hlt'⟩)
        (by dsimp; omega) (by dsimp; omega) hl hl' (hx.trans hy.symm)
      obtain rfl : m = m' := BitVec.eq_of_toNat_eq (Fin.mk.inj hmm)
      rw [ih hpm hqm]

end Sys2Proof.Machine
end

section
/-!
PROOFS. The codes of a tree that meets the invariants, and the table `CGEN` makes of them (spec
41_tree.md R150, 42_codetable.md R160 to R164).
-/

namespace Sys2Proof.Machine

/-! ## Code paths (R23, R101) -/

/-- A real leaf of what `TBUILD` builds is that of a present symbol, at the symbol's rank. -/
theorem realLeaf_buildTree {w : SymFile Half} {i : NodeIx} {b : Byte}
    (h : RealLeaf (buildTree w).node i b) : readSym w b ≠ 0#32 ∧ i.toNat = rankOf w b := by
  obtain ⟨n, hn, hl, hph, rfl⟩ := h
  obtain ⟨hlt, rfl⟩ := (nodeAt_ok_iff _ _ _).mp hn
  obtain ⟨b, hb, hi, hd⟩ := (leavesOf_getElem?_iff _ _ _).mp (leavesOf_getElem?_of_realLeaf hlt hl hph)
  rw [← hd]
  exact ⟨hb, hi⟩

theorem realLeaf_rankOf {w : SymFile Half} {b : Byte} (hb : readSym w b ≠ 0#32) :
    RealLeaf (buildTree w).node (ixOf (rankOf w b)) b :=
  ⟨_, nodeAt_rankOf hb, rfl, rfl, rfl⟩

/-- No two present symbols have one rank. -/
theorem rankOf_inj {w : SymFile Half} {b c : Byte} (hb : readSym w b ≠ 0#32) (hc : readSym w c ≠ 0#32)
    (h : rankOf w b = rankOf w c) : b = c := by
  have hleaf := (leavesOf_getElem?_iff w _ _).mpr ⟨b, hb, rfl, rfl⟩
  rw [(leavesOf_getElem?_iff w _ _).mpr ⟨c, hc, h, rfl⟩] at hleaf
  exact (congrArg Node.sym (Option.some.inj hleaf)).symm

theorem RealLeaf.unique {a : Arena} {i : NodeIx} {b c : Byte} (hb : RealLeaf a i b) (hc : RealLeaf a i c) :
    b = c := by
  obtain ⟨n, hn, -, -, rfl⟩ := hb
  obtain ⟨m, hm, -, -, rfl⟩ := hc
  cases hn.symm.trans hm
  rfl

theorem not_codePath_of_nsym_zero {s : State} (hinv : TreeInv s) (hzero : s.nsym.toNat = 0) (bits : List Bool)
    (b : Byte) :    ¬ CodePath s.node s.root bits b := by
  obtain ⟨-, hempty, -⟩ := hinv.counts
  rw [(hempty hzero).2]
  exact not_codePath_nil _ _ _

/-- No code is empty: the root is no leaf. -/
theorem not_codePath_empty {s : State} (hinv : TreeInv s) (b : Byte) : ¬ CodePath s.node s.root [] b := by
  rintro ⟨i, hp, n, hn, hl, -⟩
  cases hp
  have hsome : s.nsym.toNat ≠ 0 := fun hzero => by
    obtain ⟨-, hempty, -⟩ := hinv.counts
    rw [(hempty hzero).2, nodeAt_nil] at hn
    cases hn
  obtain ⟨i, hroot, -, hinternal⟩ := hinv.root hsome
  have hi := nodeAt_of_lt s.node (i := s.root) (by omega)
  simp only [hroot] at hi
  cases hn.symm.trans hi
  simp [hinternal] at hl

section Codes
variable {s : State} (hinv : TreeInv s) (htv : s.tv = true)
include hinv htv

theorem codePath_of_nsym_one (hone : s.nsym.toNat = 1) :
    ∃ x, readSym s.w x ≠ 0#32 ∧
      ∀ bits b, CodePath s.node s.root bits b ↔ bits = [false] ∧ b = x := by
  obtain ⟨x, hx, hnode, hroot, -⟩ := tree_of_nsym_one hinv htv hone
  rw [hnode, hroot]
  exact ⟨x, hx, codePath_sole rfl rfl⟩

/-- A symbol has one code path at most. -/
theorem codePath_unique {p q : List Bool} {b : Byte} (hp : CodePath s.node s.root p b)
    (hq : CodePath s.node s.root q b) : p = q := by
  obtain hzero | hone | htwo : s.nsym.toNat = 0 ∨ s.nsym.toNat = 1 ∨ 2 ≤ s.nsym.toNat := by omega
  · exact absurd hp (not_codePath_of_nsym_zero hinv hzero p b)
  · obtain ⟨x, -, honly⟩ := codePath_of_nsym_one hinv htv hone
    rw [((honly p b).mp hp).1, ((honly q b).mp hq).1]
  · obtain ⟨i, hpath, hleaf⟩ := hp
    obtain ⟨j, hpath', hleaf'⟩ := hq
    rw [node_of_treeInv hinv htv] at hleaf hleaf'
    obtain rfl : i = j := BitVec.eq_of_toNat_eq
      ((realLeaf_buildTree hleaf).2.trans (realLeaf_buildTree hleaf').2.symm)
    exact path_unique hinv htv htwo hpath hpath'

/-- The symbols with a code are the present ones. -/
theorem exists_codePath_iff (b : Byte) :
    (∃ bits, CodePath s.node s.root bits b) ↔ readSym s.w b ≠ 0#32 := by
  constructor
  · rintro ⟨bits, i, -, hleaf⟩
    rw [node_of_treeInv hinv htv] at hleaf
    exact (realLeaf_buildTree hleaf).1
  · intro hb
    have hrank := rankOf_lt_length hb
    rw [leavesOf_length_of_treeInv hinv htv] at hrank
    obtain hone | htwo : s.nsym.toNat = 1 ∨ 2 ≤ s.nsym.toNat := by omega
    · obtain ⟨x, hx, honly⟩ := codePath_of_nsym_one hinv htv hone
      have hxrank := rankOf_lt_length hx
      rw [leavesOf_length_of_treeInv hinv htv] at hxrank
      exact ⟨[false], (honly _ _).mpr ⟨rfl, rankOf_inj hb hx (by omega)⟩⟩
    · obtain ⟨root, hroot, hval, -⟩ := root_of_treeInv hinv htwo
      have hlt : rankOf s.w b < 511 := by omega
      obtain ⟨p, hp⟩ := (isHuffman_of_treeInv hinv htv htwo).exists_path hval
        (2 * s.nsym.toNat - 2 - rankOf s.w b) ⟨rankOf s.w b, hlt⟩ (by dsimp; omega)
      refine ⟨p, ixOf (rankOf s.w b), hroot ▸ hp, ?_⟩
      rw [node_of_treeInv hinv htv]
      exact realLeaf_rankOf hb

end Codes

/-- Settles O31: with two or more symbols by the weights, else the one code is a single bit. -/
theorem noCodePathIsLongerThan57 : Obligations.NoCodePathIsLongerThan57 := by
  intro s hinv htv bits b hpath
  obtain hzero | hone | htwo : s.nsym.toNat = 0 ∨ s.nsym.toNat = 1 ∨ 2 ≤ s.nsym.toNat := by omega
  · exact absurd hpath (not_codePath_of_nsym_zero hinv hzero bits b)
  · obtain ⟨x, -, honly⟩ := codePath_of_nsym_one hinv htv hone
    rw [((honly bits b).mp hpath).1]
    decide
  · obtain ⟨root, hroot, hval, -⟩ := root_of_treeInv hinv htwo
    exact (isHuffman_of_treeInv hinv htv htwo).length_le (i := root) (by omega) (hroot ▸ hpath)

/-- From a node of a merge enough bits lead to a leaf, since each leads to an earlier node. -/
theorem IsHuffman.exists_code {a : Arena} {k : Nat} (h : IsHuffman a k) (bits : List Bool) {i : Fin 511}
    (hi : i.val < 2 * k - 1) (hlen : i.val ≤ bits.length) :
    ∃ n b, n ≤ bits.length ∧ CodePath a (ixOf i.val) (bits.take n) b := by
  have hn := nodeAt_ixOf a i
  obtain hleaf | hk := Nat.lt_or_ge i.val k
  · obtain ⟨b, v, -, hnode⟩ := h.leaf i hleaf
    rw [hnode] at hn
    exact ⟨0, b, Nat.zero_le _, (codePath_of_leaf hn rfl _ b).mpr ⟨rfl, rfl, rfl⟩⟩
  · obtain ⟨l, r, hj⟩ := h.joinedFrom hk hi
    have htwo := h.two_le
    match bits with
    | [] => exact absurd hlen (by dsimp; omega)
    | x :: bits =>
      obtain ⟨c, -, hc, -, hpend, -⟩ := hj.child x
      have hlt := hpend.1
      obtain ⟨n, b, hn', hpath⟩ := h.exists_code bits (i := c) (by omega)
        (by rw [List.length_cons] at hlen; omega)
      refine ⟨n + 1, b, by rw [List.length_cons]; omega, ?_⟩
      exact (codePath_of_internal hn hj.internal _ b).mpr ⟨x, bits.take n, rfl, hc ▸ hpath⟩

/-- Settles O33: the root is one of at most 511 nodes. -/
theorem everyLongBitStringBeginsWithACode : Obligations.EveryLongBitStringBeginsWithACode := by
  intro s hinv htv htwo bits hlen
  obtain ⟨root, hroot, hval, -⟩ := root_of_treeInv hinv htwo
  rw [hroot]
  exact (isHuffman_of_treeInv hinv htv htwo).exists_code bits (by omega) (by omega)

/-! ## The table of a tree (R160 to R162) -/

/-- `CGEN` leaves a symbol without a code path out of the table. -/
theorem codesOf_ok_other {a : Arena} {root : NodeIx} {u : CodeTable} {b : Byte}
    (hu : codesOf a root = .ok u) (hnone : ∀ bits, ¬ CodePath a root bits b) :
    readSym u.len b = 0#7 ∧ readSym u.bits b = 0#64 := by
  unfold codesOf at hu
  split at hu
  · cases hu
    exact ⟨readSym_fillSym 0#7 b, readSym_fillSym 0#64 b⟩
  · obtain ⟨hbits, hlen⟩ := visit_other hu hnone
    exact ⟨hlen.trans (readSym_fillSym 0#7 b), hbits.trans (readSym_fillSym 0#64 b)⟩

/-- Settles O29: a table comes about unless a path is too long, and every path is its symbol's only one. -/
theorem cgenRecordsTheRootToLeafPaths : Obligations.CgenRecordsTheRootToLeafPaths := by
  refine ⟨encode_cgen, fun s hinv herr htv hshort => ?_⟩
  cases hcodes : codesOf s.node s.root with
  | error e =>
    obtain ⟨-, bits, b, hpath, hdeep⟩ := codesOf_error hinv.counts hinv.children hinv.root hcodes
    exact absurd (hshort bits b hpath) (by omega)
  | ok u =>
    exact ⟨_, exec_cgen_of_ok herr htv hcodes, rfl,
      fun bits b hpath => codesOf_ok_records_only_path hcodes hpath
        fun other hother => codePath_unique hinv htv hother hpath,
      fun b hnone => codesOf_ok_other hcodes hnone⟩

/-! ## The code of a byte is its path -/

theorem getLsbD_shiftLeft_or (p : Word) (x : Bool) {i : Nat} (hi : i < 64) :
    ((p <<< 1) ||| bitWord x).getLsbD i = if i = 0 then x else p.getLsbD (i - 1) := by
  cases i with
  | zero => cases x <;> simp [bitWord]
  | succ i =>
    have hlow : (bitWord x).getLsbD (i + 1) = false := by cases x <;> simp [bitWord]
    rw [BitVec.getLsbD_or, hlow, BitVec.getLsbD_shiftLeft]
    simp [hi]

theorem bitsDown_shiftLeft_or (p : Word) (x : Bool) {n : Nat} (hn : n < 64) :
    bitsDown ((p <<< 1) ||| bitWord x) (n + 1) = bitsDown p n ++ [x] := by
  induction n with
  | zero => exact congrArg (· :: []) (getLsbD_shiftLeft_or p x hn)
  | succ n ih =>
    rw [bitsDown, ih (by omega), getLsbD_shiftLeft_or p x hn]
    simp [bitsDown]

/-- A pattern of up to 64 bits holds its bits. -/
theorem bitsDown_patternOf (bits : List Bool) (h : bits.length ≤ 64) :
    bitsDown (patternOf bits) bits.length = bits := by
  induction bits using List.reverseRecOn with
  | nil => rfl
  | append_singleton bits x ih =>
    rw [List.length_append] at h ⊢
    rw [patternOf_append]
    exact (bitsDown_shiftLeft_or _ x h).trans (by rw [ih (by omega)])

section Table
variable {s : State} (hinv : Inv s) (hcv : s.cv = true)
include hinv hcv

theorem codesOf_of_inv : codesOf s.node s.root = .ok { bits := s.codeBits, len := s.codeLen } :=
  hinv.codes.ofTree hcv

theorem tv_of_inv : s.tv = true := hinv.codes.flags hcv

theorem codeLen_of_codePath {bits : List Bool} {b : Byte} (hpath : CodePath s.node s.root bits b) :
    (readSym s.codeLen b).toNat = bits.length ∧ readSym s.codeBits b = patternOf bits :=
  codesOf_ok_records_only_path (codesOf_of_inv hinv hcv) hpath fun _ hother =>
    codePath_unique hinv.tree (tv_of_inv hinv hcv) hother hpath

theorem codeOf_of_codePath {bits : List Bool} {b : Byte} (hpath : CodePath s.node s.root bits b) :
    codeOf s b = bits := by
  obtain ⟨hlen, hbits⟩ := codeLen_of_codePath hinv hcv hpath
  rw [codeOf, hlen, hbits]
  exact bitsDown_patternOf bits (codesOf_ok_length_le (codesOf_of_inv hinv hcv) hpath)

/-- A code length other than 0 stands for a code path, which `codeOf` then is. -/
theorem codePath_codeOf {b : Byte} (hlen : readSym s.codeLen b ≠ 0#7) :
    CodePath s.node s.root (codeOf s b) b := by
  by_cases hsome : ∃ bits, CodePath s.node s.root bits b
  · obtain ⟨bits, hpath⟩ := hsome
    exact (codeOf_of_codePath hinv hcv hpath).symm ▸ hpath
  · exact absurd (codesOf_ok_other (codesOf_of_inv hinv hcv) (not_exists.mp hsome)).1 hlen

theorem codeLen_ne_zero_iff (b : Byte) : readSym s.codeLen b ≠ 0#7 ↔ readSym s.w b ≠ 0#32 := by
  rw [← exists_codePath_iff hinv.tree (tv_of_inv hinv hcv)]
  refine ⟨fun hlen => ⟨_, codePath_codeOf hinv hcv hlen⟩, fun ⟨bits, hpath⟩ hzero => ?_⟩
  have hlen := (codeLen_of_codePath hinv hcv hpath).1
  rw [hzero] at hlen
  rw [List.length_eq_zero_iff.mp hlen.symm] at hpath
  exact not_codePath_empty hinv.tree b hpath

end Table

/-- Settles O32: codes are root-to-leaf paths, of which none goes on from another. -/
theorem noCodeBeginsAnother : Obligations.NoCodeBeginsAnother := by
  intro s hinv hcv
  refine ⟨codeLen_ne_zero_iff hinv hcv, fun b c hbc hb hc hbegins => hbc ?_,
    fun b => (hinv.codes.fit b).2⟩
  obtain ⟨i, hpath, hleaf⟩ := codePath_codeOf hinv hcv hb
  obtain ⟨j, hpath', hleaf'⟩ := codePath_codeOf hinv hcv hc
  obtain ⟨rest, hrest⟩ := hbegins
  obtain ⟨n, hn, hl, -⟩ := id hleaf
  rw [← hrest] at hpath'
  obtain rfl := hpath.leaf_not_extended hn hl hpath'
  rw [List.append_nil] at hpath'
  obtain rfl := hpath.unique hpath'
  exact hleaf.unique hleaf'

end Sys2Proof.Machine
end

section
/-!
PROOFS. What a command that completes has done, and from it which command writes what, the validity flags,
and the invariants of the packer and of the code table (spec 10_state.md R32, R37, R40).
-/

namespace Sys2Proof.Machine

/-! ## The commands that can fault, when they complete -/

theorem requireTree_ok_iff {s t : State} {body : Except Stop State} :
    requireTree s body = .ok t ↔ s.tv = true ∧ body = .ok t := by
  cases htv : s.tv <;> simp [requireTree, htv]

theorem requireCodes_ok_iff {s t : State} {body : Except Stop State} :
    requireCodes s body = .ok t ↔ s.cv = true ∧ body = .ok t := by
  cases hcv : s.cv <;> simp [requireCodes, hcv]

theorem bodyOf_cgen_ok {s t : State} (h : bodyOf .cgen s = .ok t) :
    s.tv = true ∧ ∃ u, codesOf s.node s.root = .ok u ∧ t = installCodes u s := by
  obtain ⟨htv, h⟩ := requireTree_ok_iff.mp h
  cases hu : codesOf s.node s.root with
  | error e => simp [hu] at h
  | ok u =>
    rw [hu] at h
    cases h
    exact ⟨htv, u, rfl, rfl⟩

theorem bodyOf_penc_ok {b : Byte} {s t : State} (h : bodyOf (.penc b) s = .ok t) :
    s.cv = true ∧ t = appendBits (codeOf s b) s := by
  obtain ⟨hcv, h⟩ := requireCodes_ok_iff.mp h
  unfold encodeByte at h
  split_ifs at h
  cases h
  exact ⟨hcv, rfl⟩

theorem bodyOf_ubyte_ok {b : Byte} {s t : State} (h : bodyOf (.ubyte b) s = .ok t) :
    s.tv = true ∧ ∃ k, walkBits s.node s.root (byteBits b) (.ofState s) = .ok k ∧
      t = emitAll k.emitted { s with cur := k.cur, remain := k.rem } := by
  obtain ⟨htv, h⟩ := requireTree_ok_iff.mp h
  cases hk : walkBits s.node s.root (byteBits b) (.ofState s) with
  | error e =>
    rw [Walk.ofState] at hk
    simp [decodeByte, hk] at h
  | ok k =>
    rw [Walk.ofState] at hk
    rw [decodeByte, hk] at h
    cases h
    exact ⟨htv, k, rfl, rfl⟩

theorem bodyOf_uend_ok {s t : State} (h : bodyOf .uend s = .ok t) : t = s := by
  unfold bodyOf at h
  split_ifs at h
  cases h
  rfl

/-! ## The columns of writes (R37) -/

theorem flushPacker_eq_packerMoved (s : State) :
    ∃ a n emitted, flushPacker s = packerMoved s a n emitted := by
  unfold flushPacker
  split
  case isTrue => exact ⟨s.acc, s.nbits, [], by simp [packerMoved]⟩
  case isFalse => exact ⟨0#8, 0#3, [_], rfl⟩

/-- Settles O45: a fault and an ignored command write none of these elements, and a command that completes
only those of its own effect. -/
theorem commandsWriteOnlyTheirColumns : Obligations.CommandsWriteOnlyTheirColumns := by
  intro c s t h hc
  obtain ⟨rfl, -⟩ | ⟨-, -, rfl⟩ | ⟨-, -, hb⟩ | ⟨-, -, f, -, rfl⟩ := exec_next h
  · exact absurd rfl hc
  · simp
  · cases c with
    | rst => exact absurd rfl hc
    | nop | fclr | facc | wsat | wld | tbuild | ulenl | ulenh =>
      cases hb
      simp
    | cgen =>
      obtain ⟨-, u, -, rfl⟩ := bodyOf_cgen_ok hb
      simp
    | penc b =>
      obtain ⟨-, rfl⟩ := bodyOf_penc_ok hb
      obtain ⟨a, n, emitted, hmoved⟩ := appendBits_eq_packerMoved (codeOf s b) s
      simp [hmoved, packerMoved]
    | pflush =>
      cases hb
      obtain ⟨a, n, emitted, hmoved⟩ := flushPacker_eq_packerMoved s
      simp [hmoved, packerMoved]
    | ubyte b =>
      obtain ⟨-, k, -, rfl⟩ := bodyOf_ubyte_ok hb
      simp
    | uend =>
      obtain rfl := bodyOf_uend_ok hb
      simp
  · simp

/-! ## The validity flags (R32) -/

/-- Settles O46: from an unfaulted to an unfaulted state a command has completed. -/
theorem validityFlagsFollowTheCommands : Obligations.ValidityFlagsFollowTheCommands := by
  intro c s t h herr hclear
  obtain ⟨rfl, rfl⟩ | ⟨-, hfault, -⟩ | ⟨-, -, hb⟩ | ⟨-, -, f, -, rfl⟩ := exec_next h
  · exact ⟨rfl, rfl⟩
  · exact absurd herr hfault
  · cases c with
    | nop | rst | fclr | facc | wsat | wld | tbuild | ulenl | ulenh =>
      cases hb
      exact ⟨rfl, rfl⟩
    | cgen =>
      obtain ⟨-, u, -, rfl⟩ := bodyOf_cgen_ok hb
      exact ⟨rfl, rfl⟩
    | penc b =>
      obtain ⟨-, rfl⟩ := bodyOf_penc_ok hb
      exact ⟨appendBits_tv _ s, appendBits_cv _ s⟩
    | pflush =>
      cases hb
      exact ⟨flushPacker_tv s, flushPacker_cv s⟩
    | ubyte b =>
      obtain ⟨-, k, -, rfl⟩ := bodyOf_ubyte_ok hb
      exact ⟨emitAll_tv _ _, emitAll_cv _ _⟩
    | uend =>
      obtain rfl := bodyOf_uend_ok hb
      exact ⟨rfl, rfl⟩
  · exact absurd hclear (faultCode_ne_zero f)

/-! ## A step keeps what resets, faults and commands keep -/

/-- A property that a step keeps: it holds of a block just reset, it does not look at the port, and faults
and commands that complete keep it. -/
theorem step_keeps {P : State → Prop} (hreset : ∀ xs, P { State.reset with port := xs })
    (hport : ∀ s xs, P s → P { s with port := xs })
    (hraise : ∀ s f v, P s → P (raiseFault f v s))
    (hbody : ∀ c s t, P s → bodyOf c s = .ok t → P t)
    {s t : State} (hs : P s) (h : step s = .next t) : P t := by
  obtain ⟨-, hstep⟩ | ⟨xs, -, hstep⟩ | ⟨w, xs, c, -, -, hstep⟩ | ⟨w, xs, e, -, -, hstep⟩ := step_cases s
  all_goals rw [hstep] at h
  · cases h
    exact hs
  · cases h
    exact hreset xs
  · obtain ⟨-, rfl⟩ | ⟨-, -, rfl⟩ | ⟨-, -, hb⟩ | ⟨-, -, f, -, rfl⟩ := exec_next h
    · exact hreset xs
    · exact hport s xs hs
    · exact hbody c _ t (hport s xs hs) hb
    · exact hraise _ f _ (hport s xs hs)
  · cases h
    unfold illegalWord
    split
    · exact hraise _ _ _ (hport s xs hs)
    · exact hport s xs hs

/-! ## The packer, the output and the fault registers -/

theorem packerFits_flushPacker {s : State} (h : PackerFits s) : PackerFits (flushPacker s) := by
  unfold flushPacker
  split
  · exact h
  · exact Nat.one_pos

theorem outIsCounted_emitAll (bs : List Byte) {s : State} (h : OutIsCounted s) :
    OutIsCounted (emitAll bs s) := by
  rw [OutIsCounted, emitAll_outcnt, emitAll_out, h, List.length_append, BitVec.ofNat_add]

theorem outIsCounted_flushPacker {s : State} (h : OutIsCounted s) : OutIsCounted (flushPacker s) := by
  unfold flushPacker
  split
  · exact h
  · exact outIsCounted_emitAll [_] (s := { s with acc := 0#8, nbits := 0#3 }) h

theorem portsInv_of_bodyOf (c : Instr) (s t : State) (h : PortsInv s) (hb : bodyOf c s = .ok t) :
    PortsInv t := by
  obtain ⟨hpacker, herrinfo, herr, hout⟩ := h
  cases c with
  | rst =>
    cases hb
    exact portsInv_reset s.port
  | nop | fclr | facc | wsat | wld | tbuild | ulenl | ulenh =>
    cases hb
    exact ⟨hpacker, herrinfo, herr, hout⟩
  | cgen =>
    obtain ⟨-, u, -, rfl⟩ := bodyOf_cgen_ok hb
    exact ⟨hpacker, herrinfo, herr, hout⟩
  | penc b =>
    obtain ⟨-, rfl⟩ := bodyOf_penc_ok hb
    exact ⟨packerFits_appendBits _ hpacker, by simpa [ErrInfoAgrees] using herrinfo, by simpa using herr,
      outIsCounted_appendBits _ hout⟩
  | pflush =>
    cases hb
    exact ⟨packerFits_flushPacker hpacker, by simpa [ErrInfoAgrees] using herrinfo, by simpa using herr,
      outIsCounted_flushPacker hout⟩
  | ubyte b =>
    obtain ⟨-, k, -, rfl⟩ := bodyOf_ubyte_ok hb
    exact ⟨by simpa using hpacker, by simpa [ErrInfoAgrees] using herrinfo, by simpa using herr,
      outIsCounted_emitAll _ hout⟩
  | uend =>
    obtain rfl := bodyOf_uend_ok hb
    exact ⟨hpacker, herrinfo, herr, hout⟩

/-- Settles O55. -/
theorem stepKeepsPackerOutputAndFaultRegisters : Obligations.StepKeepsPackerOutputAndFaultRegisters :=
  fun _ _ => step_keeps portsInv_reset
    (fun _ _ ⟨hpacker, herrinfo, herr, hout⟩ => ⟨hpacker, herrinfo, herr, hout⟩)
    (fun _ f _ ⟨hpacker, _, _, hout⟩ =>
      ⟨hpacker, fun hzero => absurd hzero (faultCode_ne_zero f), (faultCode_range f).2, hout⟩)
    portsInv_of_bodyOf

/-! ## The code table -/

theorem shiftLeft_or_lt (p : Word) (x : Bool) {n : Nat} (h : p.toNat < 2 ^ n) :
    ((p <<< 1) ||| bitWord x).toNat < 2 ^ (n + 1) := by
  have hx : (bitWord x).toNat < 2 ^ (n + 1) := by
    have := Nat.one_lt_two_pow (n := n + 1) (by omega)
    cases x <;> simp [bitWord]
  rw [BitVec.toNat_or, BitVec.toNat_shiftLeft, Nat.shiftLeft_eq]
  refine Nat.or_lt_two_pow ((Nat.mod_le _ _).trans_lt ?_) hx
  rw [Nat.pow_succ]
  omega

/-- Every code of a table fits its length, which is at most 64 (R23). -/
def TableFits (t : CodeTable) : Prop :=
  ∀ b : Byte, (readSym t.len b).toNat ≤ 64 ∧
    (readSym t.bits b).toNat < 2 ^ (readSym t.len b).toNat

theorem tableFits_emptyCodes : TableFits emptyCodes := fun b => by simp [emptyCodes]

theorem tableFits_setCode {t : CodeTable} (h : TableFits t) (b : Byte) {p : Word} {d : Nat} (hd : d ≤ 64)
    (hp : p.toNat < 2 ^ d) : TableFits (setCode t b p d) := by
  intro c
  by_cases hc : c = b
  · simpa [setCode, hc, Nat.mod_eq_of_lt (show d < 128 by omega)] using ⟨hd, hp⟩
  · simpa [setCode, readSym_writeSym_other _ _ hc] using h c

/-- A visit down a pattern that fits its depth, unless it is already too deep to be recorded, keeps a
fitting table. -/
theorem visit_fits {a : Arena} {fuel : Nat} {i : NodeIx} {p : Word} {d : Nat} {t u : CodeTable}
    (ht : TableFits t) (hp : d ≤ 64 → p.toNat < 2 ^ d) (h : visit a fuel i p d t = .ok u) :
    TableFits u := by
  induction fuel generalizing i p d t u with
  | zero => cases h
  | succ fuel ih =>
    have hnext (x : Bool) : d + 1 ≤ 64 → ((p <<< 1) ||| bitWord x).toNat < 2 ^ (d + 1) := fun hd =>
      shiftLeft_or_lt p x (hp (by omega))
    obtain ⟨_, n, ⟨⟩, -, ⟨-, -, rfl⟩ | ⟨-, -, hd, rfl⟩ | ⟨-, m, hleft, hright⟩⟩ := visit_ok h
    · exact ht
    · exact tableFits_setCode ht _ hd (hp hd)
    · exact ih (ih ht (by simpa [bitWord] using hnext false) hleft) (hnext true) hright

theorem codesOf_fits {a : Arena} {root : NodeIx} {u : CodeTable} (h : codesOf a root = .ok u) :
    TableFits u := by
  unfold codesOf at h
  split at h
  · cases h
    exact tableFits_emptyCodes
  · exact visit_fits tableFits_emptyCodes (fun _ => by simp) h

theorem codeInv_of_bodyOf (c : Instr) (s t : State) (h : CodeInv s) (hb : bodyOf c s = .ok t) :
    CodeInv t := by
  obtain ⟨hflags, hofTree, hfit⟩ := h
  cases c with
  | rst =>
    cases hb
    exact codeInv_reset s.port
  | nop | fclr | facc | ulenl | ulenh =>
    cases hb
    exact ⟨hflags, hofTree, hfit⟩
  | wsat | wld | tbuild =>
    cases hb
    exact ⟨nofun, nofun, hfit⟩
  | cgen =>
    obtain ⟨htv, u, hu, rfl⟩ := bodyOf_cgen_ok hb
    exact ⟨fun _ => htv, fun _ => hu, codesOf_fits hu⟩
  | penc b =>
    obtain ⟨-, rfl⟩ := bodyOf_penc_ok hb
    obtain ⟨a, n, emitted, hmoved⟩ := appendBits_eq_packerMoved (codeOf s b) s
    exact hmoved ▸ ⟨hflags, hofTree, hfit⟩
  | pflush =>
    cases hb
    obtain ⟨a, n, emitted, hmoved⟩ := flushPacker_eq_packerMoved s
    exact hmoved ▸ ⟨hflags, hofTree, hfit⟩
  | ubyte b =>
    obtain ⟨-, k, -, rfl⟩ := bodyOf_ubyte_ok hb
    exact emitAll_eq _ _ ▸ ⟨hflags, hofTree, hfit⟩
  | uend =>
    obtain rfl := bodyOf_uend_ok hb
    exact ⟨hflags, hofTree, hfit⟩

/-- Settles O57: only `CGEN` and the commands that clear `CV` write what the invariant speaks of, and the
patterns `CGEN` records have one bit for each edge. -/
theorem stepKeepsTheCodeTable : Obligations.StepKeepsTheCodeTable :=
  fun _ _ => step_keeps codeInv_reset
    (fun _ _ ⟨hflags, hofTree, hfit⟩ => ⟨hflags, hofTree, hfit⟩)
    (fun _ _ _ ⟨hflags, hofTree, hfit⟩ => ⟨hflags, hofTree, hfit⟩) codeInv_of_bodyOf

end Sys2Proof.Machine
end

section
/-!
PROOFS. The walk of `UBYTE` in a tree that meets the invariants (spec 44_unpacker.md R188, R190,
30_encoding.md R101), that every step keeps them, and that from them every step completes.
-/

namespace Sys2Proof.Machine

/-! ## One bit of the walk -/

theorem walkBit_eq_arrive {a : Arena} {root : NodeIx} {x : Bool} {k : Walk} {n m : Node}
    (hn : nodeAt a k.cur = .ok n) (hm : nodeAt a (childOf n x) = .ok m) :
    walkBit a root x k = arrive root (childOf n x) m k := by
  have hne {i : NodeIx} {n : Node} (h : nodeAt a i = .ok n) : i ≠ Config.nil := by
    rintro rfl
    cases (nodeAt_nil a).symm.trans h
  simp only [walkBit, if_neg (hne hn), hn, if_neg (hne hm), hm]

theorem arrive_of_realLeaf {root c : NodeIx} {m : Node} (k : Walk) (hl : m.leaf = true)
    (hph : m.ph = false) :
    arrive root c m k = .ok { cur := root, rem := k.rem - 1#64, emitted := k.emitted ++ [m.sym] } := by
  simp [arrive, hl, hph]

theorem arrive_of_internal {root c : NodeIx} {m : Node} (k : Walk) (hl : m.leaf = false) :
    arrive root c m k = .ok { k with cur := c } := by
  simp [arrive, hl]

/-! ## A walk over a code (R101) -/

/-- The walk over a path to a real leaf emits its symbol and is back at the root. -/
theorem walkBits_of_codePath {a : Arena} {root i : NodeIx} {bits rest : List Bool} {b : Byte} {rem : Word}
    {emitted : List Byte} (hne : bits ≠ []) (hpath : CodePath a i bits b) (howed : rem ≠ 0#64) :
    walkBits a root (bits ++ rest) { cur := i, rem := rem, emitted := emitted } =
      walkBits a root rest { cur := root, rem := rem - 1#64, emitted := emitted ++ [b] } := by
  induction bits generalizing i with
  | nil => exact absurd rfl hne
  | cons x bits ih =>
    obtain ⟨j, hp, hleaf⟩ := hpath
    cases hp with
    | edge at_ internal hrest =>
      cases bits with
      | nil =>
        cases hrest
        obtain ⟨m, hm, hl, hph, rfl⟩ := hleaf
        exact walkBits_cons rest howed ((walkBit_eq_arrive at_ hm).trans (arrive_of_realLeaf _ hl hph))
      | cons y bits =>
        have hnext := ih (List.cons_ne_nil y bits) ⟨j, hrest, hleaf⟩
        cases hrest with
        | edge at' internal' hrest' =>
          exact (walkBits_cons _ howed
            ((walkBit_eq_arrive at_ at').trans (arrive_of_internal _ internal'))).trans hnext

/-- Settles O44: the code of a byte is its path from the root. -/
theorem walkOverACodeEmitsItsByte : Obligations.WalkOverACodeEmitsItsByte := by
  intro s b rem emitted rest hinv hcv hlen howed
  have hpath := codePath_codeOf hinv hcv hlen
  have hne : codeOf s b ≠ [] := fun hnil => not_codePath_empty hinv.tree b (hnil ▸ hpath)
  exact walkBits_of_codePath hne hpath howed

/-! ## The cursor stays on the tree (R40 item 7) -/

/-- The root or an internal node of the tree. -/
def OnTree (s : State) (c : NodeIx) : Prop :=
  c = s.root ∨ ∃ i : Fin 511, c.toNat = i.val ∧ i.val < s.nnode.toNat ∧ s.node[i.val].leaf = false

theorem TreeInv.onTree {s : State} (h : TreeInv s) (htv : s.tv = true) : OnTree s s.cur := h.cursor htv

section Walk
variable {s : State} (hinv : TreeInv s)
include hinv

/-- Where the tree is not empty the cursor is on an internal node. -/
theorem OnTree.internal {c : NodeIx} (h : OnTree s c) (hsome : s.nsym.toNat ≠ 0) :
    ∃ n, c.toNat < s.nnode.toNat ∧ nodeAt s.node c = .ok n ∧ n.leaf = false := by
  have hnode {c : NodeIx} {i : Fin 511} (hc : c.toNat = i.val) (hi : i.val < s.nnode.toNat)
      (hl : s.node[i.val].leaf = false) :
      ∃ n, c.toNat < s.nnode.toNat ∧ nodeAt s.node c = .ok n ∧ n.leaf = false := by
    have hix : c = ixOf i.val := BitVec.eq_of_toNat_eq (hc.trans (ixOf_toNat (by omega)).symm)
    exact ⟨_, hc ▸ hi, hix ▸ nodeAt_ixOf s.node i, hl⟩
  obtain rfl | ⟨i, hc, hi, hl⟩ := h
  · obtain ⟨i, hc, hi, hl⟩ := hinv.root hsome
    exact hnode hc hi hl
  · exact hnode hc hi hl

/-- In an empty tree the cursor is `NIL`. -/
theorem OnTree.eq_nil {c : NodeIx} (h : OnTree s c) (hzero : s.nsym.toNat = 0) : c = Config.nil := by
  obtain ⟨-, hempty, -⟩ := hinv.counts
  obtain ⟨hnnode, hroot⟩ := hempty hzero
  obtain rfl | ⟨i, -, hi, -⟩ := h
  · exact hroot
  · omega

/-- From an internal node a bit leads to an earlier entry. -/
theorem OnTree.child {c : NodeIx} (h : OnTree s c) (hsome : s.nsym.toNat ≠ 0) (x : Bool) :
    ∃ n m, nodeAt s.node c = .ok n ∧ n.leaf = false ∧ nodeAt s.node (childOf n x) = .ok m ∧
      (childOf n x).toNat < s.nnode.toNat ∧ (m.leaf = false → OnTree s (childOf n x)) := by
  obtain ⟨n, hc, hn, hl⟩ := h.internal hinv hsome
  have hlt := child_lt_of_childrenComeFirst hinv.children hc hn hl x
  have hnnode := nnode_le_of_treeInv hinv
  have harena : (childOf n x).toNat < 511 := by omega
  exact ⟨n, _, hn, hl, nodeAt_of_lt _ harena, hlt.trans hc,
    fun hm => .inr ⟨⟨_, harena⟩, rfl, hlt.trans hc, hm⟩⟩

/-- A bit raises `CorruptStream`, at the empty tree or the placeholder, or leaves the cursor on the tree. -/
theorem OnTree.walkBit_cases {k : Walk} (h : OnTree s k.cur) (x : Bool) :
    walkBit s.node s.root x k = .error (.raise .corruptStream) ∨
      ∃ k', walkBit s.node s.root x k = .ok k' ∧ OnTree s k'.cur := by
  by_cases hzero : s.nsym.toNat = 0
  · exact .inl (by simp [walkBit, h.eq_nil hinv hzero])
  · obtain ⟨n, m, hn, -, hm, -, hon⟩ := h.child hinv hzero x
    rw [walkBit_eq_arrive hn hm]
    cases hl : m.leaf with
    | false => exact .inr ⟨_, arrive_of_internal k hl, hon hl⟩
    | true =>
      cases hph : m.ph with
      | false => exact .inr ⟨_, arrive_of_realLeaf k hl hph, .inl rfl⟩
      | true => exact .inl (by simp [arrive, hl, hph])

theorem OnTree.walkBits_cases {k : Walk} (h : OnTree s k.cur) (bits : List Bool) :
    walkBits s.node s.root bits k = .error (.raise .corruptStream) ∨
      ∃ k', walkBits s.node s.root bits k = .ok k' ∧ OnTree s k'.cur := by
  induction bits generalizing k with
  | nil => exact .inr ⟨k, rfl, h⟩
  | cons x xs ih =>
    by_cases hdone : k.rem = 0#64
    · exact .inr ⟨k, walkBits_done _ _ _ hdone, h⟩
    · obtain herror | ⟨k', hk', hon⟩ := h.walkBit_cases hinv x
      · exact .inl (walkBits_cons_error xs hdone herror)
      · rw [walkBits_cons xs hdone hk']
        exact ih hon

end Walk

/-! ## Every step keeps the tree -/

/-- Where the arena and its registers stay, the invariants of the tree ask for `TV` and `CUR` only. -/
theorem TreeInv.of_sameTree {s t : State} (h : TreeInv s) (hnode : t.node = s.node) (hroot : t.root = s.root)
    (hnsym : t.nsym = s.nsym) (hnnode : t.nnode = s.nnode) (hof : TreeIsOfWeights t)
    (hcur : CursorOnTree t) : TreeInv t := by
  obtain ⟨hcounts, hchildren, hinternal, hunused, hweights, -, -⟩ := h
  cases t
  cases s
  cases hnode
  cases hroot
  cases hnsym
  cases hnnode
  exact ⟨hcounts, hchildren, hinternal, hunused, hweights, hof, hcur⟩

theorem treeInv_packerMoved {s : State} (h : TreeInv s) (a : Byte) (n : BitVec 3) (emitted : List Byte) :
    TreeInv (packerMoved s a n emitted) :=
  h.of_sameTree rfl rfl rfl rfl h.ofWeights h.cursor

theorem treeInv_of_bodyOf (c : Instr) (s t : State) (h : TreeInv s) (hb : bodyOf c s = .ok t) :
    TreeInv t := by
  cases c with
  | rst =>
    cases hb
    exact treeInv_reset s.port
  | nop | fclr | facc =>
    cases hb
    exact h.of_sameTree rfl rfl rfl rfl h.ofWeights h.cursor
  | wsat | wld =>
    cases hb
    exact h.of_sameTree rfl rfl rfl rfl nofun nofun
  | tbuild =>
    cases hb
    exact treeInv_installTree s
  | cgen =>
    obtain ⟨-, u, -, rfl⟩ := bodyOf_cgen_ok hb
    exact h.of_sameTree rfl rfl rfl rfl h.ofWeights h.cursor
  | penc b =>
    obtain ⟨-, rfl⟩ := bodyOf_penc_ok hb
    obtain ⟨a, n, emitted, hmoved⟩ := appendBits_eq_packerMoved (codeOf s b) s
    exact hmoved ▸ treeInv_packerMoved h a n emitted
  | pflush =>
    cases hb
    obtain ⟨a, n, emitted, hmoved⟩ := flushPacker_eq_packerMoved s
    exact hmoved ▸ treeInv_packerMoved h a n emitted
  | ulenl | ulenh =>
    cases hb
    exact h.of_sameTree rfl rfl rfl rfl h.ofWeights fun _ => .inl rfl
  | ubyte b =>
    obtain ⟨htv, k, hk, rfl⟩ := bodyOf_ubyte_ok hb
    obtain herror | ⟨k', hk', hon⟩ := (h.onTree htv).walkBits_cases h (k := .ofState s) (byteBits b)
    · cases herror.symm.trans hk
    · cases hk'.symm.trans hk
      rw [emitAll_eq]
      exact h.of_sameTree rfl rfl rfl rfl h.ofWeights fun _ => hon
  | uend =>
    obtain rfl := bodyOf_uend_ok hb
    exact h

theorem treeInv_port (s : State) (xs : List Input) (h : TreeInv s) : TreeInv { s with port := xs } :=
  h.of_sameTree rfl rfl rfl rfl h.ofWeights h.cursor

/-- Settles O56: `TBUILD` makes such a tree, a write to `W` clears `TV`, and a walk stays on the tree. -/
theorem stepKeepsTheTree : Obligations.StepKeepsTheTree :=
  fun _ _ => step_keeps treeInv_reset treeInv_port
    (fun _ _ _ h => h.of_sameTree rfl rfl rfl rfl h.ofWeights h.cursor) treeInv_of_bodyOf

/-! ## Every step completes -/

theorem eq_stuck_of_requireTree {s : State} {body : Except Stop State} {f : Fault}
    (h : requireTree s body = .error (.stuck f)) : s.tv = true ∧ body = .error (.stuck f) := by
  cases htv : s.tv <;> simp_all [requireTree]

theorem eq_stuck_of_requireCodes {s : State} {body : Except Stop State} {f : Fault}
    (h : requireCodes s body = .error (.stuck f)) : s.cv = true ∧ body = .error (.stuck f) := by
  cases hcv : s.cv <;> simp_all [requireCodes]

/-- No command of a state that meets the invariants stops the model. -/
theorem bodyOf_ne_stuck {s : State} (hinv : Inv s) (c : Instr) (f : Fault) :
    bodyOf c s ≠ .error (.stuck f) := by
  intro h
  cases c with
  | nop | rst | fclr | facc | wsat | wld | tbuild | pflush | ulenl | ulenh => cases h
  | cgen =>
    obtain ⟨-, hcodes⟩ := eq_stuck_of_requireTree h
    split at hcodes
    case h_1 e he =>
      obtain ⟨rfl, -⟩ := codesOf_error hinv.tree.counts hinv.tree.children hinv.tree.root he
      cases hcodes
    case h_2 => cases hcodes
  | penc b =>
    obtain ⟨-, hencode⟩ := eq_stuck_of_requireCodes h
    have hfits : ¬ (readSym s.codeLen b).toNat > Config.maxLen := Nat.not_lt.mpr (hinv.codes.fit b).1
    rw [encodeByte, if_neg hfits] at hencode
    split at hencode <;> cases hencode
  | ubyte b =>
    obtain ⟨htv, hdecode⟩ := eq_stuck_of_requireTree h
    unfold decodeByte at hdecode
    split at hdecode
    case h_1 e he =>
      obtain herror | ⟨k', hk', -⟩ :=
        (hinv.tree.onTree htv).walkBits_cases hinv.tree (k := .ofState s) (byteBits b)
      · cases herror.symm.trans he
        cases hdecode
      · cases hk'.symm.trans he
    case h_2 => cases hdecode
  | uend =>
    unfold bodyOf at h
    dsimp only at h
    split at h <;> cases h

theorem exec_completes {s : State} (hinv : Inv s) (c : Instr) : ∃ t, exec c s = .next t := by
  by_cases hc : c = .rst
  · exact ⟨_, hc ▸ exec_rst s⟩
  · cases h : exec c s with
    | next t => exact ⟨t, rfl⟩
    | fault f =>
      rw [exec_eq_command hc, command_fault_iff] at h
      exact absurd h.2 (bodyOf_ne_stuck hinv c f)
    | refused r => exact absurd h (exec_not_refused c s r)

/-- Settles O58: a legal word runs a command, and no command stops; every other input gives a next state
outright. -/
theorem everyStepCompletes : Obligations.EveryStepCompletes := by
  intro s hinv
  obtain ⟨-, h⟩ | ⟨xs, -, h⟩ | ⟨w, xs, c, -, -, h⟩ | ⟨w, xs, e, -, -, h⟩ := step_cases s
  · exact ⟨_, h⟩
  · exact ⟨_, h⟩
  · obtain ⟨⟨hpacker, herrinfo, herr, hout⟩, htree, hflags, hofTree, hfit⟩ := hinv
    rw [h]
    exact exec_completes (s := { s with port := xs })
      ⟨⟨hpacker, herrinfo, herr, hout⟩, treeInv_port s xs htree, hflags, hofTree, hfit⟩ c
  · exact ⟨_, h⟩

end Sys2Proof.Machine
end

section
/-!
PROOFS. `UBYTE` in a tree of two or more symbols decodes its bits (spec 44_unpacker.md R188, 30_encoding.md
R101), and `PFLUSH` pads to whole bytes (43_bitpacker.md R171).
-/

namespace Sys2Proof.Machine

/-! ## The bits a walk uses and the symbols they complete -/

/-- A walk over `bits` from `k` to `k'` has used the bits `used` and completed the symbols `emitted`. -/
structure Decoded (s : State) (bits : List Bool) (k k' : Walk) (used : List Bool) (emitted : List Byte) :
    Prop where
  /-- the symbols are emitted after those before -/
  emitted_eq : k'.emitted = k.emitted ++ emitted
  /-- each lowers the count owed by one -/
  owed : k'.rem.toNat + emitted.length = k.rem.toNat
  /-- the bits used are a beginning -/
  used_begins : used <+: bits
  /-- only a walk that owes nothing any more leaves bits -/
  used_all : k'.rem ≠ 0#64 → used = bits
  /-- a walk that owes nothing uses no bit -/
  used_none : k.rem = 0#64 → used = []
  /-- the walk that reaches the count ends at the root -/
  at_root : (k.rem = 0#64 → k.cur = s.root) → k'.rem = 0#64 → k'.cur = s.root
  /-- the bits that led to the cursor and the bits used are the codes of the symbols, and then the bits that
  lead to the new cursor -/
  codes : ∀ before, Path s.node s.root before k.cur →
    ∃ codes after, before ++ used = codes.flatten ++ after ∧
      List.Forall₂ (CodePath s.node s.root) codes emitted ∧ Path s.node s.root after k'.cur

/-- A walk that has used all its bits, or owes nothing, stays. -/
theorem Decoded.stay {s : State} {bits : List Bool} {k : Walk} (h : k.rem ≠ 0#64 → bits = []) :
    Decoded s bits k k [] [] where
  emitted_eq := (List.append_nil _).symm
  owed := rfl
  used_begins := List.nil_prefix
  used_all howed := (h howed).symm
  used_none _ := rfl
  at_root h := h
  codes before hpath := ⟨[], before, by simp, .nil, hpath⟩

section FirstBit
variable {s : State} {x : Bool} {bits used : List Bool} {k k' : Walk} {emitted : List Byte} {n m : Node}
  (howed : k.rem ≠ 0#64) (hn : nodeAt s.node k.cur = .ok n) (hl : n.leaf = false)
  (hm : nodeAt s.node (childOf n x) = .ok m)
include howed hn hl

/-- The first bit leads to an internal node. -/
theorem Decoded.cons_internal (h : Decoded s bits { k with cur := childOf n x } k' used emitted) :
    Decoded s (x :: bits) k k' (x :: used) emitted where
  emitted_eq := h.emitted_eq
  owed := h.owed
  used_begins := List.cons_prefix_cons.mpr ⟨rfl, h.used_begins⟩
  used_all hrem := congrArg (x :: ·) (h.used_all hrem)
  used_none hdone := absurd hdone howed
  at_root _ := h.at_root fun hdone => absurd hdone howed
  codes before hpath := List.append_cons before x used ▸ h.codes _ (hpath.snoc hn hl)

include hm

/-- The first bit leads to a real leaf, whose code it completes. -/
theorem Decoded.cons_leaf (hleaf : m.leaf = true) (hph : m.ph = false)
    (h : Decoded s bits { cur := s.root, rem := k.rem - 1#64, emitted := k.emitted ++ [m.sym] } k' used
      emitted) :
    Decoded s (x :: bits) k k' (x :: used) (m.sym :: emitted) where
  emitted_eq := by rw [h.emitted_eq, List.append_assoc]; rfl
  owed := by
    have := h.owed
    rw [List.length_cons]
    bv_omega
  used_begins := List.cons_prefix_cons.mpr ⟨rfl, h.used_begins⟩
  used_all hrem := congrArg (x :: ·) (h.used_all hrem)
  used_none hdone := absurd hdone howed
  at_root _ := h.at_root fun _ => rfl
  codes before hpath := by
    obtain ⟨codes, after, husedEq, hcodes, hafter⟩ := h.codes [] (.here _)
    have hcode : CodePath s.node s.root (before ++ [x]) m.sym :=
      ⟨_, hpath.snoc hn hl, m, hm, hleaf, hph, rfl⟩
    rw [List.nil_append] at husedEq
    exact ⟨(before ++ [x]) :: codes, after, by simp [husedEq], .cons hcode hcodes, hafter⟩

end FirstBit

/-- No leaf of a merge is the placeholder. -/
theorem IsHuffman.ph_of_leaf {a : Arena} {k : Nat} (h : IsHuffman a k) (i : Fin 511)
    (hi : i.val < 2 * k - 1) (hl : a[i.val].leaf = true) : a[i.val].ph = false := by
  obtain hleaf | hk := Nat.lt_or_ge i.val k
  · obtain ⟨b, v, -, hn⟩ := h.leaf i hleaf
    rw [hn]
    rfl
  · simp [(h.joins i hk hi).internal] at hl

/-- In a tree of two or more symbols a walk never faults. -/
theorem exists_decoded {s : State} (hinv : TreeInv s) (htv : s.tv = true) (htwo : 2 ≤ s.nsym.toNat)
    (bits : List Bool) {k : Walk} (hon : OnTree s k.cur) :
    ∃ k' used emitted, walkBits s.node s.root bits k = .ok k' ∧ Decoded s bits k k' used emitted := by
  induction bits generalizing k with
  | nil => exact ⟨k, [], [], rfl, .stay fun _ => rfl⟩
  | cons x xs ih =>
    by_cases hdone : k.rem = 0#64
    · exact ⟨k, [], [], walkBits_done _ _ _ hdone, .stay fun howed => absurd hdone howed⟩
    · obtain ⟨n, m, hn, hl, hm, hlt, hnext⟩ := hon.child hinv (by omega) x
      have hbit := walkBit_eq_arrive (root := s.root) (k := k) hn hm
      cases hleaf : m.leaf with
      | false =>
        obtain ⟨k', used, emitted, hwalk, hdec⟩ := ih (k := { k with cur := childOf n x }) (hnext hleaf)
        rw [arrive_of_internal k hleaf] at hbit
        exact ⟨k', x :: used, emitted, (walkBits_cons xs hdone hbit).trans hwalk,
          .cons_internal hdone hn hl hdec⟩
      | true =>
        have hph : m.ph = false := by
          obtain ⟨harena, rfl⟩ := (nodeAt_ok_iff _ _ _).mp hm
          obtain ⟨-, -, -, hnnode⟩ := root_of_treeInv hinv htwo
          exact (isHuffman_of_treeInv hinv htv htwo).ph_of_leaf ⟨_, harena⟩ (hnnode ▸ hlt) hleaf
        obtain ⟨k', used, emitted, hwalk, hdec⟩ :=
          ih (k := ⟨s.root, k.rem - 1#64, k.emitted ++ [m.sym]⟩) (.inl rfl)
        rw [arrive_of_realLeaf k hleaf hph] at hbit
        exact ⟨k', x :: used, m.sym :: emitted, (walkBits_cons xs hdone hbit).trans hwalk,
          .cons_leaf hdone hn hl hm hleaf hph hdec⟩

theorem encode_ubyte (b : Byte) :
    encode (.ubyte b) = 0x4200000000000000#64 + (b.setWidth 64 <<< 48) := by
  rw [encode_eq_matchOf_add]
  simp [fieldsOf, matchOf, opcode]

/-- Settles O39: the walk over the byte's bits from the cursor. -/
theorem ubyteDecodesItsBits : Obligations.UbyteDecodesItsBits := by
  intro b
  refine ⟨encode_ubyte b, fun s hinv herr htv htwo => ?_⟩
  obtain ⟨k, used, emitted, hwalk, hdec⟩ :=
    exists_decoded hinv htv htwo (byteBits b) (k := .ofState s) (hinv.onTree htv)
  have hexec := exec_ubyte_of_walk_ok herr htv hwalk
  rw [show k.emitted = emitted from hdec.emitted_eq] at hexec
  refine ⟨_, emitted, used, hexec, rfl, hdec.owed, ?begins, fun howed => ?all, hdec.used_none,
    fun howed => hdec.at_root fun hdone => absurd hdone howed, hdec.codes⟩
  case begins => exact bitsDown_eq_map_range b 8 ▸ hdec.used_begins
  case all => rw [hdec.used_all howed, byteBits, bitsDown_length]

/-! ## Padding -/

@[simp] theorem byteBits_length (b : Byte) : (byteBits b).length = 8 := bitsDown_length b 8

theorem length_streamBits (s : State) : (streamBits s).length = s.out.length * 8 + s.nbits.toNat := by
  simp [streamBits, List.length_flatMap]

theorem bitsDown_eq_zeros {w : Nat} {v : BitVec w} {n : Nat} (h : ∀ i, i < n → v.getLsbD i = false) :
    bitsDown v n = List.replicate n false := by
  refine List.eq_replicate_iff.mpr ⟨bitsDown_length v n, fun x hx => ?_⟩
  rw [bitsDown_eq_map_range] at hx
  obtain ⟨i, hi, rfl⟩ := List.mem_map.mp hx
  exact h i (by simpa using hi)

/-- Shifting left appends zeros to the bits. -/
theorem bitsDown_shiftLeft {w : Nat} (v : BitVec w) (n m : Nat) (h : n + m ≤ w) :
    bitsDown (v <<< m) (n + m) = bitsDown v n ++ List.replicate m false := by
  induction n with
  | zero =>
    rw [Nat.zero_add]
    exact bitsDown_eq_zeros fun i hi => by simp [hi]
  | succ n ih =>
    have hbit : (v <<< m).getLsbD (n + m) = v.getLsbD n := by
      rw [BitVec.getLsbD_shiftLeft]
      simp [show n + m < w by omega]
    rw [Nat.add_right_comm, bitsDown, bitsDown, ih (by omega), hbit]
    rfl

/-- The partial byte is the pending bits, and zeros up to eight. -/
theorem byteBits_partialByte (a : Byte) {n : Nat} (hn : n ≤ 8) :
    byteBits (a <<< (8 - n)) = bitsDown a n ++ List.replicate (8 - n) false := by
  have h := bitsDown_shiftLeft a n (8 - n) (by omega)
  rwa [Nat.add_sub_cancel' hn] at h

/-- Settles O36: the packer has nothing pending, or emits the partial byte. -/
theorem pflushPadsToWholeBytes : Obligations.PflushPadsToWholeBytes := by
  intro s herr
  have hpending : s.nbits.toNat < 8 := s.nbits.isLt
  have hwhole {t : State} (ht : t.nbits = 0#3) : (streamBits t).length % 8 = 0 := by
    simp [length_streamBits, ht]
  by_cases hempty : s.nbits = 0#3
  · exact ⟨s, 0, by rw [exec_pflush herr, flushPacker_of_empty hempty], by decide, by simp,
      hwhole hempty, hempty⟩
  · have hsome : s.nbits.toNat ≠ 0 := fun hzero => hempty (BitVec.eq_of_toNat_eq hzero)
    refine ⟨_, 8 - s.nbits.toNat, exec_pflush herr, by omega, ?_⟩
    rw [flushPacker_of_pending hempty]
    refine ⟨?stream, hwhole rfl, rfl⟩
    case stream => simp [streamBits, byteBits_partialByte s.acc hpending.le, bitsDown]

end Sys2Proof.Machine
end

section
/-!
PROOFS. The container and the calls of the host (spec 46_host_sequences.md R215 to R228).
-/

namespace Sys2Proof.Machine

/-! ## The container (R216, R217) -/

@[simp] theorem littleEndian_length {w : Nat} (v : BitVec w) (n : Nat) : (littleEndian v n).length = n := by
  simp [littleEndian]

/-- Reading the bytes of a value back gives the value, cut to the bytes there are. -/
theorem ofLittleEndian_littleEndian {w : Nat} (v : BitVec w) (n : Nat) :
    ofLittleEndian (littleEndian v n) = v.toNat % 256 ^ n := by
  induction n generalizing v with
  | zero => simp [littleEndian, ofLittleEndian, Nat.mod_one]
  | succ n ih =>
    have htail : littleEndian v (n + 1) = v.extractLsb' 0 8 :: littleEndian (v >>> 8) n := by
      rw [littleEndian, List.range_succ_eq_map, List.map_cons, List.map_map]
      refine congrArg _ (List.map_congr_left fun i _ => BitVec.eq_of_getLsbD_eq fun j _ => ?_)
      simp [Nat.mul_add, Nat.add_comm, Nat.add_left_comm]
    rw [htail, ofLittleEndian, ih, pow_succ', Nat.mod_mul]
    simp [Nat.shiftRight_eq_div_pow]

theorem ofNat_littleEndian {w : Nat} (v : BitVec w) {n : Nat} (h : w = 8 * n) :
    BitVec.ofNat w (ofLittleEndian (littleEndian v n)) = v := by
  have hpow : 256 ^ n = 2 ^ w := by
    rw [h, pow_mul]
    rfl
  rw [ofLittleEndian_littleEndian, hpow, Nat.mod_eq_of_lt v.isLt, BitVec.ofNat_toNat, BitVec.setWidth_eq]

/-- Fields of one length stand at multiples of it. -/
theorem take_drop_flatMap {α β : Type} {f : α → List β} {n : Nat} (hf : ∀ a, (f a).length = n)
    (rest : List β) (l : List α) (i : Nat) (hi : i < l.length) :
    (((l.flatMap f) ++ rest).drop (n * i)).take n = f l[i] := by
  induction l generalizing i with
  | nil => exact absurd hi (Nat.not_lt_zero _)
  | cons a l ih =>
    rw [List.flatMap_cons, List.append_assoc]
    cases i with
    | zero => exact List.take_left' (hf a)
    | succ i =>
      rw [Nat.mul_succ, Nat.add_comm, ← List.drop_drop, List.drop_left' (hf a)]
      exact ih i (Nat.lt_of_succ_lt_succ hi)

/-- The 256 weights as the container holds them. -/
def weightBytes (w : SymFile Half) : List Byte := w.toList.flatMap fun v => littleEndian v 4

theorem weightBytes_length (w : SymFile Half) : (weightBytes w).length = 1024 := by
  simp only [weightBytes, List.length_flatMap, littleEndian_length, List.map_const', List.sum_replicate,
    Vector.length_toList, smul_eq_mul, Nat.reduceMul]

theorem serialize_eq (s : State) :
    serialize s = containerHead ++ (littleEndian s.nacc 8 ++ (weightBytes s.w ++ s.out)) := by
  rw [serialize, List.append_assoc, List.append_assoc]
  rfl

theorem drop_header (s : State) : (serialize s).drop 12 = weightBytes s.w ++ s.out := by
  rw [serialize_eq, ← List.append_assoc]
  exact List.drop_left' (by rw [List.length_append, littleEndian_length]; rfl)

theorem drop_fixed (s : State) : (serialize s).drop fixedLength = s.out := by
  rw [fixedLength, show 1036 = 12 + 1024 from rfl, ← List.drop_drop, drop_header]
  exact List.drop_left' (weightBytes_length s.w)

theorem fixedLength_le_serialize (s : State) : fixedLength ≤ (serialize s).length := by
  rw [serialize_eq, List.length_append, List.length_append, List.length_append, littleEndian_length,
    weightBytes_length]
  have hhead : containerHead.length = 4 := rfl
  rw [fixedLength]
  omega

/-- The count of a symbol is its weight. -/
theorem countAt_serialize (s : State) {i : Nat} (hi : i < 256) : countAt (serialize s) i = s.w[i] := by
  have hlen : i < s.w.toList.length := by simpa using hi
  rw [countAt, ← List.drop_drop, drop_header, weightBytes,
    take_drop_flatMap (fun v => littleEndian_length v 4) s.out _ i hlen,
    ofNat_littleEndian (w := 32) _ (n := 4) rfl]
  exact Vector.getElem_toList hlen

/-- Settles O51: each part of the container is read back from where it was written. -/
theorem parseInvertsSerialize : Obligations.ParseInvertsSerialize := by
  intro s
  have htag : (serialize s).take 3 = containerHead.take 3 := by
    rw [serialize_eq]
    rfl
  have hmethod : ((serialize s).drop 3).take 1 = containerHead.drop 3 := by
    rw [serialize_eq]
    rfl
  have hnacc : ((serialize s).drop 4).take 8 = littleEndian s.nacc 8 := by
    rw [serialize_eq]
    exact List.take_left' (littleEndian_length s.nacc 8)
  rw [parse, if_neg (Nat.not_lt.mpr (fixedLength_le_serialize s)), if_neg (not_not.mpr htag),
    if_neg (not_not.mpr hmethod), hnacc, drop_fixed,
    ofNat_littleEndian (w := 64) _ (n := 8) rfl]
  refine congrArg (fun w => Except.ok (Container.mk s.nacc w s.out)) ?_
  exact Vector.ext fun i hi => by simpa using countAt_serialize s hi

/-! ## AutoSafe (R224) -/

theorem resetAndReport_result (e : HostError) (s : State) :
    ∃ e', (resetAndReport e s).result = .error e' := by
  unfold resetAndReport
  split
  · exact ⟨e, rfl⟩
  · exact ⟨.blockStopped, rfl⟩

/-- Whether to reject is asked of the container of a compression that ends without a fault only. -/
theorem compress_result_cases (input : List Byte) (s : State) :
    (∃ t, ∀ reject, (compress input reject s).result = containerOf input reject t) ∨
    ∃ e, ∀ reject, (compress input reject s).result = .error e := by
  unfold compress runCall
  split
  case h_1 t _ =>
    by_cases herr : readErr t = 0#4
    · exact .inl ⟨t, fun reject => by rw [if_pos herr]⟩
    · obtain ⟨e, he⟩ := resetAndReport_result (.internalError (readErr t)) t
      exact .inr ⟨e, fun reject => by rw [if_neg herr, he]⟩
  case h_2 => exact .inr ⟨.blockStopped, fun _ => rfl⟩

/-- Settles O53: a container is never shorter than its fixed part. -/
theorem autoSafeReturnsOnlySmallerContainers : Obligations.AutoSafeReturnsOnlySmallerContainers := by
  intro input s
  obtain ⟨t, ht⟩ | ⟨e, he⟩ := compress_result_cases input s
  · have hkeep : containerOf input false t = .ok (serialize t) := if_neg (by simp)
    rw [ht, ht, hkeep]
    dsimp only
    by_cases hlt : (serialize t).length < input.length
    · have hok : containerOf input true t = .ok (serialize t) := if_neg (by simpa using hlt)
      rw [hok, if_pos hlt]
      have := fixedLength_le_serialize t
      rw [fixedLength] at this
      exact ⟨rfl, fun hshort => absurd hlt (by omega)⟩
    · have hreject : containerOf input true t = .error .notReducible := if_pos (by simpa using hlt)
      rw [hreject, if_neg hlt]
      exact ⟨rfl, fun _ => nofun⟩
  · rw [he, he]
    exact ⟨rfl, fun _ => nofun⟩

/-! ## A call that ends in a fault (R228) -/

theorem runPort_succ_of_rst {s : State} {rest : List Input} (hport : s.port = .command (encode .rst) :: rest)
    (n : Nat) : runPort (n + 1) s = runPort n { State.reset with port := rest } := by
  rw [runPort, step_of_decode_ok hport (decode_encode .rst), exec_rst]
  rfl

/-- Once the inputs pending before it are run, `RST` starts its commands from the reset state. -/
theorem issue_rst_of_next {cs : List Instr} {s u : State}
    (h : runPort s.port.length (presentLast ((Instr.rst :: cs).map encode) s) = .next u) :
    issue (.rst :: cs) s = runPort cs.length { State.reset with port := (cs.map encode).map .command } := by
  have hlen : (presentLast ((Instr.rst :: cs).map encode) s).port.length =
      s.port.length + (cs.length + 1) := by
    simp [presentLast]
  have hport : u.port = .command (encode .rst) :: (cs.map encode).map .command := by
    rw [runPort_next_port h]
    simp [presentLast]
  rw [issue, hlen, runPort_add, h]
  exact runPort_succ_of_rst hport cs.length

theorem runPort_next_of_add {m n : Nat} {s t : State} (h : runPort (m + n) s = .next t) :
    ∃ u, runPort m s = .next u := by
  rw [runPort_add] at h
  split at h
  case h_1 u hu => exact ⟨u, hu⟩
  all_goals cases h

/-- What a call that begins with `RST` comes to does not depend on the state it is issued in. -/
theorem issue_rst_reset {cs : List Instr} {s t : State} (h : issue (.rst :: cs) s = .next t) :
    issue (.rst :: cs) State.reset = .next t := by
  have hrun := h
  rw [issue, presentLast, List.length_append] at hrun
  obtain ⟨u, hu⟩ := runPort_next_of_add hrun
  rw [issue_rst_of_next rfl, ← issue_rst_of_next hu, h]

theorem runCall_of_fault {cs : List Instr} {s t : State} (report : BitVec 4 → HostError)
    (value : State → Except HostError (List Byte)) (h : issue cs s = .next t) (hfault : t.err ≠ 0#4) :
    runCall cs report value s = { result := .error (report t.err), block := State.reset } := by
  rw [runCall, h]
  dsimp only
  rw [readErr_eq, if_neg hfault, resetAndReport_eq _ (issue_next_port h)]

/-- A faulted call that begins with `RST` reports its fault, and once more on the block it leaves. -/
theorem runCall_rst_of_fault {cs : List Instr} {s t : State} (report : BitVec 4 → HostError)
    (value : State → Except HostError (List Byte)) (h : issue (.rst :: cs) s = .next t)
    (hfault : t.err ≠ 0#4) :
    runCall (.rst :: cs) report value s = { result := .error (report t.err), block := State.reset } ∧
    runCall (.rst :: cs) report value State.reset = runCall (.rst :: cs) report value s := by
  have hcall := runCall_of_fault report value h hfault
  exact ⟨hcall, (runCall_of_fault report value (issue_rst_reset h) hfault).trans hcall.symm⟩

theorem decompress_of_parse {c : List Byte} {k : Container} (hparse : parse c = .ok k)
    (hsome : k.length ≠ 0#64) (s : State) :
    decompress c s =
      runCall (decompressCommands k.length k.weights k.stream) streamError (fun t => .ok t.out) s := by
  simp only [decompress, hparse, if_neg hsome]

/-- A call the model does not stop leaves an unfaulted block: one without a fault, or one just reset. -/
theorem runCall_block_err {cs : List Instr} {report : BitVec 4 → HostError}
    {value : State → Except HostError (List Byte)} {s : State}
    (h : (runCall cs report value s).result ≠ .error .blockStopped) :
    (runCall cs report value s).block.err = 0#4 := by
  cases ht : issue cs s with
  | next t =>
    by_cases herr : t.err = 0#4
    · simp [runCall, ht, herr]
    · rw [runCall_of_fault report value ht herr]
      rfl
  | fault f => simp [runCall, ht] at h
  | refused r => simp [runCall, ht] at h

/-- Settles O59: `compress` and `decompress` are such calls. -/
theorem faultedCallResetsAndReports : Obligations.FaultedCallResetsAndReports := by
  refine ⟨fun cs report value s t => runCall_rst_of_fault report value,
    fun c k s t hparse hsome h hfault => ?_, fun input reject s => runCall_block_err⟩
  rw [decompress_of_parse hparse hsome, decompress_of_parse hparse hsome]
  exact runCall_rst_of_fault streamError _ h hfault

end Sys2Proof.Machine
end
